-- ==== Sys2Proof/Word.lean ====
section
/-! DEFINITION. The words the machine is made of: 32-bit data, instructions and addresses (R20, R25,
R100), 4-bit register identifiers (R20). -/

namespace Sys2Proof

/-- A 32-bit value: register contents, an instruction, an address inside the processor (R20, R25, R100). -/
abbrev Word := BitVec 32

/-- A 4-bit register identifier, so 16 registers (R20, D4). -/
abbrev RegId := BitVec 4

end Sys2Proof
end

