-- ==== Sys2Proof/Config.lean ====
section
/-! DEFINITION. What an implementation or a launch fixes (00_scope.md R4) and the free values.

The parameters of R4 that are names, numbers or tables are plain data, held in the state's field `cfg`
and constant for a run (assumption log 1), so that a statement over all states holds for every choice of
them (D19). The parameters that are functions of arbitrary words are opaque constants: nothing can be
proved about their values (assumption log 3). -/

namespace Sys2Proof

/-- The twelve classes of instruction the decode stage distinguishes (R107). -/
inductive InsnClass
  | alu | shift | cmp | ldli | ldui | load | store | jal | ct | morph | morphDma | rcrisc
deriving DecidableEq, Repr

/-- The two implementations of the processor (R1). -/
inductive Variant
  | full | reduced
deriving DecidableEq, Repr

/-- INSN_STEP, the address increment between consecutive instructions: 1 or 2 (R26, R244, D7). -/
inductive InsnStep
  | one | two
deriving DecidableEq, Repr

/-- What a read of a register that no instruction has written gives: the register's value at reset, or a
free value, the register holding none (R24, assumption log 5). -/
inductive UnwrittenPolicy
  | resetValue | draw
deriving DecidableEq, Repr

/-- The two treatments R303 allows for a read at an unsafe distance: a draw between the new and the old
value, or the fault (assumption log 6). -/
inductive HazardPolicy
  | draw | fault
deriving DecidableEq, Repr

/-- The two read ports of the register file, one for each source field (R21). -/
inductive Port
  | one | two
deriving DecidableEq, Repr

/-- Which configuration functions the machine has: the chip's, of which nothing is known (R4, D19), or
those of the made-up test configuration T0 (95_test_vectors.md section 2, D31). -/
inductive FunctionSet
  | chip | t0
deriving DecidableEq, Repr

/-- One row of a decode table: the words it matches, and what Decode returns for them (R111). `linkReg` is the
register a JAL of this row links to, where the chip fixes one (R242, D33); a row of another class does not use
it. -/
structure DecodeRow where
  mask    : Word
  value   : Word
  cls     : InsnClass
  reads1  : Bool
  reads2  : Bool
  drWreq  : Bool
  linkReg : Option RegId
deriving DecidableEq, Repr

/-- Decode and the five field extractors as data: for each field the instruction bits it selects, bit 0
of the field first (R101, R103), and the decode table. Every function Decode of R111 is such a table, since
there are finitely many words. Whether all instructions share one layout is not given (R104, N29); one selection
for each field, of every word, is the model's choice. Whether the bits one field selects are distinct is not said
by R103 either; that a field may name one position twice is the model's choice, though R102's count presupposes
that none does (assumption log 2 for both). -/
structure Encoding where
  opcode : Vector (Fin 32) 7
  sr1    : Vector (Fin 32) 4
  sr2    : Vector (Fin 32) 4
  dr     : Vector (Fin 32) 4
  imm    : Vector (Fin 32) 16
  rows   : List DecodeRow
deriving DecidableEq, Repr, Inhabited

/-- The parameters of a run (R4), constant while it lasts. -/
structure RunConfig where
  /-- VARIANT (R1). -/
  variant : Variant
  /-- ZERO_REG (R23). -/
  zeroReg : Option RegId
  /-- INSN_STEP (R26). -/
  insnStep : InsnStep
  /-- DELAY_SLOTS is 1 (true) or 0 (false) (R244). -/
  delaySlot : Bool
  /-- RF_HAZARD_FREE (R303). -/
  rfHazardFree : Bool
  /-- LOAD_FORWARDED (R304). -/
  loadForwarded : Bool
  /-- CACHE_EN (R29, R62). -/
  cacheEn : Bool
  /-- END_PC, or none where the launch names no end (R39). -/
  endPc : Option Word
  /-- DATA_CELLS_INDEPENDENT (R75, D10). -/
  dataCellsIndependent : Bool
  /-- The platform puts both memories on one storage; R84 takes them apart (assumption log 10). -/
  spacesShared : Bool
  /-- Ranges of data bus addresses, first and last, that a DMA transfer may touch (R306). -/
  dmaShared : List (Nat × Nat)
  /-- The model's own: see `UnwrittenPolicy`. -/
  unwritten : UnwrittenPolicy
  /-- The model's own: see `HazardPolicy`. -/
  hazard : HazardPolicy
  /-- Decode and the field extractors (R103, R111). -/
  enc : Encoding
  /-- The configuration functions (R4). -/
  fns : FunctionSet
deriving DecidableEq, Repr

namespace Config

/-- The chip's encoding, which no source gives (R103, R107). -/
opaque encoding : Encoding

/-- Operands(ins, r1, r2, pc) = (src1, src2); an operand the instruction does not read is absent (R106). -/
opaque operands : Word → Option Word → Option Word → Word → Word × Word
/-- AluFn(ins, src1, src2) (R200). -/
opaque aluFn : Word → Word → Word → Word
/-- ShiftFn(ins, src1, src2) (R201). -/
opaque shiftFn : Word → Word → Word → Word
/-- CmpFn(ins, src1, src2) (R202). -/
opaque cmpFn : Word → Word → Word → Word
/-- LdliFn(ins, src1, src2) (R203). -/
opaque ldliFn : Word → Word → Word → Word
/-- LduiFn(ins, src1, src2) (R204). -/
opaque lduiFn : Word → Word → Word → Word
/-- MAddr(ins, r1, r2, pc) (R222). -/
opaque mAddr : Word → Option Word → Option Word → Word → Word
/-- MData(ins, r1, r2, pc) (R223). -/
opaque mData : Word → Option Word → Option Word → Word → Word
/-- BranchUnit(ins, r1, r2, pc) = (taken, target) (R241). -/
opaque branchUnit : Word → Option Word → Option Word → Word → Bool × Word

/-- Free value: the draw of the n-th instruction, a register result no rule gives (R225, R241, R269, U8). -/
opaque freeWord : Nat → Word
/-- Free value: whether the n-th instruction, reading register r through a port k instructions after its
write, sees the new value (true) or not (R303, U3). -/
opaque freeBit : Nat → Port → RegId → Nat → Bool
/-- Free value: what the n-th instruction reads through a port from a register that holds no value (R24). -/
opaque freeRegister : Nat → Port → RegId → Word
/-- Free value: what the data cell at a bus address that was neither launched nor written reads as, the
same until it is written (R86, U11). -/
opaque launchCell : Nat → Word
/-- Free value: what x_data_nc shows while the instruction in the execute stage has no result (R157). -/
opaque idleData : Nat → Word
/-- Which line of the cache core an address selects; the geometry is not in the source (R71, N11). That
the address alone selects it is the model's choice (assumption log 36). -/
opaque cacheLineOf : Word → Nat
/-- The 25-bit tag of an address, all 32 bits of it, in both variants (R70, R71, assumption log 36). -/
opaque cacheTagOf : Word → BitVec 25

end Config

end Sys2Proof
end

