-- ==== Sys2Proof/Machine/Fields.lean ====
section
/-! DEFINITION. Selecting the fields of an instruction word (R101, R103), and where a field's bits stand. -/

namespace Sys2Proof

/-- The field whose bit j is the word's bit `ps[j]` (R103). -/
def selectBits {n : Nat} (ps : Vector (Fin 32) n) (w : Word) : BitVec n :=
  BitVec.ofFnLE fun j => w.getLsbD ps[j]

/-- The bit that a field of value `v` puts at position `p` of the word, if it has one there. -/
def placedBit {n : Nat} (ps : Vector (Fin 32) n) (v : BitVec n) (p : Fin 32) : Option Bool :=
  ((List.finRange n).find? fun j => ps[j] == p).map fun (j : Fin n) => v.getLsbD j.val

/-- OPCODE(ins) (R101, R103). -/
def opcodeOf (E : Encoding) (w : Word) : BitVec 7 := selectBits E.opcode w
/-- SR1(ins) (R101, R103). -/
def sr1Of (E : Encoding) (w : Word) : RegId := selectBits E.sr1 w
/-- SR2(ins) (R101, R103). -/
def sr2Of (E : Encoding) (w : Word) : RegId := selectBits E.sr2 w
/-- DR(ins) (R101, R103). -/
def drOf (E : Encoding) (w : Word) : RegId := selectBits E.dr w
/-- IMM(ins) (R101, R103). -/
def immOf (E : Encoding) (w : Word) : BitVec 16 := selectBits E.imm w

/-- A row that fixes the link register of its JALs (R242, D33). -/
def fixesLink (r : DecodeRow) : Bool := r.cls == .jal && r.linkReg.isSome

/-- The destination register Decode returns for a word of the row: the register of the dr field, or the link
register where the row fixes one (R111, R242, D33, assumption log 16). -/
def drOfRow (E : Encoding) (r : DecodeRow) (w : Word) : RegId :=
  if r.cls = .jal then r.linkReg.getD (drOf E w) else drOf E w

/-- A row of the decode table matches a word. -/
def rowMatches (w : Word) (r : DecodeRow) : Bool := w &&& r.mask == r.value

/-- The rows of the decode table that match a word. -/
def matchingRows (E : Encoding) (w : Word) : List DecodeRow := E.rows.filter (rowMatches w)

end Sys2Proof
end

