-- ==== Sys2Proof/Machine/TestConfig.lean ====
section
/-! DEFINITION. The made-up configuration T0 of 95_test_vectors.md section 2. It is scaffolding and says
nothing of the chip (D31): it lets a word decode and a program run (assumption log 4). -/

namespace Sys2Proof

/-- The bit positions lo, lo+1, … of a contiguous field. -/
def bitRange (lo n : Nat) : Vector (Fin 32) n := Vector.ofFn fun j => Fin.ofNat 32 (lo + j)

/-- A row of T0's table: the opcode stands in bits 31:25. -/
def t0Row (op : BitVec 7) (c : InsnClass) (reads1 reads2 drWreq : Bool) : DecodeRow :=
  { mask := 0xFE000000, value := op ++ (0 : BitVec 25), cls := c, reads1, reads2, drWreq,
    linkReg := none }

/-- T0's fields and opcode table. -/
def t0Encoding : Encoding where
  opcode := bitRange 25 7
  dr := bitRange 21 4
  sr1 := bitRange 17 4
  sr2 := bitRange 13 4
  imm := bitRange 0 16
  rows :=
    [ t0Row 0x01 .alu true true true,           -- ADD
      t0Row 0x02 .shift true false true,        -- SHL
      t0Row 0x03 .cmp true true true,           -- SEQ
      t0Row 0x04 .ldli false false true,        -- LDLI
      t0Row 0x05 .ldui false false true,        -- LDUI
      t0Row 0x06 .load true false true,         -- LD
      t0Row 0x07 .store true true false,        -- ST
      t0Row 0x08 .jal false false true,         -- JAL
      t0Row 0x09 .ct true false false,          -- JR
      t0Row 0x0A .ct true false false,          -- BNZ
      t0Row 0x0B .morph true true false,        -- MOP
      t0Row 0x0C .morphDma true true false,     -- DMA
      t0Row 0x0D .rcrisc true false true ]      -- RCR

/-- zext_32 of T0's immediate, bits 15:0. -/
def t0Imm (ins : Word) : Word := (ins.setWidth 16).setWidth 32

/-- T0's opcode as a number, bits 31:25. -/
def t0Opcode (ins : Word) : Nat := ins.toNat / 2 ^ 25

/-- T0's Operands; where its table says n/a, the chip's. -/
def t0Operands (ins : Word) (r1 r2 : Option Word) (pc : Word) : Word × Word :=
  match t0Opcode ins, r1, r2 with
  | 0x01, some a, some b => (a, b)
  | 0x02, some a, _ => (a, t0Imm ins)
  | 0x03, some a, some b => (a, b)
  | 0x04, _, _ => (0, t0Imm ins)
  | 0x05, _, _ => (0, t0Imm ins)
  | 0x0B, some a, some b => (a, b)
  | 0x0C, some a, some b => (a, b)
  | 0x0D, some a, _ => (a, 0)
  | _, _, _ => Config.operands ins r1 r2 pc

/-- T0's MAddr: LD adds the immediate, ST does not. -/
def t0MAddr (ins : Word) (r1 r2 : Option Word) (pc : Word) : Word :=
  match t0Opcode ins, r1 with
  | 0x06, some a => a + t0Imm ins
  | 0x07, some a => a
  | _, _ => Config.mAddr ins r1 r2 pc

/-- T0's MData: ST stores r2. -/
def t0MData (ins : Word) (r1 r2 : Option Word) (pc : Word) : Word :=
  match t0Opcode ins, r2 with
  | 0x07, some b => b
  | _, _ => Config.mData ins r1 r2 pc

/-- T0's BranchUnit: JAL jumps to the immediate, JR to r1, BNZ to the immediate where r1 is not 0. -/
def t0BranchUnit (ins : Word) (r1 r2 : Option Word) (pc : Word) : Bool × Word :=
  match t0Opcode ins, r1 with
  | 0x08, _ => (true, t0Imm ins)
  | 0x09, some a => (true, a)
  | 0x0A, some a => (a != 0, t0Imm ins)
  | _, _ => Config.branchUnit ins r1 r2 pc

end Sys2Proof
end

