-- ==== Sys2Proof/Syntax.lean ====
section
/-! DEFINITION. The instructions: one constructor per row of spec/opcode_table.json, each carrying what
Decode returns for the word (R111) and the word itself, which every configuration function takes (R150). -/

namespace Sys2Proof

/-- What Decode returns beside the class (R111), with the instruction word. -/
structure Decoded where
  word   : Word
  op     : BitVec 7
  sr1    : RegId
  sr2    : RegId
  dr     : RegId
  imm    : BitVec 16
  drWreq : Bool
  reads1 : Bool
  reads2 : Bool
deriving DecidableEq, Repr

/-- An instruction of one of the twelve classes (R107). -/
inductive Instr
  | alu (d : Decoded)
  | shift (d : Decoded)
  | cmp (d : Decoded)
  | ldli (d : Decoded)
  | ldui (d : Decoded)
  | load (d : Decoded)
  | store (d : Decoded)
  | jal (d : Decoded)
  | ct (d : Decoded)
  | morph (d : Decoded)
  | morphDma (d : Decoded)
  | rcrisc (d : Decoded)
deriving DecidableEq, Repr

/-- The class of an instruction (R107). -/
def Instr.cls : Instr → InsnClass
  | .alu _ => .alu
  | .shift _ => .shift
  | .cmp _ => .cmp
  | .ldli _ => .ldli
  | .ldui _ => .ldui
  | .load _ => .load
  | .store _ => .store
  | .jal _ => .jal
  | .ct _ => .ct
  | .morph _ => .morph
  | .morphDma _ => .morphDma
  | .rcrisc _ => .rcrisc

/-- What Decode returned for the instruction. -/
def Instr.fields : Instr → Decoded
  | .alu d | .shift d | .cmp d | .ldli d | .ldui d | .load d | .store d | .jal d | .ct d
  | .morph d | .morphDma d | .rcrisc d => d

end Sys2Proof
end

