-- ==== Sys2Proof/WellFormed.lean ====
section
/-! DEFINITION. When an instruction is one that Decode can return under an encoding: each field is the
selection of the word's bits (R101, R103), and exactly one row of the table matches the word and says its
class, register use and destination (R108, R111, R242). -/

namespace Sys2Proof

/-- Each of the fields but dr is what its extractor selects from the word (R103, R111). -/
def fieldsAgree (E : Encoding) (d : Decoded) : Bool :=
  d.op == opcodeOf E d.word && d.sr1 == sr1Of E d.word && d.sr2 == sr2Of E d.word &&
    d.imm == immOf E d.word

/-- One row alone matches the word, and class, register use and destination are its (R108, R111, R242, D20). -/
def rowAgrees (E : Encoding) (c : InsnClass) (d : Decoded) : Bool :=
  match matchingRows E d.word with
  | [r] => r.cls == c && r.reads1 == d.reads1 && r.reads2 == d.reads2 && r.drWreq == d.drWreq &&
      d.dr == drOfRow E r d.word
  | _ => false

/-- The instruction is well formed under the encoding. -/
def Instr.wf (E : Encoding) (i : Instr) : Bool :=
  fieldsAgree E i.fields && rowAgrees E i.cls i.fields

end Sys2Proof
end

