-- ==== Sys2Proof/Decode.lean ====
section
/-! DEFINITION. Decode as a total function of the word (R111), and the encoder that builds the word back
from the fields (R101, R103). -/

namespace Sys2Proof

/-- Why Decode gives no instruction: no row knows the word (R109), or more than one does (R108, D20). -/
inductive Reject
  | unknown | ambiguous
deriving DecidableEq, Repr

/-- The instruction of a class (R107). -/
def instrOf (c : InsnClass) (d : Decoded) : Instr :=
  match c with
  | .alu => .alu d
  | .shift => .shift d
  | .cmp => .cmp d
  | .ldli => .ldli d
  | .ldui => .ldui d
  | .load => .load d
  | .store => .store d
  | .jal => .jal d
  | .ct => .ct d
  | .morph => .morph d
  | .morphDma => .morphDma d
  | .rcrisc => .rcrisc d

/-- The fields of a word, with the register use its row gives (R111). The selections are those of every word,
whatever its row (R104, assumption log 2); a JAL's dr is the link register where its row fixes one (R242, D33,
assumption log 16). -/
def decodedFields (E : Encoding) (r : DecodeRow) (w : Word) : Decoded where
  word := w
  op := opcodeOf E w
  sr1 := sr1Of E w
  sr2 := sr2Of E w
  dr := drOfRow E r w
  imm := immOf E w
  drWreq := r.drWreq
  reads1 := r.reads1
  reads2 := r.reads2

/-- Decode(ins) (R111); a word of no class or of two is rejected by name (R109, R108, D20, D21). -/
def decode (E : Encoding) (w : Word) : Except Reject Instr :=
  match matchingRows E w with
  | [] => .error .unknown
  | [r] => .ok (instrOf r.cls (decodedFields E r w))
  | _ :: _ :: _ => .error .ambiguous

/-- The word's bits in the place of the dr field say the destination: its row fixes no link register (R242). -/
def drInWord (E : Encoding) (w : Word) : Bool := !(matchingRows E w).any fixesLink

/-- The word's bit at a position, taken from the first field that lies there: opcode, sr1, sr2, dr, imm.
A bit of no field is the word's own (R102), and so is one in the place of a dr field that says nothing. -/
def encodedBit (E : Encoding) (d : Decoded) (p : Fin 32) : Bool :=
  (placedBit E.opcode d.op p <|> placedBit E.sr1 d.sr1 p <|> placedBit E.sr2 d.sr2 p <|>
    (if drInWord E d.word then placedBit E.dr d.dr p else none) <|>
    placedBit E.imm d.imm p).getD (d.word.getLsbD p)

/-- The word of an instruction, put together from its fields (R101, R103). -/
def encode (E : Encoding) (i : Instr) : Word := BitVec.ofFnLE (encodedBit E i.fields)

/-- The instruction the decoder reads from the word of the given bits, under T0, the one encoding the
spec writes down; the chip's is in no source (assumption log 4). -/
def decodeTableWord (nbits w : Nat) : Option Instr :=
  match decode t0Encoding (BitVec.ofNat 32 (w % 2 ^ nbits)) with
  | .ok i => some i
  | .error _ => none

end Sys2Proof
end

