-- ==== Sys2Proof/Machine/State.lean ====
section
/-! DEFINITION. The machine's state: the register file and the program counters (10_state.md), the two
memories, the four pipeline registers (R34), what the stages hold during a stall, the data cache core's
marks (R35), the MorphoSys events, the run's parameters, and the reasons a step can stop. -/

namespace Sys2Proof.Machine

/-- The model faults of R280: verdicts of the model, never chip traps. Each is SAFE: the run proves
nothing from there on. -/
inductive Fault
  /-- Raised by the fetch: the launch placed no instruction at the address (R57, U12). Safe. -/
  | noInstruction (pc : Word)
  /-- Raised by an operand read, under the policy `HazardPolicy.fault` alone: the register was written k
  instructions before, at a distance where the chip's answer is not known (R303, R304, U3). Safe. -/
  | hazardFault (r : RegId) (k : Nat)
  /-- Raised by CT and JAL: a control transfer stands in the delay slot of a taken one (R245, U4). Safe. -/
  | controlTransferInDelaySlot (pc : Word)
  /-- Raised by CT and JAL under INSN_STEP = 2: a taken transfer to an odd address (R246, U15). Safe. -/
  | misalignedTarget (target : Word)
deriving DecidableEq, Repr

/-- What the model declines to run. Each is SAFE: the run proves nothing from there on. -/
inductive Refusal
  /-- Raised by exec's arm of an instruction that has no meaning; no arm raises it. Safe. -/
  | notModelled (mnemonic : String)
  /-- Raised by decoding: Decode gives the word no class (R109, U1, D21). Safe. -/
  | unknownInstruction (ins : Word)
  /-- Raised by decoding: more than one row of the table matches the word (R108, U16, D20). Safe. -/
  | ambiguousInstruction (ins : Word)
  /-- Raised by LOAD and STORE under DATA_CELLS_INDEPENDENT = false: the bus address `a` is less than 4
  from the different address `b` accessed before (R75, D10). Safe. -/
  | overlappingCells (a b : Nat)
  /-- Raised by LOAD and STORE: the bus address is one a DMA transfer may touch, and a DMA-control
  instruction has been issued (R306, U9, D14). Safe. -/
  | dmaSharedMemory (a : Nat)
  /-- Raised by the fetch, and by the decode stage of the signal view for an instruction fetched before the store,
  where one storage holds both memories: the program stored to the instruction's address (R84, U17, D15). Safe. -/
  | selfModifyingCode (pc : Word)
  /-- Raised by `cycle`: the cache_en input is not the run's CACHE_EN (R85, U10, D18). Safe. -/
  | cacheEnChanged
deriving DecidableEq, Repr

/-- A memory: the cells that hold a value, by bus address (R32, R33). A cell is one bus value, so it is
kept as a word, not as bytes: no access splits or joins cells and no byte order exists (R75, R76). -/
abbrev Memory := List (Nat × Word)

/-- The canonical form: addresses strictly rising. A cell not listed holds no value, so no entry can
equal what an unlisted address reads as (assumption log 9). -/
abbrev Memory.wf (m : Memory) : Prop := (m.map Prod.fst).Pairwise (· < ·)

/-- The class signals of the decode/execute interface (R107, R154). -/
structure ClassFlags where
  aluOp      : Bool
  shftOp     : Bool
  cmpOp      : Bool
  ldliOp     : Bool
  lduiOp     : Bool
  memOp      : Bool
  memwOp     : Bool
  jalOp      : Bool
  morphOp    : Bool
  morphDmaOp : Bool
  rcriscOp   : Bool
deriving DecidableEq, Repr

/-- FD, the fetch stage's output register (R34, R140 to R146); `word` is the whole instruction, which the
decode stage passes on as d_ins (R150, assumption log 24). -/
structure FetchDecode where
  ready : Bool
  pc    : Word
  word  : Word
  op    : BitVec 7
  sr1   : RegId
  sr2   : RegId
  dr    : RegId
  imm   : BitVec 16
deriving DecidableEq, Repr

/-- DX, the decode stage's output register (R34, R150 to R156, R243). `target` is d_target_pc while
d_chg_pc is asserted, and absent otherwise (R147, R148). `maddr` and `mdata` are d_maddr_nc and
d_mdata_nc as the memory unit keeps them (R222, R223). -/
structure DecodeExecute where
  ready   : Bool
  word    : Word
  src1    : Word
  src2    : Word
  dr      : RegId
  flags   : ClassFlags
  jalAddr : Word
  drWreq  : Bool
  maddr   : Word
  mdata   : Word
  target  : Option Word
deriving DecidableEq, Repr

/-- The forwarding path x_data_nc, x_dr_nc, x_dr_wreq_nc (R157). -/
structure Forward where
  data   : Word
  dr     : RegId
  drWreq : Bool
deriving DecidableEq, Repr

/-- XW, the execute stage's output register (R34, R165 to R168). -/
structure ExecuteWrite where
  data   : Word
  dr     : RegId
  drWreq : Bool
  ready  : Bool
deriving DecidableEq, Repr

/-- WD, the write-back stage's output register (R34, R170 to R172). -/
structure WriteDecode where
  data   : Word
  dr     : RegId
  drWren : Bool
deriving DecidableEq, Repr

/-- What a register of the register file holds: its word, and whether an instruction has written it
(R20, R24). -/
structure Contents where
  word    : Word
  written : Bool
deriving DecidableEq, Repr

/-- What the data cache core holds of one line: its tag, valid mark and dirty mark (R35). One tag for each
line, the address alone selecting it, is the model's choice (assumption log 36). -/
structure CacheLine where
  line  : Nat
  tag   : BitVec 25
  valid : Bool
  dirty : Bool
deriving DecidableEq, Repr

/-- What a fetch brought, with the address it was made from (R55, R140). The word is absent only behind a control
transfer that waits for its operands, where the launch placed no instruction at the address (U12), or the program
stored to it (R84): whether that instruction is executed is not known yet (assumption log 26). -/
structure FetchedWord where
  pc   : Word
  word : Option Word
deriving DecidableEq, Repr

/-- What the stages hold between clock cycles beside the pipeline registers; only the signal view's
`cycle` reads and writes it. -/
structure StageState where
  /-- The fetch stage's program counter register (R25, R131, R177). How many there are and what each holds
  is not said (N7); one, holding the address to fetch from next, is the model's choice (assumption log 35). -/
  fetchPc : Word
  /-- The instruction of a fetch that completed in a stalled cycle, held for FD (R55). -/
  fetchHold : Option FetchedWord
  /-- The result of the instruction in execute, once its access or operation is finished (R64, R179). -/
  execDone : Option Word
  /-- The instruction in execute has begun its access or operation in an earlier cycle: a MorphoSys operation has
  had morpho_en asserted (R159, R265). -/
  begun : Bool
  /-- The external transfer that began in an earlier cycle and is not acknowledged: a write or a read
  (R65, R66, R72). -/
  transfer : Option Bool
  /-- The data cache core (R35). -/
  cache : List CacheLine
deriving DecidableEq, Repr

/-- A MorphoSys event: what the external decoder receives (R260, R267). -/
structure MorphoEvent where
  word : Word
  src1 : Word
  src2 : Word
deriving DecidableEq, Repr

/-- A data access the model has to remember for a refusal (R75, R84). -/
structure DataAccess where
  addr  : Nat
  write : Bool
deriving DecidableEq, Repr

structure State where
  /-- The parameters of the run (R4). -/
  cfg : RunConfig
  /-- The data register file (R20). -/
  rf : Vector Word 16
  /-- Bit r: the write of some instruction has reached register r (R24). -/
  written : BitVec 16
  /-- The address of the instruction being executed (R26). -/
  pc : Word
  /-- The address of the instruction after it (R244). -/
  npc : Word
  /-- The instruction memory (R32). -/
  imem : Memory
  /-- The data memory (R33). -/
  dmem : Memory
  /-- FD (R34). -/
  fd : FetchDecode
  /-- DX (R34). -/
  dx : DecodeExecute
  /-- The forwarding path's values for the instruction in DX (R157). -/
  xn : Forward
  /-- XW (R34). -/
  xw : ExecuteWrite
  /-- WD (R34). -/
  wd : WriteDecode
  /-- The model's own: what the register that WD writes held before, which a read at distance 3 may still
  see, in every cycle of a stall (R179, R303, assumption log 38). -/
  wdOld : Contents
  /-- The stages' own state in the signal view. -/
  sig : StageState
  /-- The MorphoSys events in program order (R267). -/
  events : List MorphoEvent
  /-- The model's own: a DMA-control instruction has been issued (R306). -/
  dmaIssued : Bool
  /-- The model's own: the data accesses a refusal may depend on (R75, R84). -/
  accesses : List DataAccess
  /-- The model's own: how many instructions have drawn a free value. -/
  draws : Nat
deriving DecidableEq, Repr

/-- No class flag is asserted (R154, R181). -/
def ClassFlags.none : ClassFlags :=
  ⟨false, false, false, false, false, false, false, false, false, false, false⟩

/-- FD holding no instruction (R146, R181). -/
def FetchDecode.empty : FetchDecode := ⟨false, 0, 0, 0, 0, 0, 0, 0⟩

/-- DX holding no instruction (R156, R181). -/
def DecodeExecute.empty : DecodeExecute :=
  ⟨false, 0, 0, 0, 0, ClassFlags.none, 0, false, 0, 0, Option.none⟩

/-- INSN_STEP as a number (R26). -/
def stepOf : InsnStep → Word
  | .one => 1
  | .two => 2

/-- The start state of a run (R37, R38): the pipeline empty, no register written, the memories as
launched, no event. Every register holds 0 (assumption log 5); the forwarding path shows no result, its
data are free (R157, assumption log 29). The cache core is empty, which makes every line not valid (R37); that
a line never loaded has no dirty mark and no tag is the model's choice (assumption log 40). -/
def State.launch (cfg : RunConfig) (resetPc : Word) (imem dmem : Memory) : State where
  cfg := cfg
  rf := Vector.replicate 16 0
  written := 0
  pc := resetPc
  npc := resetPc + stepOf cfg.insnStep
  imem := imem
  dmem := dmem
  fd := FetchDecode.empty
  dx := DecodeExecute.empty
  xn := ⟨Config.idleData 0, 0, false⟩
  xw := ⟨0, 0, false, false⟩
  wd := ⟨0, 0, false⟩
  wdOld := ⟨0, false⟩
  sig := ⟨resetPc, none, none, false, none, []⟩
  events := []
  dmaIssued := false
  accesses := []
  draws := 0

/-- The parameters with the defaults of R4; where R4 leaves one OPEN with no default, the value the
assumption log names (logs 7, 18, 28). The encoding and the functions are the chip's, unknown. -/
def defaultConfig : RunConfig where
  variant := .full
  zeroReg := none
  insnStep := .one
  delaySlot := true
  rfHazardFree := false
  loadForwarded := true
  cacheEn := false
  endPc := none
  dataCellsIndependent := true
  spacesShared := false
  dmaShared := []
  unwritten := .resetValue
  hazard := .draw
  enc := Config.encoding
  fns := .chip

/-- The machine right after reset (R37): nothing is placed in either memory and RESET_PC is 0
(assumption log 8). -/
def State.reset : State := State.launch defaultConfig 0 [] []

end Sys2Proof.Machine
end

