-- ==== Sys2Proof/Machine/Flags.lean ====
section
/-! DEFINITION. The class flags of the decode/execute interface (R107, R154). The machine has no condition
flags (R28), so this is every flag there is. -/

namespace Sys2Proof.Machine

/-- The flags the decode stage asserts for an instruction of a class, all others deasserted (R107). -/
def classFlags (c : InsnClass) : ClassFlags :=
  match c with
  | .alu => { ClassFlags.none with aluOp := true }
  | .shift => { ClassFlags.none with shftOp := true }
  | .cmp => { ClassFlags.none with cmpOp := true }
  | .ldli => { ClassFlags.none with ldliOp := true }
  | .ldui => { ClassFlags.none with lduiOp := true }
  | .load => { ClassFlags.none with memOp := true }
  | .store => { ClassFlags.none with memOp := true, memwOp := true }
  | .jal => { ClassFlags.none with jalOp := true }
  | .ct => ClassFlags.none
  | .morph => { ClassFlags.none with morphOp := true }
  | .morphDma => { ClassFlags.none with morphOp := true, morphDmaOp := true }
  | .rcrisc => { ClassFlags.none with morphOp := true, rcriscOp := true }

/-- A load: a memory operation that is not a memory write operation (R107, R221). -/
def isLoad (f : ClassFlags) : Bool := f.memOp && !f.memwOp

end Sys2Proof.Machine
end

