-- ==== Sys2Proof/Machine/Ops.lean ====
section
/-! DEFINITION. The named operations over memory, registers and the pipeline registers that every
instruction is made of. The machine has no exception (R280 to R285), so there is no operation that takes
one and none that returns from one. -/

namespace Sys2Proof.Machine

/-- Go on with the result of an operation, or stop as it stopped. -/
def andThen {α β : Type} (o : Host.Outcome α Fault Refusal)
    (f : α → Host.Outcome β Fault Refusal) : Host.Outcome β Fault Refusal :=
  match o with
  | .next a => f a
  | .fault r => .fault r
  | .refused r => .refused r

/-! ### Memory -/

/-- The value a cell holds, if it holds one. -/
def memLookup : Memory → Nat → Option Word
  | [], _ => none
  | (b, w) :: m, a => if a = b then some w else memLookup m a

/-- Write a cell, keeping the addresses strictly rising. -/
def memStore : Memory → Nat → Word → Memory
  | [], a, v => [(a, v)]
  | (b, w) :: m, a, v =>
    if a < b then (a, v) :: (b, w) :: m
    else if a = b then (a, v) :: m
    else (b, w) :: memStore m a v

/-- IA_W and DA_W, the width of both address buses (R4, R50, R60). -/
def addrBits : Variant → Nat
  | .full => 32
  | .reduced => 10

/-- The address on the bus: the low bits of the address inside (R57, R80, R86, D9). -/
def busAddr (v : Variant) (a : Word) : Nat := a.toNat % 2 ^ addrBits v

/-- What of a word crosses the data bus: all of it, or in rTinyRISC its low 16 bits, the upper 16 being
zero in the processor (R61, R86, D13). -/
def dataBus (v : Variant) (x : Word) : Word :=
  match v with
  | .full => x
  | .reduced => (x.setWidth 16).setWidth 32

/-- What the data memory holds for a bus address: the cell's value, or a free value that stays the same
until the cell is written (R67, R86, U11). -/
def State.cellAt (s : State) (a : Nat) : Word := (memLookup s.dmem a).getD (Config.launchCell a)

/-- LoadValue(a) (R86). -/
def State.loadValue (s : State) (a : Word) : Word :=
  dataBus s.cfg.variant (s.cellAt (busAddr s.cfg.variant a))

/-- MemWrite(a, DB_W, StoreValue(d)) (R86). -/
def State.writeData (s : State) (a d : Word) : State :=
  { s with dmem := memStore s.dmem (busAddr s.cfg.variant a) (dataBus s.cfg.variant d) }

/-- Two different bus addresses less than 4 apart, the top of the space counting as next to its
bottom (R75, D10). -/
def cellsOverlap (v : Variant) (a b : Nat) : Bool :=
  let d := (a + 2 ^ addrBits v - b) % 2 ^ addrBits v
  a != b && (d < 4 || 2 ^ addrBits v - d < 4)

/-- Why a data access is declined, if it is (R306; R75 with DATA_CELLS_INDEPENDENT = false). No rule orders the
two refusals (R281 orders the faults alone); that R306's comes first is the model's choice (assumption log
18). -/
def State.accessRefusal (s : State) (a : Word) : Option Refusal :=
  let b := busAddr s.cfg.variant a
  if s.dmaIssued && s.cfg.dmaShared.any (fun r => r.1 ≤ b && b ≤ r.2) then some (.dmaSharedMemory b)
  else if s.cfg.dataCellsIndependent then none
  else (s.accesses.find? fun x => cellsOverlap s.cfg.variant b x.addr).map fun x =>
    .overlappingCells b x.addr

/-- Remember a data access, where a refusal may depend on it later. -/
def State.recordAccess (s : State) (a : Word) (write : Bool) : State :=
  if s.cfg.dataCellsIndependent && !s.cfg.spacesShared then s
  else { s with accesses := ⟨busAddr s.cfg.variant a, write⟩ :: s.accesses }

/-- A data access: declined, or remembered and gone on with. -/
def State.access (s : State) (a : Word) (write : Bool) : Host.Outcome State Fault Refusal :=
  match s.accessRefusal a with
  | some r => .refused r
  | none => .next (s.recordAccess a write)

/-- One storage holds both memories and the program has stored to the bus address (R84, U17). -/
def State.storedTo (s : State) (a : Word) : Bool :=
  s.cfg.spacesShared && s.accesses.any fun x => x.write && x.addr == busAddr s.cfg.variant a

/-- IMem[a] (R57): the instruction placed at the bus address. No store changes it; where the platform
puts both memories on one storage, fetching what was stored is declined (R84). That this refusal comes before
NoInstruction is the model's choice, R281 having no place for it (assumption log 10). -/
def State.fetchWord (s : State) (a : Word) : Host.Outcome Word Fault Refusal :=
  if s.storedTo a then .refused (.selfModifyingCode a)
  else
    match memLookup s.imem (busAddr s.cfg.variant a) with
    | some w => .next w
    | none => .fault (.noInstruction a)

/-- Decode(ins), an unknown word or a word of two classes refused (R109, R108, D20, D21). -/
def State.decodeWord (s : State) (w : Word) : Host.Outcome Instr Fault Refusal :=
  match decode s.cfg.enc w with
  | .ok i => .next i
  | .error .unknown => .refused (.unknownInstruction w)
  | .error .ambiguous => .refused (.ambiguousInstruction w)

/-! ### The register file and the pipeline registers -/

/-- The register file's own value of a register; ZERO_REG reads as 0 (R20, R23). -/
def State.rfRead (s : State) (r : RegId) : Word :=
  if s.cfg.zeroReg = some r then 0 else s.rf[r.toNat]'r.isLt

/-- x[r] <- v in the register file; a write of ZERO_REG is discarded (R22, R23). -/
def rfWrite (z : Option RegId) (rf : Vector Word 16) (r : RegId) (v : Word) : Vector Word 16 :=
  if z = some r then rf else rf.set r.toNat v r.isLt

/-- The register file after this cycle's write: x[w_dr] <- w_data when w_dr_wren (R22, R172). -/
def State.writeBack (s : State) : Vector Word 16 :=
  if s.wd.drWren then rfWrite s.cfg.zeroReg s.rf s.wd.dr s.wd.data else s.rf

/-- Mark a register as written (R24). -/
def markWritten (m : BitVec 16) (r : RegId) : BitVec 16 := m ||| BitVec.twoPow 16 r.toNat

/-- The marks after this cycle's write (R24). -/
def State.markBack (s : State) : BitVec 16 :=
  if s.wd.drWren then markWritten s.written s.wd.dr else s.written

/-- The state after this cycle's register write, which every cycle with w_dr_wren makes, stalled or not
(R22, R172, R179). -/
def State.landed (s : State) : State := { s with rf := s.writeBack, written := s.markBack }

/-- What register r of the file holds (R20, R24). -/
def State.contents (s : State) (r : RegId) : Contents := ⟨s.rfRead r, s.written.getLsbD r.toNat⟩

/-- The back half of the pipeline after one tick of sCLOCK: the register file takes WD's write, WD what
XW shows (R170 to R172), XW the execute stage's result (R165 to R168). -/
def State.advance (s : State) : State :=
  { s.landed with
    wdOld := s.landed.contents s.xw.dr
    wd := ⟨s.xw.data, s.xw.dr, s.xw.ready && s.xw.drWreq⟩
    xw := ⟨s.xn.data, s.xn.dr, s.dx.ready && s.xn.drWreq, s.dx.ready⟩ }

/-- pc and npc after the instruction at pc; `target` is where it transfers control, if it does (R26,
R244). -/
def nextPcs (cfg : RunConfig) (pc npc : Word) (target : Option Word) : Word × Word :=
  if cfg.delaySlot then (npc, target.getD (npc + stepOf cfg.insnStep))
  else (target.getD (pc + stepOf cfg.insnStep),
    target.getD (pc + stepOf cfg.insnStep) + stepOf cfg.insnStep)

/-- One tick of sCLOCK that brings an instruction from decode into DX (R34, R177). -/
def State.tick (s : State) (dx : DecodeExecute) : State :=
  { s.advance with
    dx := dx
    pc := (nextPcs s.cfg s.pc s.npc dx.target).1
    npc := (nextPcs s.cfg s.pc s.npc dx.target).2
    draws := s.draws + 1 }

/-- The execute stage shows the result of the instruction in DX on the forwarding path (R157, R166,
R167). -/
def State.withResult (s : State) (dx : DecodeExecute) (x : Word) : State :=
  { s with xn := ⟨x, dx.dr, dx.ready && dx.drWreq⟩ }

/-- The sequential view's end of an instruction: it stands in DX, its result on the forwarding path. -/
def State.retire (s : State) (dx : DecodeExecute) (x : Word) : State := (s.tick dx).withResult dx x

/-- FD takes a fetched word, split into its fields (R101, R140 to R146). -/
def fetched (E : Encoding) (pc w : Word) : FetchDecode where
  ready := true
  pc := pc
  word := w
  op := opcodeOf E w
  sr1 := sr1Of E w
  sr2 := sr2Of E w
  dr := drOf E w
  imm := immOf E w

/-- FD holds the instruction at pc. -/
def State.loadFd (s : State) (w : Word) : State := { s with fd := fetched s.cfg.enc s.pc w }

/-- Hand an operation to the MorphoSys decoder (R267). -/
def State.emit (s : State) (dx : DecodeExecute) (dma : Bool) : State :=
  { s with
    events := s.events ++ [⟨dx.word, dx.src1, dx.src2⟩]
    dmaIssued := s.dmaIssued || dma }

end Sys2Proof.Machine
end

