-- ==== Sys2Proof/Machine/Operands.lean ====
section
/-! DEFINITION. Reading register operands in the decode stage (R21, R106, R158, R303 to R305), and the
configuration functions an instruction's operands go through (R4, R106). -/

namespace Sys2Proof.Machine

/-- A result that is on its way to the register file: written `distance` instructions before the one in
decode, and `visible` where the spec says the read sees it. -/
structure PendingWrite where
  distance : Nat
  writes   : Bool
  reg      : RegId
  data     : Word
  visible  : Bool
deriving DecidableEq, Repr

/-- The results on their way, nearest first: on the forwarding path (seen, but for a load's where
LOAD_FORWARDED is false; R158, R304), in XW and in WD (seen where RF_HAZARD_FREE; R303). -/
def State.pendingWrites (s : State) : List PendingWrite :=
  [ { distance := 1, writes := s.dx.ready && s.xn.drWreq, reg := s.xn.dr, data := s.xn.data,
      visible := s.cfg.loadForwarded || !isLoad s.dx.flags },
    { distance := 2, writes := s.xw.ready && s.xw.drWreq, reg := s.xw.dr, data := s.xw.data,
      visible := s.cfg.rfHazardFree },
    { distance := 3, writes := s.wd.drWren, reg := s.wd.dr, data := s.wd.data,
      visible := s.cfg.rfHazardFree } ]

/-- x[r] of the sequential view: the nearest result on its way, else the register file's value; ZERO_REG
reads as 0 (R20, R23). -/
def State.reg (s : State) (r : RegId) : Word :=
  if s.cfg.zeroReg = some r then 0
  else ((s.pendingWrites.find? fun p => p.writes && p.reg == r).map (·.data)).getD (s.rfRead r)

/-- What lies behind the results of register r on their way: what the register file holds, or held before
the write WD is making, for distance 3 (R303). -/
def State.behind (s : State) (r : RegId) : Contents :=
  if s.wd.drWren && s.wd.dr == r then s.wdOld else s.contents r

/-- What a read through a port gives of a register's contents: its word, or, under the policy by which a
register that nothing has written holds no value, a free value (R24). -/
def State.portValue (s : State) (p : Port) (r : RegId) (c : Contents) : Word :=
  if s.cfg.unwritten = .draw && !c.written then Config.freeRegister s.draws p r else c.word

/-- The old value of a register: what a read through a port gives of what lies behind the results on their
way (R303). -/
def State.oldValue (s : State) (p : Port) (r : RegId) : Word := s.portValue p r (s.behind r)

/-- Read a register through a port past the results on their way. One that the spec says is seen gives its
value; one at an unsafe distance faults, or a free value says whether it is seen or what lies behind it is
(R303). -/
def State.readPast (s : State) (p : Port) (r : RegId) :
    List PendingWrite → Host.Outcome Word Fault Refusal
  | [] => .next (s.oldValue p r)
  | w :: ws =>
    if w.writes && w.reg == r then
      if w.visible then .next w.data
      else
        match s.cfg.hazard with
        | .fault => .fault (.hazardFault r w.distance)
        | .draw => if Config.freeBit s.draws p r w.distance then .next w.data else s.readPast p r ws
    else s.readPast p r ws

/-- A register read in the decode stage through a port (R21, R23, R24, R158, R303). A register that
nothing has written is no reason to stop: every register holds a value (assumption log 5). -/
def State.readReg (s : State) (p : Port) (r : RegId) : Host.Outcome Word Fault Refusal :=
  if s.cfg.zeroReg = some r then .next 0 else s.readPast p r s.pendingWrites

/-- r1 or r2 of R106: the register's value where the instruction reads it, else absent. -/
def State.readSource (s : State) (p : Port) (reads : Bool) (r : RegId) :
    Host.Outcome (Option Word) Fault Refusal :=
  if reads then andThen (s.readReg p r) fun v => .next (some v) else .next none

/-- Both register operands, the first one first (R21, R281). -/
def State.readSources (s : State) (d : Decoded) :
    Host.Outcome (Option Word × Option Word) Fault Refusal :=
  andThen (s.readSource .one d.reads1 d.sr1) fun r1 =>
    andThen (s.readSource .two d.reads2 d.sr2) fun r2 => .next (r1, r2)

/-! ### The configuration functions of the run (R4): the chip's, or T0's -/

/-- Operands(ins, r1, r2, pc) (R106). -/
def operandsFn (f : FunctionSet) (ins : Word) (r1 r2 : Option Word) (pc : Word) : Word × Word :=
  match f with
  | .chip => Config.operands ins r1 r2 pc
  | .t0 => t0Operands ins r1 r2 pc

/-- AluFn(ins, src1, src2) (R200). -/
def aluFn (f : FunctionSet) (ins a b : Word) : Word :=
  match f with
  | .chip => Config.aluFn ins a b
  | .t0 => a + b

/-- ShiftFn(ins, src1, src2) (R201). -/
def shiftFn (f : FunctionSet) (ins a b : Word) : Word :=
  match f with
  | .chip => Config.shiftFn ins a b
  | .t0 => a <<< (b.toNat % 32)

/-- CmpFn(ins, src1, src2) (R202). -/
def cmpFn (f : FunctionSet) (ins a b : Word) : Word :=
  match f with
  | .chip => Config.cmpFn ins a b
  | .t0 => if a = b then 1 else 0

/-- LdliFn(ins, src1, src2) (R203). -/
def ldliFn (f : FunctionSet) (ins a b : Word) : Word :=
  match f with
  | .chip => Config.ldliFn ins a b
  | .t0 => b

/-- LduiFn(ins, src1, src2) (R204). -/
def lduiFn (f : FunctionSet) (ins a b : Word) : Word :=
  match f with
  | .chip => Config.lduiFn ins a b
  | .t0 => b <<< 16

/-- MAddr(ins, r1, r2, pc) (R222). -/
def mAddrFn (f : FunctionSet) (ins : Word) (r1 r2 : Option Word) (pc : Word) : Word :=
  match f with
  | .chip => Config.mAddr ins r1 r2 pc
  | .t0 => t0MAddr ins r1 r2 pc

/-- MData(ins, r1, r2, pc) (R223). -/
def mDataFn (f : FunctionSet) (ins : Word) (r1 r2 : Option Word) (pc : Word) : Word :=
  match f with
  | .chip => Config.mData ins r1 r2 pc
  | .t0 => t0MData ins r1 r2 pc

/-- BranchUnit(ins, r1, r2, pc) = (taken, target) (R241). -/
def branchUnitFn (f : FunctionSet) (ins : Word) (r1 r2 : Option Word) (pc : Word) : Bool × Word :=
  match f with
  | .chip => Config.branchUnit ins r1 r2 pc
  | .t0 => t0BranchUnit ins r1 r2 pc

/-! ### What the decode stage hands to the execute stage -/

/-- DX for an instruction of class c with the register operands rr (R106, R150 to R156, R222, R223,
R243); d_chg_pc is deasserted. The address, store data and return address are formed for every
instruction; only a memory operation or a JAL uses them (assumption log 23). -/
def State.decodedAs (s : State) (c : InsnClass) (d : Decoded) (rr : Option Word × Option Word) :
    DecodeExecute where
  ready := true
  word := d.word
  src1 := (operandsFn s.cfg.fns d.word rr.1 rr.2 s.pc).1
  src2 := (operandsFn s.cfg.fns d.word rr.1 rr.2 s.pc).2
  dr := d.dr
  flags := classFlags c
  jalAddr := s.pc + 2
  drWreq := d.drWreq
  maddr := mAddrFn s.cfg.fns d.word rr.1 rr.2 s.pc
  mdata := mDataFn s.cfg.fns d.word rr.1 rr.2 s.pc
  target := none

/-- The decode stage's work on an instruction that is no control transfer. -/
def State.issue (s : State) (c : InsnClass) (d : Decoded) : Host.Outcome DecodeExecute Fault Refusal :=
  andThen (s.readSources d) fun rr => .next (s.decodedAs c d rr)

/-- The instruction at pc stands in the delay slot of a taken control transfer (R244, R245). -/
def State.inDelaySlot (s : State) : Bool := s.cfg.delaySlot && s.dx.ready && s.dx.target.isSome

/-- A taken transfer to this target is misaligned: odd under INSN_STEP = 2 (R246). -/
def targetMisaligned (st : InsnStep) (target : Word) : Bool := st == .two && target.getLsbD 0

/-- The decode stage's work on a control transfer, the branch unit's among it (R147, R148, R240, R241);
the faults in R281's order. -/
def State.issueTransfer (s : State) (c : InsnClass) (d : Decoded) :
    Host.Outcome DecodeExecute Fault Refusal :=
  andThen (s.readSources d) fun rr =>
    if s.inDelaySlot then .fault (.controlTransferInDelaySlot s.pc)
    else
      let b := branchUnitFn s.cfg.fns d.word rr.1 rr.2 s.pc
      if b.1 && targetMisaligned s.cfg.insnStep b.2 then .fault (.misalignedTarget b.2)
      else .next { s.decodedAs c d rr with target := if b.1 then some b.2 else none }

/-- An instruction from decode to result: the decode stage's work, then the execute stage's on it, and
the pipeline moves (R132, R133, R180). -/
def throughStages (issued : Host.Outcome DecodeExecute Fault Refusal)
    (perform : DecodeExecute → Host.Outcome (State × Word) Fault Refusal) :
    Host.Outcome State Fault Refusal :=
  andThen issued fun dx => andThen (perform dx) fun tx => .next (tx.1.retire dx tx.2)

end Sys2Proof.Machine
end

