-- ==== Sys2Proof/Machine/Compute.lean ====
section
/-! DEFINITION. The compute classes ALU, SHIFT, CMP, LDLI, LDUI (41_compute.md). For each: the decode
stage's work, the execute stage's, and the instruction's meaning. The execute stage's functions depend on
the instruction and its two operands alone (D22). -/

namespace Sys2Proof.Machine

/-- ALU in the decode stage (R200). -/
def issueAlu (d : Decoded) (s : State) : Host.Outcome DecodeExecute Fault Refusal := s.issue .alu d
/-- ALU in the execute stage: AluFn (R200). -/
def performAlu (dx : DecodeExecute) (s : State) : Host.Outcome (State × Word) Fault Refusal :=
  .next (s, aluFn s.cfg.fns dx.word dx.src1 dx.src2)
/-- ALU (R200). -/
def execAlu (d : Decoded) (s : State) : Host.Outcome State Fault Refusal :=
  throughStages (issueAlu d s) fun dx => performAlu dx s

/-- SHIFT in the decode stage (R201). -/
def issueShift (d : Decoded) (s : State) : Host.Outcome DecodeExecute Fault Refusal := s.issue .shift d
/-- SHIFT in the execute stage: ShiftFn (R201). -/
def performShift (dx : DecodeExecute) (s : State) : Host.Outcome (State × Word) Fault Refusal :=
  .next (s, shiftFn s.cfg.fns dx.word dx.src1 dx.src2)
/-- SHIFT (R201). -/
def execShift (d : Decoded) (s : State) : Host.Outcome State Fault Refusal :=
  throughStages (issueShift d s) fun dx => performShift dx s

/-- CMP in the decode stage (R202). -/
def issueCmp (d : Decoded) (s : State) : Host.Outcome DecodeExecute Fault Refusal := s.issue .cmp d
/-- CMP in the execute stage: CmpFn, a register value, for there are no flags (R202, R28). -/
def performCmp (dx : DecodeExecute) (s : State) : Host.Outcome (State × Word) Fault Refusal :=
  .next (s, cmpFn s.cfg.fns dx.word dx.src1 dx.src2)
/-- CMP (R202). -/
def execCmp (d : Decoded) (s : State) : Host.Outcome State Fault Refusal :=
  throughStages (issueCmp d s) fun dx => performCmp dx s

/-- LDLI in the decode stage (R203). -/
def issueLdli (d : Decoded) (s : State) : Host.Outcome DecodeExecute Fault Refusal := s.issue .ldli d
/-- LDLI in the execute stage: LdliFn (R203). -/
def performLdli (dx : DecodeExecute) (s : State) : Host.Outcome (State × Word) Fault Refusal :=
  .next (s, ldliFn s.cfg.fns dx.word dx.src1 dx.src2)
/-- LDLI (R203). -/
def execLdli (d : Decoded) (s : State) : Host.Outcome State Fault Refusal :=
  throughStages (issueLdli d s) fun dx => performLdli dx s

/-- LDUI in the decode stage (R204). -/
def issueLdui (d : Decoded) (s : State) : Host.Outcome DecodeExecute Fault Refusal := s.issue .ldui d
/-- LDUI in the execute stage: LduiFn (R204). -/
def performLdui (dx : DecodeExecute) (s : State) : Host.Outcome (State × Word) Fault Refusal :=
  .next (s, lduiFn s.cfg.fns dx.word dx.src1 dx.src2)
/-- LDUI (R204). -/
def execLdui (d : Decoded) (s : State) : Host.Outcome State Fault Refusal :=
  throughStages (issueLdui d s) fun dx => performLdui dx s

end Sys2Proof.Machine
end

