-- ==== Sys2Proof/Machine/Control.lean ====
section
/-! DEFINITION. Control transfer: CT and JAL (43_control.md). The branch unit in the decode stage executes
them (R240); JAL's return address goes through the execute stage to a register (R243). -/

namespace Sys2Proof.Machine

/-- CT in the decode stage: the branch unit decides (R240, R241). -/
def issueCt (d : Decoded) (s : State) : Host.Outcome DecodeExecute Fault Refusal := s.issueTransfer .ct d
/-- CT in the execute stage: no class flag is asserted and x_data is the n-th draw (R241). -/
def performCt (n : Nat) (_dx : DecodeExecute) (s : State) :
    Host.Outcome (State × Word) Fault Refusal :=
  .next (s, Config.freeWord n)
/-- CT (R241). -/
def execCt (d : Decoded) (s : State) : Host.Outcome State Fault Refusal :=
  throughStages (issueCt d s) fun dx => performCt s.draws dx s

/-- JAL in the decode stage: the branch unit decides, and d_jal_addr is pc + 2 (R242, R243). -/
def issueJal (d : Decoded) (s : State) : Host.Outcome DecodeExecute Fault Refusal :=
  s.issueTransfer .jal d
/-- JAL in the execute stage: x_data is d_jal_addr (R243). -/
def performJal (dx : DecodeExecute) (s : State) : Host.Outcome (State × Word) Fault Refusal :=
  .next (s, dx.jalAddr)
/-- JAL (R242). -/
def execJal (d : Decoded) (s : State) : Host.Outcome State Fault Refusal :=
  throughStages (issueJal d s) fun dx => performJal dx s

end Sys2Proof.Machine
end

