-- ==== Sys2Proof/Machine/LoadStore.lean ====
section
/-! DEFINITION. The memory classes LOAD and STORE (42_loadstore.md): the address and store data are formed
in the decode stage (R222, R223), the one access is made in the execute stage (R133). -/

namespace Sys2Proof.Machine

/-- LOAD in the decode stage (R222, R224). -/
def issueLoad (d : Decoded) (s : State) : Host.Outcome DecodeExecute Fault Refusal := s.issue .load d
/-- LOAD in the execute stage: the access, whose value is LoadValue (R86, R224). -/
def performLoad (dx : DecodeExecute) (s : State) : Host.Outcome (State × Word) Fault Refusal :=
  andThen (s.access dx.maddr false) fun t => .next (t, s.loadValue dx.maddr)
/-- LOAD (R224). -/
def execLoad (d : Decoded) (s : State) : Host.Outcome State Fault Refusal :=
  throughStages (issueLoad d s) fun dx => performLoad dx s

/-- STORE in the decode stage (R222, R223, R225). -/
def issueStore (d : Decoded) (s : State) : Host.Outcome DecodeExecute Fault Refusal := s.issue .store d
/-- STORE in the execute stage: the cell is written; x_data, which a Decode that asserts dr_wreq would
write, is the n-th draw (R225). -/
def performStore (n : Nat) (dx : DecodeExecute) (s : State) :
    Host.Outcome (State × Word) Fault Refusal :=
  andThen (s.access dx.maddr true) fun t => .next (t.writeData dx.maddr dx.mdata, Config.freeWord n)
/-- STORE (R225). -/
def execStore (d : Decoded) (s : State) : Host.Outcome State Fault Refusal :=
  throughStages (issueStore d s) fun dx => performStore s.draws dx s

end Sys2Proof.Machine
end

