-- ==== Sys2Proof/Machine/Morphosys.lean ====
section
/-! DEFINITION. The MorphoSys classes MORPH, MORPH_DMA, RCRISC (44_morphosys.md): an event for the external
decoder, and a drawn result where Decode asserts dr_wreq (R269). The sequential view has no time, so the
wait for morpho_stall (R268) is in the signal view alone, `cycle`. -/

namespace Sys2Proof.Machine

/-- MORPH in the decode stage (R267). -/
def issueMorph (d : Decoded) (s : State) : Host.Outcome DecodeExecute Fault Refusal := s.issue .morph d
/-- MORPH in the execute stage: the event, and the n-th draw as x_data (R267, R269). -/
def performMorph (n : Nat) (dx : DecodeExecute) (s : State) :
    Host.Outcome (State × Word) Fault Refusal :=
  .next (s.emit dx false, Config.freeWord n)
/-- MORPH (R267). -/
def execMorph (d : Decoded) (s : State) : Host.Outcome State Fault Refusal :=
  throughStages (issueMorph d s) fun dx => performMorph s.draws dx s

/-- MORPH_DMA in the decode stage (R268). -/
def issueMorphDma (d : Decoded) (s : State) : Host.Outcome DecodeExecute Fault Refusal :=
  s.issue .morphDma d
/-- MORPH_DMA in the execute stage, once morpho_stall lets it (R268): the event, and the n-th draw as
x_data (R269). From here on a DMA transfer may be touching memory (R306). -/
def performMorphDma (n : Nat) (dx : DecodeExecute) (s : State) :
    Host.Outcome (State × Word) Fault Refusal :=
  .next (s.emit dx true, Config.freeWord n)
/-- MORPH_DMA (R268). -/
def execMorphDma (d : Decoded) (s : State) : Host.Outcome State Fault Refusal :=
  throughStages (issueMorphDma d s) fun dx => performMorphDma s.draws dx s

/-- RCRISC in the decode stage (R269). -/
def issueRcrisc (d : Decoded) (s : State) : Host.Outcome DecodeExecute Fault Refusal := s.issue .rcrisc d
/-- RCRISC in the execute stage: the event, and the n-th draw as x_data (R269). -/
def performRcrisc (n : Nat) (dx : DecodeExecute) (s : State) :
    Host.Outcome (State × Word) Fault Refusal :=
  .next (s.emit dx false, Config.freeWord n)
/-- RCRISC (R269). -/
def execRcrisc (d : Decoded) (s : State) : Host.Outcome State Fault Refusal :=
  throughStages (issueRcrisc d s) fun dx => performRcrisc s.draws dx s

end Sys2Proof.Machine
end

