-- ==== Sys2Proof/Machine/Dispatch.lean ====
section
/-! DEFINITION. What each instruction does: one arm per constructor of Instr. -/

namespace Sys2Proof.Machine

/-- The meaning of an instruction in the sequential view. -/
def exec (i : Instr) (s : State) : Host.Outcome State Fault Refusal :=
  match i with
  | .alu d => Sys2Proof.Machine.execAlu d s
  | .shift d => Sys2Proof.Machine.execShift d s
  | .cmp d => Sys2Proof.Machine.execCmp d s
  | .ldli d => Sys2Proof.Machine.execLdli d s
  | .ldui d => Sys2Proof.Machine.execLdui d s
  | .load d => Sys2Proof.Machine.execLoad d s
  | .store d => Sys2Proof.Machine.execStore d s
  | .jal d => Sys2Proof.Machine.execJal d s
  | .ct d => Sys2Proof.Machine.execCt d s
  | .morph d => Sys2Proof.Machine.execMorph d s
  | .morphDma d => Sys2Proof.Machine.execMorphDma d s
  | .rcrisc d => Sys2Proof.Machine.execRcrisc d s

end Sys2Proof.Machine
end

