-- ==== Sys2Proof/Machine/Step.lean ====
section
/-! DEFINITION. One step of the sequential view: fetch, decode, execute the instruction at pc; and the
launch of one word where the next step fetches it. -/

namespace Sys2Proof.Machine

/-- Fetch the word at pc, decode it and execute it, FD showing it (R57, R111, R131 to R133). -/
def step (s : State) : Host.Outcome State Fault Refusal :=
  andThen (s.fetchWord s.pc) fun w => andThen (s.decodeWord w) fun i => exec i (s.loadFd w)

/-- The launch of one instruction: its word is placed at pc, and the run's configuration is T0, without
which no word decodes (assumption log 4). -/
def State.withFetchWord (s : State) (nbits w : Nat) : State :=
  { s with
    imem := memStore s.imem (busAddr s.cfg.variant s.pc) (BitVec.ofNat 32 (w % 2 ^ nbits))
    cfg := { s.cfg with enc := t0Encoding, fns := .t0 } }

end Sys2Proof.Machine
end

