-- ==== Sys2Proof/Machine/Pipeline.lean ====
section
/-! DEFINITION. The signal view: one clock cycle of the four-stage pipeline (40_pipeline.md), with its
interfaces to the instruction memory, the data memory, the data cache core (20_memory.md) and the
MorphoSys decoder (44_morphosys.md). A cycle takes the acknowledges and stalls of that cycle as inputs
(R36) and gives the next state and every named signal. -/

namespace Sys2Proof.Machine

/-- How a line transfer of the data cache goes on in one cycle; the spec gives no sequence of it (R72, N24,
assumption log 20). -/
structure LineTransfer where
  /-- A transfer that begins in this cycle writes the old line back; otherwise it loads the new one. -/
  write : Bool
  /-- The line's load ends with this cycle's transfer. -/
  done  : Bool
  /-- The address of the transfer, all 32 bits of it. -/
  addr  : Word
  /-- The store data of a write-back. -/
  data  : Word
deriving DecidableEq, Repr

/-- What the environment drives in one clock cycle (R36). -/
structure Inputs where
  /-- INSACK (R50). -/
  insack : Bool
  /-- DACK (R60). -/
  dack : Bool
  /-- morpho_stall (R266). -/
  morphoStall : Bool
  /-- cache_en (R62). -/
  cacheEn : Bool
  /-- What is on IB while the memory answers no fetch (R50). -/
  ib : Word
  /-- What the memory drives on DB in a read that no rule gives the value of: one not acknowledged, or a
  line load (R66). -/
  db : Word
  /-- The line transfer, where the cache is enabled and the access misses (R62). -/
  line : LineTransfer
deriving DecidableEq, Repr

/-- The data memory pins of one cycle (R60, R63 to R66). WR and the store data are asserted on the
falling edge of the clock, so WR and DB are given for both halves of the cycle (R66, R310); DB is absent
where nobody drives it, and DA, which the spec gives no value then, while DR is deasserted (assumption log 43). -/
structure DataPins where
  da       : Option Nat
  dr       : Bool
  wrFirst  : Bool
  wrSecond : Bool
  dbFirst  : Option Word
  dbSecond : Option Word
deriving DecidableEq, Repr

/-- The execute/cache-core interface of one cycle (R70). -/
structure CoreSignals where
  din     : Option Word
  tagin   : Option (BitVec 25)
  hit     : Bool
  dirtin  : Bool
  pdout   : Option Word
  mdout   : Option Word
  rd      : Bool
  pwr     : Bool
  mwr     : Bool
  setval  : Bool
  setdirt : Bool
deriving DecidableEq, Repr

/-- The signals of one cycle beside the pipeline registers, which the state shows. -/
structure Signals where
  /-- IA (R50). -/
  ia : Nat
  /-- The address on IA, all 32 bits of it (R25, R140). -/
  iaAddr : Word
  /-- IR (R51, R54). -/
  ir : Bool
  /-- IB (R50). -/
  ib : Word
  fStall : Bool
  xStall : Bool
  pStall : Bool
  /-- f_ins_sr1_nc and f_ins_sr2_nc, once the instruction being fetched is there (R142, R143). -/
  sr1Nc : Option RegId
  sr2Nc : Option RegId
  /-- d_mem_op_nc, d_memw_op_nc, d_morph_op_nc among the flags of the instruction in decode (R220, R221,
  R262). -/
  flagsNc : ClassFlags
  /-- d_maddr_nc and d_mdata_nc, as the decode stage computes them in this cycle (R136, R222, R223). -/
  maddrNc : Option Word
  mdataNc : Option Word
  /-- x_data_nc, x_dr_nc, x_dr_wreq_nc (R157). -/
  forward : Forward
  data : DataPins
  core : CoreSignals
  /-- x_cache_en (R160). -/
  cacheEn : Bool
  /-- x_morph_en, which is morpho_en (R265). -/
  morphoEn : Bool
  /-- morpho_ins, morpho_src1, morpho_src2, which rTinyRISC does not have (R260, R261). -/
  morphoBuses : Option (Word × Word × Word)
deriving DecidableEq, Repr

/-! ### The data memory and the cache core -/

/-- No data access: DR and WR negated (R63, R66). The spec says what is on DA while DR is asserted and nothing of it
while DR is deasserted (R60); that no address is shown then, where there is no access or it was finished earlier in
the stall, is the model's choice (assumption log 43). -/
def idlePins : DataPins := ⟨none, false, false, false, none, none⟩

/-- No access to the cache core. That x_hit and x_dirtin are then deasserted and x_tagin and x_din absent, which
the spec does not say, is the model's choice (assumption log 37). -/
def idleCore : CoreSignals :=
  ⟨none, none, false, false, none, none, false, false, false, false, false⟩

/-- The line an address selects, if the core holds it (R70, R71). The address alone selects it and each line
has one tag, as in a direct-mapped cache; the associativity is not in the source (R35, N11), this is the
model's choice (assumption log 36). A line never loaded is not held and shows no tag (assumption log 40). -/
def selectedLine (c : List CacheLine) (a : Word) : Option CacheLine :=
  c.find? fun l => l.line == Config.cacheLineOf a

/-- x_hit: the selected line is valid and has the address's tag (R70). -/
def cacheHit (c : List CacheLine) (a : Word) : Bool :=
  (selectedLine c a).any fun l => l.valid && l.tag == Config.cacheTagOf a

/-- x_dirtin: the selected line is dirty (R70); one never loaded is not, which is the model's choice
(assumption log 40). -/
def cacheDirty (c : List CacheLine) (a : Word) : Bool := (selectedLine c a).any (·.dirty)

/-- x_setval: the selected line is marked as valid (R70). No signal carries a tag to the core or clears a dirty
mark; that the line takes the address's tag, and is not dirty, with x_setval at the end of its load, the old tag
and marks standing until then, is the model's choice (assumption log 42). -/
def markValid (c : List CacheLine) (a : Word) : List CacheLine :=
  ⟨Config.cacheLineOf a, Config.cacheTagOf a, true, false⟩ ::
    c.filter fun l => l.line != Config.cacheLineOf a

/-- x_setdirt: the selected line is marked as dirty (R70). -/
def markDirty (c : List CacheLine) (a : Word) : List CacheLine :=
  c.map fun l => if l.line == Config.cacheLineOf a then { l with dirty := true } else l

/-- One cycle of the access of the load or store in DX. -/
structure AccessCycle where
  /-- The access completes in this cycle. -/
  ack   : Bool
  pins  : DataPins
  core  : CoreSignals
  cache : List CacheLine
  /-- The external transfer that goes on in the next cycle: a write or a read. -/
  transfer : Option Bool
deriving DecidableEq, Repr

/-- An instruction that makes no access has none to wait for. -/
def noAccess (s : State) : AccessCycle := ⟨true, idlePins, idleCore, s.sig.cache, none⟩

/-- A transfer on the pins whose data are for a read `read`, for a write `write`. In a write, WR and the data
are there from the falling edge of the first cycle on (R66); in a read the memory drives DB. -/
def transferPins (s : State) (addr : Word) (isWrite : Bool) (read write : Word) :
    DataPins :=
  let goesOn := s.sig.transfer == some true
  { da := some (busAddr s.cfg.variant addr)
    dr := true
    wrFirst := isWrite && goesOn
    wrSecond := isWrite
    dbFirst :=
      if isWrite then (if goesOn then some (dataBus s.cfg.variant write) else none)
      else some (dataBus s.cfg.variant read)
    dbSecond := some (dataBus s.cfg.variant (if isWrite then write else read)) }

/-- The cache is disabled: one external access, complete when DACK is asserted, a read then giving the
memory's value (R62 to R67). -/
def externalAccess (inp : Inputs) (s : State) : AccessCycle where
  ack := inp.dack
  pins := transferPins s s.dx.maddr s.dx.flags.memwOp
    (if inp.dack then s.loadValue s.dx.maddr else inp.db) s.dx.mdata
  core := idleCore
  cache := s.sig.cache
  transfer := if inp.dack then none else some s.dx.flags.memwOp

/-- In a miss, whether this cycle's line transfer is a write-back: one under way goes on as it began. -/
def State.writesBack (inp : Inputs) (s : State) : Bool := s.sig.transfer.getD inp.line.write

/-- In a miss, the line's load ends with this cycle: it is marked as valid (R70, R72). -/
def State.lineLoaded (inp : Inputs) (s : State) : Bool :=
  inp.dack && !s.writesBack inp && inp.line.done

/-- The cache is enabled: a hit completes the access in the core; during a miss the external pins move
lines to and from main memory, until the line is marked as valid (R62, R70, R72). The sequence of a miss is
assumption log 20. The core is there in rTinyRISC too, with the tag of all 32 bits of the address (R71,
assumption log 36). The cycles in which x_din, x_rd and x_pdout carry something, and DR and WR in a line
transfer, are assumption log 37. R159 lets no new access begin while f_stall stays asserted and does not say
whether a further line transfer of a miss is one; that it goes on, the load behind a write-back or the next
item as part of the access being finished, is the model's choice (assumption log 37 too). -/
def cachedAccess (inp : Inputs) (s : State) : AccessCycle :=
  let hit := cacheHit s.sig.cache s.dx.maddr
  let store := s.dx.flags.memwOp
  let back := s.writesBack inp
  let loads := !hit && inp.dack && !back
  { ack := hit
    pins := if hit then idlePins else transferPins s inp.line.addr back inp.db inp.line.data
    core :=
      { din := if hit && !store then some (s.loadValue s.dx.maddr) else none
        tagin := (selectedLine s.sig.cache s.dx.maddr).map (·.tag)
        hit := hit
        dirtin := cacheDirty s.sig.cache s.dx.maddr
        pdout := if store then some s.dx.mdata else none
        mdout := if loads then some (dataBus s.cfg.variant inp.db) else none
        rd := !store || (!hit && back)
        pwr := hit && store
        mwr := loads
        setval := !hit && s.lineLoaded inp
        setdirt := hit && store }
    cache :=
      if hit then (if store then markDirty s.sig.cache s.dx.maddr else s.sig.cache)
      else if s.lineLoaded inp then markValid s.sig.cache s.dx.maddr
      else s.sig.cache
    transfer := if hit || inp.dack then none else some back }

/-- One cycle of the access of the load or store in DX, by CACHE_EN (R62). -/
def accessCycle (inp : Inputs) (s : State) : AccessCycle :=
  if s.cfg.cacheEn then cachedAccess inp s else externalAccess inp s

/-! ### The decode stage -/

/-- The decode stage's work on an instruction (R132). -/
def issueInstr (i : Instr) (s : State) : Host.Outcome DecodeExecute Fault Refusal :=
  match i with
  | .alu d => issueAlu d s
  | .shift d => issueShift d s
  | .cmp d => issueCmp d s
  | .ldli d => issueLdli d s
  | .ldui d => issueLdui d s
  | .load d => issueLoad d s
  | .store d => issueStore d s
  | .jal d => issueJal d s
  | .ct d => issueCt d s
  | .morph d => issueMorph d s
  | .morphDma d => issueMorphDma d s
  | .rcrisc d => issueRcrisc d s

/-- One cycle of the decode stage that ends with a tick of sCLOCK: what DX loads; an empty slot is passed
on (R181). `s` shows the execute stage's work of this cycle; an instruction that was fetched before the program
stored to its address, where one storage holds both memories, is declined here (R84, assumption log 10). -/
def decodeCycle (s : State) : Host.Outcome (Option DecodeExecute) Fault Refusal :=
  if s.fd.ready then
    if s.storedTo s.fd.pc then .refused (.selfModifyingCode s.fd.pc)
    else andThen (s.decodeWord s.fd.word) fun i =>
      andThen (issueInstr i { s with pc := s.fd.pc }) fun dx => .next (some dx)
  else .next none

/-- What the decode stage computes in this cycle, shown before the cycle ends (R136); nothing where its work
stops, which in a stalled cycle is not reported (assumption logs 39 and 41). -/
def State.decodeShows (s : State) : Option DecodeExecute :=
  match decodeCycle s with
  | .next o => o
  | _ => none

/-- The class flags of the instruction in decode, before the cycle ends (R136, R154). The spec gives a word
Decode does not know, or one of two classes, no behaviour (R109, D20); that it shows every flag deasserted, as
it stands there in a stalled cycle, is the model's choice (assumption log 41). -/
def State.decodeFlags (s : State) : ClassFlags :=
  if s.fd.ready then
    match decode s.cfg.enc s.fd.word with
    | .ok i => classFlags i.cls
    | .error _ => ClassFlags.none
  else ClassFlags.none

/-! ### The fetch stage

It sees the execute stage's work of the same cycle, on which the branch unit's operands may wait. -/

/-- The execute stage has no result for the forwarding path: nothing there, or still waiting. -/
def State.withoutResult (s : State) : State :=
  { s with xn := ⟨Config.idleData s.draws, s.dx.dr, s.dx.ready && s.dx.drWreq⟩ }

/-- The address the fetch stage's registers and the registered d_chg_pc give: the target while d_chg_pc is
asserted, else the program counter register (R147, R148, R180). While d_chg_pc is asserted FD holds the delay
slot's instruction; it holds none only where the run ended before it (R39, assumption log 28). Under
DELAY_SLOTS = 0 the target was on IA a cycle before (assumption log 26). -/
def State.fetchAddr (s : State) : Word :=
  (if s.cfg.delaySlot && s.dx.ready && s.fd.ready then s.dx.target else none).getD s.sig.fetchPc

/-- The execute stage is empty or shows its instruction's result, which decode may need (R158). -/
def State.hasResult (s : State) : Bool := !s.dx.ready || s.sig.execDone.isSome

/-- The instruction in decode is a control transfer, CT or JAL (R240). -/
def State.decodesTransfer (s : State) : Bool :=
  s.fd.ready &&
    match decode s.cfg.enc s.fd.word with
    | .ok i => i.cls == .ct || i.cls == .jal
    | .error _ => false

/-- The control transfer in decode reads register r, which is not the one that reads as zero (R23, R106). -/
def State.transferReads (s : State) (r : RegId) : Bool :=
  s.decodesTransfer && s.cfg.zeroReg != some r &&
    match decode s.cfg.enc s.fd.word with
    | .ok i => (i.fields.reads1 && i.fields.sr1 == r) || (i.fields.reads2 && i.fields.sr2 == r)
    | .error _ => false

/-- DELAY_SLOTS = 0: the outcome of the control transfer in decode is not known yet, for it reads the register that
the instruction in the execute stage writes, which has no result yet (R158, assumption log 26). -/
def State.awaitsBranch (s : State) : Bool :=
  !s.cfg.delaySlot && !s.hasResult && s.dx.drWreq && s.transferReads s.dx.dr

/-- The target of the control transfer in decode, if the branch unit takes it (R147, R241). -/
def State.branchTarget (s : State) : Option Word :=
  if s.fd.ready then
    match andThen (s.decodeWord s.fd.word) fun i => issueInstr i { s with pc := s.fd.pc } with
    | .next x => x.target
    | _ => none
  else none

/-- DELAY_SLOTS = 0: the target of the taken control transfer in decode, as soon as its outcome is known. No signal
cancels an instruction in FD and none is executed behind the transfer (R244), so the branch unit's outcome steers
the fetch while the transfer is in decode, which is the model's choice (R147, N47, assumption log 26). -/
def State.branchesTo (s : State) : Option Word :=
  if s.cfg.delaySlot || s.awaitsBranch then none else s.branchTarget

/-- The address on IA, all 32 bits of it (R50, R140). -/
def State.iaAddr (s : State) : Word := s.branchesTo.getD s.fetchAddr

/-- The fetch stage has reached END_PC: nothing is fetched from there on, and the pipeline empties (R39,
assumption log 28). While a control transfer's outcome is not known, neither is whether it has. -/
def State.fetchEnds (s : State) : Bool := s.cfg.endPc == some s.iaAddr && !s.awaitsBranch

/-- What a fetch in an earlier cycle of the stall brought from the address on IA (R55). -/
def State.fetchedAlready (s : State) : Option FetchedWord :=
  s.sig.fetchHold.filter fun h => h.pc == s.iaAddr

/-- IR: a fetch is enabled unless it was made already, in an earlier cycle of a stall (R51, R53 to R55). While the
outcome of a control transfer is not known, it is the fetch of the next instruction that goes on. -/
def State.fetchEnabled (s : State) : Bool := !s.fetchEnds && s.fetchedAlready.isNone

/-- f_stall: IR asserted and INSACK not (R53, R159). -/
def State.fetchStalls (inp : Inputs) (s : State) : Bool := s.fetchEnabled && !inp.insack

/-- A fetch that completes: the instruction placed at the address on IA (R57). Where none is to be had there
(U12, R84) the run stops, but not while the outcome of a control transfer is not known: the instruction may be one
that is not executed, which no rule lets stop the run (R244, assumption log 26). -/
def State.fetchBrings (s : State) : Host.Outcome FetchedWord Fault Refusal :=
  match s.fetchWord s.iaAddr with
  | .next w => .next ⟨s.iaAddr, some w⟩
  | .fault f => if s.awaitsBranch then .next ⟨s.iaAddr, none⟩ else .fault f
  | .refused r => if s.awaitsBranch then .next ⟨s.iaAddr, none⟩ else .refused r

/-- What the fetch stage has at the end of the cycle, if anything (R51, R55). -/
def fetchCycle (inp : Inputs) (s : State) : Host.Outcome (Option FetchedWord) Fault Refusal :=
  if s.fetchEnds || s.fetchStalls inp then .next none
  else
    match s.fetchedAlready.bind (·.word) with
    | some w => .next (some ⟨s.iaAddr, some w⟩)
    | none => andThen s.fetchBrings fun f => .next (some f)

/-! ### The execute stage -/

/-- The execute stage's work on the instruction in DX, as its class flags say (R154). -/
def performFlagged (n : Nat) (dx : DecodeExecute) (s : State) :
    Host.Outcome (State × Word) Fault Refusal :=
  if dx.flags.memOp then
    if dx.flags.memwOp then performStore n dx s else performLoad dx s
  else if dx.flags.morphOp then
    if dx.flags.morphDmaOp then performMorphDma n dx s
    else if dx.flags.rcriscOp then performRcrisc n dx s
    else performMorph n dx s
  else if dx.flags.jalOp then performJal dx s
  else if dx.flags.aluOp then performAlu dx s
  else if dx.flags.shftOp then performShift dx s
  else if dx.flags.cmpOp then performCmp dx s
  else if dx.flags.ldliOp then performLdli dx s
  else if dx.flags.lduiOp then performLdui dx s
  else performCt n dx s

/-- What the execute stage did in a cycle. -/
structure ExecuteCycle where
  state : State
  /-- x_stall (R149). -/
  stall : Bool
  pins  : DataPins
  core  : CoreSignals

/-- morpho_stall holds the MorphoSys operation in the execute stage (R266, assumption log 27). -/
def State.morphHeld (inp : Inputs) (s : State) : Bool :=
  !s.dx.flags.memOp && s.dx.flags.morphOp && inp.morphoStall

/-- The MorphoSys operation in the execute stage may not begin in this cycle: morpho_en is not newly asserted while
f_stall is (R159, R265). -/
def State.morphBarred (inp : Inputs) (s : State) : Bool :=
  !s.dx.flags.memOp && s.dx.flags.morphOp && !s.sig.begun && s.withoutResult.fetchStalls inp

/-- One cycle of the execute stage (R133, R149, R157). An empty slot does nothing (R181); an instruction
that is finished shows its result and starts nothing (R159), morpho_stall holding it still (R266); a MorphoSys
operation does not begin while f_stall is asserted (R265); a load or store, whose access begins in its first
execute cycle (R63, assumption log 25), waits for its acknowledge (R65), a MorphoSys operation for morpho_stall;
what does not wait is performed. -/
def executeCycle (inp : Inputs) (s : State) : Host.Outcome ExecuteCycle Fault Refusal :=
  if !s.dx.ready then .next ⟨s.withoutResult, false, idlePins, idleCore⟩
  else
    match s.sig.execDone with
    | some v => .next ⟨s.withResult s.dx v, s.morphHeld inp, idlePins, idleCore⟩
    | none =>
      if s.morphBarred inp then .next ⟨s.withoutResult, s.morphHeld inp, idlePins, idleCore⟩
      else
        let acc : AccessCycle := if s.dx.flags.memOp then accessCycle inp s else noAccess s
        let t := { s with sig := { s.sig with begun := true, cache := acc.cache, transfer := acc.transfer } }
        if !acc.ack || s.morphHeld inp then .next ⟨t.withoutResult, true, acc.pins, acc.core⟩
        else
          andThen (performFlagged (s.draws - 1) s.dx t) fun r =>
            .next ⟨{ r.1.withResult s.dx r.2 with sig := { r.1.sig with execDone := some r.2 } }, false,
              acc.pins, acc.core⟩

/-! ### The clock -/

/-- A cycle in which sCLOCK is inhibited: the pipeline registers and program counters hold (R177). The
register file's write is repeated (R179) and a completed fetch is held (R55). -/
def State.held (s : State) (f : Option FetchedWord) : State :=
  { s.landed with sig := { s.sig with fetchHold := f } }

/-- A tick of sCLOCK: every instruction advances one stage (R177). -/
def State.ticked (s : State) (dx : Option DecodeExecute) (f : Option FetchedWord) : State :=
  let t :=
    match dx with
    | some x => ({ s with pc := s.fd.pc } : State).tick x
    | none => { s.advance with dx := DecodeExecute.empty }
  { t with
    fd := match f with
      | some ⟨pc, some w⟩ => fetched s.cfg.enc pc w
      | _ => FetchDecode.empty
    sig :=
      { fetchPc := if f.isSome then s.iaAddr + stepOf s.cfg.insnStep else s.iaAddr
        fetchHold := none
        execDone := none
        begun := false
        transfer := none
        cache := s.sig.cache } }

/-- The signals of a cycle. -/
def signalsOf (inp : Inputs) (s : State) (e : ExecuteCycle) (f : Option FetchedWord) : Signals where
  ia := busAddr s.cfg.variant e.state.iaAddr
  iaAddr := e.state.iaAddr
  ir := e.state.fetchEnabled
  ib := if e.state.fetchEnabled && inp.insack then (f.bind (·.word)).getD inp.ib else inp.ib
  fStall := e.state.fetchStalls inp
  xStall := e.stall
  pStall := e.state.fetchStalls inp || e.stall
  sr1Nc := (f.bind (·.word)).map (sr1Of s.cfg.enc)
  sr2Nc := (f.bind (·.word)).map (sr2Of s.cfg.enc)
  flagsNc := s.decodeFlags
  maddrNc := e.state.decodeShows.map (·.maddr)
  mdataNc := e.state.decodeShows.map (·.mdata)
  forward := e.state.xn
  data := e.pins
  core := e.core
  cacheEn := s.cfg.cacheEn
  morphoEn := s.dx.ready && s.dx.flags.morphOp && s.sig.execDone.isNone && !s.morphBarred inp
  morphoBuses :=
    match s.cfg.variant with
    | .full => some (s.dx.word, s.dx.src1, s.dx.src2)
    | .reduced => none

/-- One clock cycle (R175 to R181): p_stall is f_stall or x_stall (R176); where it is active everything
holds, else everything advances (R177). Where several instructions in flight stop in one cycle, the older
one's stop is reported, execute before decode before fetch, except that in a stalled cycle, in which the
decode stage's work does not end, the fetch's is: R281 orders the stops of one instruction alone, this order
is the model's choice (assumption log 39). -/
def cycle (inp : Inputs) (s : State) : Host.Outcome (State × Signals) Fault Refusal :=
  if inp.cacheEn != s.cfg.cacheEn then .refused .cacheEnChanged
  else
    andThen (executeCycle inp s) fun e =>
      if e.state.fetchStalls inp || e.stall then
        andThen (fetchCycle inp e.state) fun f => .next (e.state.held f, signalsOf inp s e f)
      else
        andThen (decodeCycle e.state) fun dx =>
          andThen (fetchCycle inp e.state) fun f => .next (e.state.ticked dx f, signalsOf inp s e f)

end Sys2Proof.Machine
end

