-- ==== Sys2Proof/Machine/Run.lean ====
section
/-! DEFINITION. Runs: when one is over (R39), the sequential view's run, the signal view's run. -/

namespace Sys2Proof.Machine

/-- pc = END_PC (R39). -/
def State.atEnd (s : State) : Bool := s.cfg.endPc == some s.pc

/-- No instruction is in any pipeline register (R39, R181). -/
def State.drained (s : State) : Bool := !s.fd.ready && !s.dx.ready && !s.xw.ready && !s.wd.drWren

/-- The run is over: pc = END_PC, with no instruction in flight (R39). -/
def State.over (s : State) : Bool := s.atEnd && s.drained

/-- At most k instructions of the sequential view, ending at END_PC: between its steps no instruction is in
flight (R38, R39), what the pipeline registers still hold being results, not work. -/
def runToEnd : Nat → State → Host.Outcome State Fault Refusal
  | 0, s => .next s
  | k + 1, s => if s.atEnd then .next s else andThen (step s) (runToEnd k)

/-- The signal view's run under the inputs of each cycle, ending where the run is over (R39). -/
def runCycles : List Inputs → State → Host.Outcome State Fault Refusal
  | [], s => .next s
  | inp :: rest, s =>
    if s.over then .next s else andThen (cycle inp s) fun t => runCycles rest t.1

/-- The state in which the execute stage has finished the instruction in DX, as it does once nothing
makes it wait: what the sequential view sees of a state of the signal view (R307). -/
def State.settle (s : State) : Host.Outcome State Fault Refusal :=
  if !s.dx.ready then .next s.withoutResult
  else
    match s.sig.execDone with
    | some v => .next (s.withResult s.dx v)
    | none => andThen (performFlagged (s.draws - 1) s.dx s) fun r => .next (r.1.withResult s.dx r.2)

/-- What the two views share: all of the state but FD and the stages' own state, which belong to the
signal view's fetch, and what a pipeline register holds whose ready bit is deasserted, which is never used
(R181); WD's write made, which a stalled cycle makes and the next tick repeats (R179). -/
def State.shared (s : State) : State :=
  { s.landed with
    fd := FetchDecode.empty
    dx := if s.dx.ready then s.dx else DecodeExecute.empty
    xn := if s.dx.ready then s.xn else ⟨0, 0, false⟩
    xw := if s.xw.ready then s.xw else ⟨0, 0, false, false⟩
    wd := if s.wd.drWren then s.wd else ⟨0, 0, false⟩
    wdOld := if s.wd.drWren then s.wdOld else ⟨0, false⟩
    sig := ⟨0, none, none, false, none, []⟩ }

/-- The shared part of an outcome. -/
def sharedOutcome (o : Host.Outcome State Fault Refusal) : Host.Outcome State Fault Refusal :=
  andThen o fun s => .next s.shared

end Sys2Proof.Machine
end

