-- ==== Sys2Proof/Safety.lean ====
section
/-! DEFINITION. The terms the claims are stated in: when operands can be read, what an instruction does to
the registers and the program counters, the invariants of the two views, and fairness (R311). -/

namespace Sys2Proof.Machine

/-! ### Conditions on the state and the operands -/

/-- The nearest instruction that writes r and whose result is on its way, if there is one (R303). -/
def State.producer (s : State) (r : RegId) : Option PendingWrite :=
  s.pendingWrites.find? fun p => p.writes && p.reg == r

/-- Register r is at no distance where the chip's answer is unknown (R303, R304). -/
def State.safeDistance (s : State) (r : RegId) : Prop :=
  ∀ p, s.producer r = some p → p.visible = true

/-- A read of register r does not fault: it is ZERO_REG, or the policy does not make an unsafe distance a
fault, or the distance is safe (R23, R303). -/
def State.readable (s : State) (r : RegId) : Prop :=
  s.cfg.zeroReg = some r ∨ s.cfg.hazard = .draw ∨ s.safeDistance r

/-- Each register the instruction reads can be read. -/
def State.operandsReadable (s : State) (d : Decoded) : Prop :=
  (d.reads1 = true → s.readable d.sr1) ∧ (d.reads2 = true → s.readable d.sr2)

/-- The values the spec lets a read of register r through a port give: its value in the sequential view,
and, at an unsafe distance, a result on its way or what lies behind them (R303). -/
def State.readValues (s : State) (p : Port) (r : RegId) (v : Word) : Prop :=
  if s.cfg.zeroReg = some r then v = 0
  else (s.producer r).elim (v = s.oldValue p r) fun w =>
    if w.visible then v = w.data
    else v = s.oldValue p r ∨ ∃ q ∈ s.pendingWrites, q.writes = true ∧ q.reg = r ∧ v = q.data

/-! ### Effects of an instruction -/

/-- The registers after an instruction whose result is v: x[d.dr] where Decode asserts dr_wreq; every
other register as before; ZERO_REG reads as 0 (R22, R23, R200). -/
def RegistersAfter (s t : State) (d : Decoded) (v : Word) : Prop :=
  ∀ r, t.reg r =
    if s.cfg.zeroReg = some r then 0 else if d.drWreq = true ∧ d.dr = r then v else s.reg r

/-- pc and npc after an instruction that transfers control to `target`, if it does (R26, R244). -/
def PcsAfter (s t : State) (target : Option Word) : Prop :=
  if s.cfg.delaySlot = true then
    t.pc = s.npc ∧ t.npc = target.getD (s.npc + stepOf s.cfg.insnStep)
  else
    t.pc = target.getD (s.pc + stepOf s.cfg.insnStep) ∧ t.npc = t.pc + stepOf s.cfg.insnStep

/-- The pipeline moves by one instruction: the register file takes WD's write, and with it R24's mark, WD what
XW showed, XW the result of the instruction that was in DX (R22, R165 to R172); what WD's register held before
its write is kept (R303, assumption log 38). -/
def PipelineAfter (s t : State) : Prop :=
  (∀ r, t.rfRead r =
    if s.cfg.zeroReg = some r then 0
    else if s.wd.drWren = true ∧ s.wd.dr = r then s.wd.data else s.rfRead r) ∧
  (∀ r : RegId, t.written.getLsbD r.toNat =
    (s.written.getLsbD r.toNat || (s.wd.drWren && s.wd.dr == r))) ∧
  t.wdOld = t.contents s.xw.dr ∧
  t.wd = ⟨s.xw.data, s.xw.dr, s.xw.ready && s.xw.drWreq⟩ ∧
  t.xw = ⟨s.xn.data, s.xn.dr, s.dx.ready && s.xn.drWreq, s.dx.ready⟩

/-- What no instruction changes: the run's parameters (R4), the instruction memory (R84), FD and the
stages' own state of the signal view. -/
def Unchanged (s t : State) : Prop :=
  t.cfg = s.cfg ∧ t.imem = s.imem ∧ t.fd = s.fd ∧ t.sig = s.sig

/-- Every data cell reads as before (R75). -/
def CellsUnchanged (s t : State) : Prop := ∀ a, t.cellAt a = s.cellAt a

/-- No MorphoSys event is added. -/
def EventsUnchanged (s t : State) : Prop := t.events = s.events ∧ t.dmaIssued = s.dmaIssued

/-- The operand o of a source field: a value the spec lets the read give where the instruction reads
register r, absent where it does not (R106). -/
def State.operandIs (s : State) (p : Port) (reads : Bool) (r : RegId) (o : Option Word) : Prop :=
  if reads = true then ∃ v, o = some v ∧ s.readValues p r v else o = none

/-- Both operands. -/
def State.operandsAre (s : State) (d : Decoded) (r1 r2 : Option Word) : Prop :=
  s.operandIs .one d.reads1 d.sr1 r1 ∧ s.operandIs .two d.reads2 d.sr2 r2

/-- The next state t of an instruction of class c with the operands r1 and r2, whose result is v and
which transfers control to `target`, if it does: registers, program counters, pipeline registers and what
stays; not the data memory and the events, which its statement adds. Its parts rest on the model's choices:
the operands on assumption logs 5 and 6, the cycle of the register write on log 23, the program counters on
log 15, the draws on log 13. -/
def Done (s t : State) (c : InsnClass) (d : Decoded) (r1 r2 target : Option Word) (v : Word) : Prop :=
  RegistersAfter s t d v ∧ PcsAfter s t target ∧ PipelineAfter s t ∧ Unchanged s t ∧
  t.dx = { s.decodedAs c d (r1, r2) with target := target } ∧
  t.xn = ⟨v, d.dr, d.drWreq⟩ ∧
  t.draws = s.draws + 1

/-- No data access is declined: cells are independent, and no DMA transfer can touch data memory. -/
def State.accessesAllowed (s : State) : Prop :=
  s.cfg.dataCellsIndependent = true ∧ (s.dmaIssued = false ∨ s.cfg.dmaShared = [])

/-! ### Invariants -/

/-- Both memories are in canonical form and inside the address buses, and a data cell holds what crosses
the data bus: in rTinyRISC, 10 bits of address and 16 of data (R32, R33, R50, R60, R61). -/
def State.MemoriesFit (s : State) : Prop :=
  s.imem.wf ∧ s.dmem.wf ∧
  (∀ c ∈ s.imem, c.1 < 2 ^ addrBits s.cfg.variant) ∧
  (∀ c ∈ s.dmem, c.1 < 2 ^ addrBits s.cfg.variant ∧ dataBus s.cfg.variant c.2 = c.2)

/-- npc is the target of the taken control transfer in DX where pc is its delay slot, and pc + INSN_STEP
otherwise (R244). -/
def State.PcsAgree (s : State) : Prop :=
  s.npc =
    if s.inDelaySlot then s.dx.target.getD (s.pc + stepOf s.cfg.insnStep)
    else s.pc + stepOf s.cfg.insnStep

/-- A register no instruction's write has reached holds its reset value 0, and so does what WD's register
held before (assumption logs 5 and 38). -/
def State.UnwrittenZero (s : State) : Prop :=
  (∀ r : RegId, s.written.getLsbD r.toNat = false → s.rfRead r = 0) ∧
  (s.wdOld.written = false → s.wdOld.word = 0)

/-- The signal view's fetch is in step with pc and npc: FD shows the instruction placed at pc, the fetch stage's
registers and the registered d_chg_pc give the address after it, and a held instruction is the one placed at the
address it was fetched from (R140, R180, R244). Nothing is held while the instruction in execute has not begun: its
first cycle, or a MorphoSys operation that waits for a fetch (R55, R265). -/
def State.FetchInStep (s : State) : Prop :=
  (s.fd.ready = true →
    s.fd.pc = s.pc ∧ memLookup s.imem (busAddr s.cfg.variant s.pc) = some s.fd.word) ∧
  s.fetchAddr = (if s.fd.ready then s.npc else s.pc) ∧
  (s.cfg.delaySlot = false → s.npc = s.pc + stepOf s.cfg.insnStep) ∧
  (s.fd.ready = false → s.cfg.endPc ≠ some s.fetchAddr → s.npc = s.pc + stepOf s.cfg.insnStep) ∧
  (∀ a w, s.sig.fetchHold = some ⟨a, some w⟩ → memLookup s.imem (busAddr s.cfg.variant a) = some w) ∧
  (s.dx.ready = true → s.sig.execDone = none → s.sig.begun = false → s.sig.fetchHold = none)

/-- The data cache core holds at most one entry for each line: one tag, one valid and one dirty mark (R35,
assumption log 36). -/
def State.CacheLinesDiffer (s : State) : Prop := s.sig.cache.Pairwise fun a b => a.line ≠ b.line

/-- The instruction in the execute stage has no result in this cycle: it waits, or it is a MorphoSys operation
that does not begin under an f_stall (R149, R159, R265). -/
def NoResult (s : State) (sig : Signals) : Prop :=
  s.dx.ready = true ∧ s.sig.execDone = none ∧
    (sig.xStall = true ∨
      (s.dx.flags.memOp = false ∧ s.dx.flags.morphOp = true ∧ sig.morphoEn = false))

/-- DELAY_SLOTS = 0: the control transfer in decode reads the register that the instruction in the execute stage
writes, which has no result in this cycle (assumption log 26). -/
def BranchWaits (s : State) (sig : Signals) : Prop :=
  s.cfg.delaySlot = false ∧ NoResult s sig ∧ s.dx.drWreq = true ∧ s.transferReads s.dx.dr = true

/-! ### Fairness -/

/-- An endless run of the signal view: its states and signals under the inputs of each cycle. -/
def EndlessRun (inputs : Nat → Inputs) (x : Nat → State) (sig : Nat → Signals) : Prop :=
  ∀ n, cycle (inputs n) (x n) = .next (x (n + 1), sig n)

/-- A load or store in the execute stage waits for memory: its access is not finished and does not hit in
an enabled cache (R65, R72). -/
def State.awaitsMemory (s : State) : Bool :=
  s.dx.ready && s.dx.flags.memOp && s.sig.execDone.isNone &&
    !(s.cfg.cacheEn && cacheHit s.sig.cache s.dx.maddr)

/-- What a waiting load or store waits for happens in this cycle: the acknowledge, or the end of its line's
load (R65, R72). -/
def State.memoryAnswers (inp : Inputs) (s : State) : Bool :=
  if s.cfg.cacheEn then s.lineLoaded inp else inp.dack

/-- The environment is fair to an endless run (R311): wherever (a) a fetch, (b) a data access or (c) a
MorphoSys operation waits, some later cycle brings what it waits for. Where nothing waits it owes nothing
(R65). -/
def Fair (inputs : Nat → Inputs) (x : Nat → State) (sig : Nat → Signals) : Prop :=
  ∀ n, ((sig n).ir = true → ∃ m ≥ n, (inputs m).insack = true) ∧
    ((x n).awaitsMemory = true → ∃ m ≥ n, (x m).memoryAnswers (inputs m) = true) ∧
    ((x n).dx.ready = true → (x n).dx.flags.memOp = false → (x n).dx.flags.morphOp = true →
      ∃ m ≥ n, (inputs m).morphoStall = false)

end Sys2Proof.Machine
end

