-- ==== Sys2Proof/Certificates/Slice0/Obligations.lean ====
section
/-! DEFINITION. The statements for the provers. Each says what the spec's rules say the machine does; a
clause that rests on a choice of the model names its entry of the assumption log. -/

open Sys2Proof Sys2Proof.Machine

/-! ### Launch -/

/-- R37, R38: a run starts at RESET_PC with npc after it, nothing in flight, no register written and the
memories as launched. That a register nothing has written reads as 0, or as a free value where the policy
has it hold none, is the model's choice (assumption log 5). The start values are decision D26. -/
def Obligations.LaunchStartsEmpty : Prop :=
  ∀ (cfg : RunConfig) (resetPc : Word) (imem dmem : Memory),
    let s := State.launch cfg resetPc imem dmem
    s.cfg = cfg ∧ s.pc = resetPc ∧ s.npc = resetPc + stepOf cfg.insnStep ∧ s.imem = imem ∧
      s.dmem = dmem ∧ s.drained = true ∧ s.dx.drWreq = false ∧ s.dx.target = none ∧
      s.xw.drWreq = false ∧ s.written = 0 ∧ s.sig.cache = [] ∧ s.events = [] ∧
      ∀ p r, s.readReg p r = .next (if cfg.zeroReg ≠ some r ∧ cfg.unwritten = .draw then
        Config.freeRegister 0 p r else 0)

/-- A launch whose memories fit meets every invariant below, State.reset's among them. The register value
0 and RESET_PC 0 are the model's choice (assumption logs 5, 8). -/
def Obligations.LaunchMeetsInvariants : Prop :=
  (∀ (cfg : RunConfig) (resetPc : Word) (imem dmem : Memory),
    let s := State.launch cfg resetPc imem dmem
    s.PcsAgree ∧ s.UnwrittenZero ∧ s.FetchInStep ∧ s.CacheLinesDiffer ∧
      (imem.wf → dmem.wf → (∀ c ∈ imem, c.1 < 2 ^ addrBits cfg.variant) →
        (∀ c ∈ dmem, c.1 < 2 ^ addrBits cfg.variant ∧ dataBus cfg.variant c.2 = c.2) →
        s.MemoriesFit)) ∧
  State.reset.MemoriesFit ∧ State.reset.PcsAgree ∧ State.reset.UnwrittenZero ∧
    State.reset.FetchInStep ∧ State.reset.CacheLinesDiffer

/-! ### Encoding -/

/-- R101, R103, R111: the word put together from a well-formed instruction's fields is its own word, and
decodes to it, under every encoding. A decode table is the model's form of Decode (assumption log 2). -/
def Obligations.DecodeOfEncode : Prop :=
  ∀ (E : Encoding) (i : Instr), i.wf E = true →
    encode E i = i.fields.word ∧ decode E (encode E i) = .ok i

/-- R103, R111, R108, R242: what decode answers is well formed, carries the word, and comes of the one row that
matches it; its dr is the register of the dr field, but for a JAL whose row fixes the link register; where no
row or more than one matches, decode answers nothing. Decisions D20 and D33, assumption logs 2, 16 and 31. -/
def Obligations.DecodeAnswersWellFormed : Prop :=
  ∀ (E : Encoding) (w : Word),
    (∀ i, decode E w = .ok i → i.wf E = true ∧ i.fields.word = w ∧
      ∃ r ∈ E.rows, w &&& r.mask = r.value ∧ r.cls = i.cls ∧
        i.fields.dr = (if r.cls = .jal then r.linkReg.getD (drOf E w) else drOf E w) ∧
        ∀ q ∈ E.rows, w &&& q.mask = q.value → q = r) ∧
    ((∃ i, decode E w = .ok i) ↔ (E.rows.filter fun r => w &&& r.mask == r.value).length = 1)

/-- The words of T0's table (95_test_vectors.md sections 2 to 5) decode to what they stand for. T0 is no
claim about the chip (D31). -/
def Obligations.TestWordsDecode : Prop :=
  decode t0Encoding 0x02EC6000 =
    .ok (.alu ⟨0x02EC6000, 0x01, 6, 3, 7, 0x6000, true, true, true⟩) ∧
  decode t0Encoding 0x0A20DEAD =
    .ok (.ldui ⟨0x0A20DEAD, 0x05, 0, 6, 1, 0xDEAD, true, false, false⟩) ∧
  decode t0Encoding 0x0E068000 =
    .ok (.store ⟨0x0E068000, 0x07, 3, 4, 0, 0x8000, false, true, true⟩) ∧
  decode t0Encoding 0x11E00010 =
    .ok (.jal ⟨0x11E00010, 0x08, 0, 0, 15, 0x10, true, false, false⟩) ∧
  decode t0Encoding 0x1A820000 =
    .ok (.rcrisc ⟨0x1A820000, 0x0D, 1, 0, 4, 0, true, true, false⟩) ∧
  decode t0Encoding 0 = .error .unknown

/-- R107, R108: the class flags of each class, and their relations. -/
def Obligations.ClassFlagsFollowTable : Prop :=
  ∀ c : InsnClass,
    ((classFlags c).aluOp = true ↔ c = .alu) ∧ ((classFlags c).shftOp = true ↔ c = .shift) ∧
    ((classFlags c).cmpOp = true ↔ c = .cmp) ∧ ((classFlags c).ldliOp = true ↔ c = .ldli) ∧
    ((classFlags c).lduiOp = true ↔ c = .ldui) ∧
    ((classFlags c).memOp = true ↔ c = .load ∨ c = .store) ∧
    ((classFlags c).memwOp = true ↔ c = .store) ∧ ((classFlags c).jalOp = true ↔ c = .jal) ∧
    ((classFlags c).morphOp = true ↔ c = .morph ∨ c = .morphDma ∨ c = .rcrisc) ∧
    ((classFlags c).morphDmaOp = true ↔ c = .morphDma) ∧
    ((classFlags c).rcriscOp = true ↔ c = .rcrisc)

/-! ### A step -/

/-- A step runs the decoded instruction: the word placed at pc, decoded, is executed with FD showing it;
nothing else is done (R57, R111, R131 to R133). -/
def Obligations.StepRunsDecoded : Prop :=
  ∀ (s : State) (w : Word) (i : Instr),
    s.fetchWord s.pc = .next w → decode s.cfg.enc w = .ok i →
      step s = exec i { s with fd := fetched s.cfg.enc s.pc w }

/-- R57, R84, R109: where one storage holds both memories, a fetch of an address the program has stored to is
refused (U17; that this comes before NoInstruction, and what is remembered, is assumption log 10). Otherwise,
where no instruction is placed at pc the step faults; a word Decode does not know is refused, and so is one of
two classes (D20); none of them is executed as something else. -/
def Obligations.StepStopsByName : Prop :=
  ∀ s : State,
    let a := busAddr s.cfg.variant s.pc
    let stored := s.cfg.spacesShared = true ∧ ∃ x ∈ s.accesses, x.write = true ∧ x.addr = a
    (stored → step s = .refused (.selfModifyingCode s.pc)) ∧
    (¬stored → memLookup s.imem a = none → step s = .fault (.noInstruction s.pc)) ∧
    (¬stored → ∀ w, memLookup s.imem a = some w →
      ((∀ r ∈ s.cfg.enc.rows, w &&& r.mask ≠ r.value) → step s = .refused (.unknownInstruction w)) ∧
      (1 < (s.cfg.enc.rows.filter fun r => w &&& r.mask == r.value).length →
        step s = .refused (.ambiguousInstruction w)))

/-- R57: a fetch sees only the address bits on IA: in rTinyRISC, addresses that agree in bits 9:0 fetch
the same instruction. Decision D9. -/
def Obligations.FetchSeesBusAddress : Prop :=
  ∀ (s : State) (a b w : Word), busAddr s.cfg.variant a = busAddr s.cfg.variant b →
    (s.fetchWord a = .next w ↔ s.fetchWord b = .next w) ∧
    (s.cfg.variant = .reduced → busAddr s.cfg.variant a = (a.setWidth 10).toNat) ∧
    (s.cfg.variant = .full → busAddr s.cfg.variant a = a.toNat)

/-! ### Reading registers -/

/-- R158, R303, R304: what a read of a register through either port gives, by the distance of the instruction
that writes it. Directly behind its write it is forwarded; two or three behind, RF_HAZARD_FREE decides, as
LOAD_FORWARDED does directly behind a load; with no result on its way it is what the register holds. At an
unsafe distance the fault, or a value among those the chip may give: a result on its way, or the old value,
which for distance 3 is what the register held before the write WD is making, stalled or not (assumption
logs 6 and 38). A register that holds no value by the policy reads as a free value (R24, assumption log 5).
R158 and R303 mark their reading as their own (D24). -/
def Obligations.ReadByDistance : Prop :=
  ∀ (s : State) (p : Port) (r : RegId), s.cfg.zeroReg ≠ some r →
    let w1 := s.dx.ready = true ∧ s.xn.drWreq = true ∧ s.xn.dr = r
    let w2 := s.xw.ready = true ∧ s.xw.drWreq = true ∧ s.xw.dr = r
    let w3 := s.wd.drWren = true ∧ s.wd.dr = r
    let held : Contents := if s.wd.drWren = true ∧ s.wd.dr = r then s.wdOld else
      ⟨s.rfRead r, s.written.getLsbD r.toNat⟩
    let old := if s.cfg.unwritten = .draw ∧ held.written = false then Config.freeRegister s.draws p r else
      held.word
    (w1 → (s.cfg.loadForwarded = true ∨ isLoad s.dx.flags = false) → s.readReg p r = .next s.xn.data) ∧
    (w1 → s.cfg.loadForwarded = false → isLoad s.dx.flags = true → s.cfg.hazard = .fault →
      s.readReg p r = .fault (.hazardFault r 1)) ∧
    (¬w1 → w2 → s.cfg.rfHazardFree = true → s.readReg p r = .next s.xw.data) ∧
    (¬w1 → w2 → s.cfg.rfHazardFree = false → s.cfg.hazard = .fault →
      s.readReg p r = .fault (.hazardFault r 2)) ∧
    (¬w1 → ¬w2 → w3 → s.cfg.rfHazardFree = true → s.readReg p r = .next s.wd.data) ∧
    (¬w1 → ¬w2 → w3 → s.cfg.rfHazardFree = false → s.cfg.hazard = .fault →
      s.readReg p r = .fault (.hazardFault r 3)) ∧
    (¬w1 → ¬w2 → ¬w3 → s.readReg p r = .next old) ∧
    (s.cfg.hazard = .draw → ∃ v, s.readReg p r = .next v ∧
      (v = old ∨ (w1 ∧ v = s.xn.data) ∨ (w2 ∧ v = s.xw.data) ∨ (w3 ∧ v = s.wd.data)))

/-- R303: at a safe distance a read gives the value of the sequential view, where the register holds one: by
the policy every register does (assumption log 5), or an instruction has written it or is about to. Decision
D24. -/
def Obligations.SafeReadIsSequential : Prop :=
  ∀ (s : State) (p : Port) (r : RegId), s.safeDistance r →
    (s.cfg.unwritten = .resetValue ∨ s.written.getLsbD r.toNat = true ∨ ∃ w, s.producer r = some w) →
      s.readReg p r = .next (s.reg r)

/-- R23: the register ZERO_REG names reads as 0, whatever was written to it. Decision D5. -/
def Obligations.ZeroRegisterReadsZero : Prop :=
  ∀ (s : State) (p : Port) (r : RegId), s.cfg.zeroReg = some r →
    s.readReg p r = .next 0 ∧ s.reg r = 0 ∧ s.rfRead r = 0

/-- The model's choice (assumption log 5), where R24 has a model fault: a read of a register nothing has
written goes on. Under one policy it gives the register's value at reset, 0; under the other a free value,
another for each instruction and each port. -/
def Obligations.UnwrittenReadGoesOn : Prop :=
  ∀ (s : State) (p : Port) (r : RegId), s.cfg.zeroReg ≠ some r → s.producer r = none →
    s.written.getLsbD r.toNat = false →
    (s.cfg.unwritten = .draw → s.readReg p r = .next (Config.freeRegister s.draws p r)) ∧
    (s.cfg.unwritten = .resetValue → s.readReg p r = .next (s.rfRead r)) ∧
    (s.cfg.unwritten = .resetValue → s.UnwrittenZero → s.readReg p r = .next 0)

/-- R303, R281: under the policy that takes R303's fault, an instruction that reads a register at an
unsafe distance faults, whatever its class. Decision D24, assumption log 6. -/
def Obligations.UnsafeReadFaults : Prop :=
  ∀ (s : State) (i : Instr) (w : PendingWrite), s.cfg.hazard = .fault → w.visible = false →
    (∀ r, i.fields.reads1 = true → i.fields.sr1 = r → s.cfg.zeroReg ≠ some r → s.producer r = some w →
      exec i s = .fault (.hazardFault r w.distance)) ∧
    (∀ r, (i.fields.reads1 = true → s.readable i.fields.sr1) → i.fields.reads2 = true →
      i.fields.sr2 = r → s.cfg.zeroReg ≠ some r → s.producer r = some w →
      exec i s = .fault (.hazardFault r w.distance))

/-! ### The instructions: each completes, and what it does -/

/-- R200 to R204: ALU, SHIFT, CMP, LDLI and LDUI complete wherever their operands can be read. The result
is the class's function of the word and the two operands; it goes to x[dr] where dr_wreq is asserted; pc
advances; data memory and events stay. The common block of the five rules is decision D22, marked as the
spec's own inference. What `Done` adds are the model's choices: the cycle of the register file's write and
what DX, XW and WD hold (assumption log 23), pc and npc by the delay-slot rule (D7, D8, log 15), the count
of draws (log 13), the values a read may give (logs 5 and 6). -/
def Obligations.ComputeClassesComplete : Prop :=
  ∀ (s : State) (d : Decoded), s.operandsReadable d →
    ∃ r1 r2, s.operandsAre d r1 r2 ∧
      let a := (operandsFn s.cfg.fns d.word r1 r2 s.pc).1
      let b := (operandsFn s.cfg.fns d.word r1 r2 s.pc).2
      let result := fun (i : Instr) (c : InsnClass) (v : Word) =>
        ∃ t, exec i s = .next t ∧ Done s t c d r1 r2 none v ∧ CellsUnchanged s t ∧ EventsUnchanged s t
      result (.alu d) .alu (aluFn s.cfg.fns d.word a b) ∧
      result (.shift d) .shift (shiftFn s.cfg.fns d.word a b) ∧
      result (.cmp d) .cmp (cmpFn s.cfg.fns d.word a b) ∧
      result (.ldli d) .ldli (ldliFn s.cfg.fns d.word a b) ∧
      result (.ldui d) .ldui (lduiFn s.cfg.fns d.word a b)

/-- R224: LOAD completes wherever its operands can be read and no access is declined; x[dr] takes
LoadValue of the address MAddr forms; no cell changes. LoadValue is decisions D9, D10 and D16; the loaded
value's path to x_data is R224's own inference; what is declined is assumption logs 18 and 19; the late
register-file write and the pipeline registers are log 23, pc and npc log 15, the draws log 13, the reads
logs 5 and 6. -/
def Obligations.LoadCompletes : Prop :=
  ∀ (s : State) (d : Decoded), s.operandsReadable d → s.accessesAllowed →
    ∃ r1 r2 t, s.operandsAre d r1 r2 ∧ exec (.load d) s = .next t ∧
      Done s t .load d r1 r2 none (s.loadValue (mAddrFn s.cfg.fns d.word r1 r2 s.pc)) ∧
      CellsUnchanged s t ∧ EventsUnchanged s t

/-- R225: STORE completes wherever its operands can be read and no access is declined; the cell at the
address MAddr forms takes StoreValue of MData, every other cell stays. A Decode that asserts dr_wreq
writes a draw, of which nothing is said. The lane in rTinyRISC is decision D13; the draw is assumption log
13; the late register-file write and the pipeline registers are log 23, pc and npc (R244) log 15, the reads
logs 5 and 6, what is declined logs 18 and 19. -/
def Obligations.StoreCompletes : Prop :=
  ∀ (s : State) (d : Decoded), s.operandsReadable d → s.accessesAllowed →
    ∃ r1 r2 t, s.operandsAre d r1 r2 ∧ exec (.store d) s = .next t ∧
      Done s t .store d r1 r2 none (Config.freeWord s.draws) ∧ EventsUnchanged s t ∧
      ∀ a, t.cellAt a =
        if a = busAddr s.cfg.variant (mAddrFn s.cfg.fns d.word r1 r2 s.pc) then
          dataBus s.cfg.variant (mDataFn s.cfg.fns d.word r1 r2 s.pc)
        else s.cellAt a

/-- R241, R244, INSN_STEP = 1: CT completes outside the delay slot of a taken control transfer. Control
goes where BranchUnit says, after the delay slot. A Decode that asserts dr_wreq writes a draw. The delay
slot is decision D8, the draw assumption log 13; the late register-file write and the pipeline registers are
log 23, pc and npc log 15, the reads logs 5 and 6. -/
def Obligations.ControlTransferCompletes : Prop :=
  ∀ (s : State) (d : Decoded), s.operandsReadable d → s.inDelaySlot = false →
    s.cfg.insnStep = .one →
    ∃ r1 r2 t, s.operandsAre d r1 r2 ∧ exec (.ct d) s = .next t ∧
      let b := branchUnitFn s.cfg.fns d.word r1 r2 s.pc
      Done s t .ct d r1 r2 (if b.1 then some b.2 else none) (Config.freeWord s.draws) ∧
      CellsUnchanged s t ∧ EventsUnchanged s t

/-- R242, R243, INSN_STEP = 1: JAL completes outside the delay slot of a taken control transfer; x[dr]
takes its own address plus 2 where dr_wreq is asserted; control goes where BranchUnit says. The delay slot
is decision D8, dr as the link register decision D33; the late register-file write and the pipeline registers
are assumption log 23, the count of draws log 13, pc and npc log 15, the reads logs 5 and 6. -/
def Obligations.JumpAndLinkCompletes : Prop :=
  ∀ (s : State) (d : Decoded), s.operandsReadable d → s.inDelaySlot = false →
    s.cfg.insnStep = .one →
    ∃ r1 r2 t, s.operandsAre d r1 r2 ∧ exec (.jal d) s = .next t ∧
      let b := branchUnitFn s.cfg.fns d.word r1 r2 s.pc
      Done s t .jal d r1 r2 (if b.1 then some b.2 else none) (s.pc + 2) ∧
      CellsUnchanged s t ∧ EventsUnchanged s t

/-- R243: the decode stage gives a JAL's own address plus 2 as d_jal_addr. That the sum wraps modulo 2^32,
and that the execute stage's result is d_jal_addr while d_jal_op is asserted, is R243's own inference. -/
def Obligations.ReturnAddress : Prop :=
  ∀ (s t : State) (d : Decoded), exec (.jal d) s = .next t →
    t.dx.flags.jalOp = true ∧ t.dx.jalAddr = s.pc + 2 ∧ t.xn.data = t.dx.jalAddr

/-- R246, INSN_STEP = 2: a taken transfer to an odd target faults; to an even one, or not taken, CT and
JAL complete as under INSN_STEP = 1 (R241, R242). The fault is the spec's own (assumption log 14); the delay
slot is decision D8, dr as the link register D33, CT's draw log 13, the late register-file write and the
pipeline registers log 23, pc and npc log 15, the reads logs 5 and 6. -/
def Obligations.OddTargetFaults : Prop :=
  ∀ (s : State) (d : Decoded), s.operandsReadable d → s.inDelaySlot = false →
    s.cfg.insnStep = .two →
    ∃ r1 r2, s.operandsAre d r1 r2 ∧
      let b := branchUnitFn s.cfg.fns d.word r1 r2 s.pc
      if b.1 = true ∧ b.2.toNat % 2 = 1 then
        exec (.ct d) s = .fault (.misalignedTarget b.2) ∧ exec (.jal d) s = .fault (.misalignedTarget b.2)
      else
        (∃ t, exec (.ct d) s = .next t ∧
          Done s t .ct d r1 r2 (if b.1 then some b.2 else none) (Config.freeWord s.draws) ∧
          CellsUnchanged s t ∧ EventsUnchanged s t) ∧
        ∃ t, exec (.jal d) s = .next t ∧
          Done s t .jal d r1 r2 (if b.1 then some b.2 else none) (s.pc + 2) ∧
          CellsUnchanged s t ∧ EventsUnchanged s t

/-- R245: a CT or JAL in the delay slot of a taken control transfer faults, and nowhere else. Decision
D23, assumption log 14. -/
def Obligations.TransferInDelaySlotFaults : Prop :=
  ∀ (s : State) (d : Decoded),
    (s.operandsReadable d → s.inDelaySlot = true →
      exec (.ct d) s = .fault (.controlTransferInDelaySlot s.pc) ∧
      exec (.jal d) s = .fault (.controlTransferInDelaySlot s.pc)) ∧
    (s.inDelaySlot = false → ∀ pc, exec (.ct d) s ≠ .fault (.controlTransferInDelaySlot pc) ∧
      exec (.jal d) s ≠ .fault (.controlTransferInDelaySlot pc)) ∧
    (s.inDelaySlot = true ↔ s.cfg.delaySlot = true ∧ s.dx.ready = true ∧ ∃ t, s.dx.target = some t)

/-- R267 to R269: MORPH, MORPH_DMA and RCRISC complete wherever their operands can be read: one event with
the word and the two operands is added; data memory stays. A Decode that asserts dr_wreq writes a draw, of
which nothing is said. The wait of R268 is in the signal view. Decision D29, assumption logs 13 and 17; the
late register-file write and the pipeline registers are log 23, pc and npc (R244) log 15, the reads logs 5
and 6. -/
def Obligations.MorphosysClassesComplete : Prop :=
  ∀ (s : State) (d : Decoded), s.operandsReadable d →
    ∃ r1 r2, s.operandsAre d r1 r2 ∧
      let a := (operandsFn s.cfg.fns d.word r1 r2 s.pc).1
      let b := (operandsFn s.cfg.fns d.word r1 r2 s.pc).2
      let done := fun (i : Instr) (c : InsnClass) (dma : Bool) =>
        ∃ t, exec i s = .next t ∧ Done s t c d r1 r2 none (Config.freeWord s.draws) ∧
          CellsUnchanged s t ∧ t.events = s.events ++ [⟨d.word, a, b⟩] ∧
          t.dmaIssued = (s.dmaIssued || dma)
      done (.morph d) .morph false ∧ done (.morphDma d) .morphDma true ∧ done (.rcrisc d) .rcrisc false

/-! ### Frames and whole-machine rules -/

/-- The frame of every instruction that stores nothing: every cell of data memory reads as before, every
register but dr, which is written only where dr_wreq is asserted, every parameter, the instruction memory,
and the signal view's own state. -/
def Obligations.NonStoreFrame : Prop :=
  ∀ (s t : State) (i : Instr), i.cls ≠ .store → exec i s = .next t →
    CellsUnchanged s t ∧ Unchanged s t ∧
    (∀ r, (i.fields.drWreq = true → i.fields.dr ≠ r) → t.reg r = s.reg r) ∧
    ((∀ c ∈ [InsnClass.morph, .morphDma, .rcrisc], i.cls ≠ c) → EventsUnchanged s t)

/-- The frame of STORE: the one cell at the address its meaning forms, which DX keeps, is written; every
other cell reads as before, and registers, parameters, instruction memory and events as R225 leaves them.
-/
def Obligations.StoreFrame : Prop :=
  ∀ (s t : State) (d : Decoded), exec (.store d) s = .next t →
    ∃ r1 r2, s.readSources d = .next (r1, r2) ∧
      (∀ a, a ≠ busAddr s.cfg.variant (mAddrFn s.cfg.fns d.word r1 r2 s.pc) → t.cellAt a = s.cellAt a) ∧
      Unchanged s t ∧ EventsUnchanged s t ∧
      ∀ r, (d.drWreq = true → d.dr ≠ r) → t.reg r = s.reg r

/-- R22: the register file takes the write WD shows, in every cycle in which w_dr_wren is asserted, and no
other; and at most one register is written per instruction. ZERO_REG's reads give 0 (R23, D5). That
nothing else writes it is R22's own inference. -/
def Obligations.RegisterFileWrites : Prop :=
  (∀ (inp : Inputs) (s t : State) (sig : Signals), cycle inp s = .next (t, sig) → ∀ r, t.rfRead r =
    if s.cfg.zeroReg = some r then 0
    else if s.wd.drWren = true ∧ s.wd.dr = r then s.wd.data else s.rfRead r) ∧
  ∀ (s t : State), step s = .next t → ∃ r, ∀ q, q ≠ r → t.reg q = s.reg q

/-- R22, R165 to R172: every step moves the pipeline registers on, and the register file takes exactly the
write WD shows. The cycle of the write is assumption log 23. -/
def Obligations.StepMovesPipeline : Prop :=
  ∀ (s t : State), step s = .next t → PipelineAfter s t

/-- R244: after every step pc and npc are as the delay-slot rule says, the transfer being the one DX
shows; only CT and JAL transfer control (R27, R283). The delay slot is decision D8. -/
def Obligations.StepAdvancesPc : Prop :=
  ∀ (s t : State), step s = .next t →
    PcsAfter s t t.dx.target ∧
    ∀ w i, s.fetchWord s.pc = .next w → decode s.cfg.enc w = .ok i →
      i.cls ≠ .ct → i.cls ≠ .jal → t.dx.target = none

/-- R84: no step and no cycle changes the instruction memory, so no store changes what a later fetch returns.
Decision D15, assumption log 10. -/
def Obligations.InstructionMemoryFixed : Prop :=
  (∀ (s t : State), step s = .next t →
    t.imem = s.imem ∧ (s.cfg.spacesShared = false → ∀ a, t.fetchWord a = s.fetchWord a)) ∧
  ∀ (inp : Inputs) (s t : State) (sig : Signals), cycle inp s = .next (t, sig) →
    t.imem = s.imem ∧ (s.cfg.spacesShared = false → ∀ a, t.fetchWord a = s.fetchWord a)

/-- R4, R29, R85: the parameters of a run never change, and a cycle in which cache_en is not the run's
CACHE_EN is refused. Decision D18, assumption logs 1 and 30. -/
def Obligations.ParametersConstant : Prop :=
  (∀ (s t : State), step s = .next t → t.cfg = s.cfg) ∧
  (∀ (inp : Inputs) (s t : State) (sig : Signals), cycle inp s = .next (t, sig) → t.cfg = s.cfg) ∧
  ∀ (inp : Inputs) (s : State), inp.cacheEn ≠ s.cfg.cacheEn → cycle inp s = .refused .cacheEnChanged

/-- R72, D16: the internal data cache is transparent: CACHE_EN and the cache core's marks change nothing a
step does. -/
def Obligations.CacheTransparent : Prop :=
  ∀ (s : State) (b : Bool) (c : List CacheLine),
    let o := fun (u : State) => ({ u with cfg := { u.cfg with cacheEn := b }, sig := { u.sig with cache := c } } : State)
    step (o s) = andThen (step s) fun t => .next (o t)

/-- R86: LoadValue and StoreValue, in both variants: what is stored is loaded back, less the upper half in
rTinyRISC; a store changes one cell; addresses that agree on the bus name the same cell. Decisions D9,
D10, D13. -/
def Obligations.MemoryPrimitives : Prop :=
  ∀ (s : State) (a b d : Word),
    (s.cfg.variant = .full → s.loadValue a = s.cellAt a.toNat ∧ (s.writeData a d).loadValue a = d) ∧
    (s.cfg.variant = .reduced →
      s.loadValue a = ((s.cellAt (a.toNat % 1024)).setWidth 16).setWidth 32 ∧
      (s.writeData a d).loadValue a = (d.setWidth 16).setWidth 32) ∧
    (busAddr s.cfg.variant a = busAddr s.cfg.variant b → s.loadValue a = s.loadValue b) ∧
    (busAddr s.cfg.variant a ≠ busAddr s.cfg.variant b → (s.writeData a d).loadValue b = s.loadValue b)

/-- R75 (DATA_CELLS_INDEPENDENT = false) and R306: a LOAD or STORE of an address a DMA transfer may touch
is declined; so is one next to another cell the run has accessed, the DMA refusal first (log 18); every other
completes, and is remembered
where a later one may be declined for it. Decisions D10 and D14, assumption logs 18 and 19, and log 10 for
what is remembered. The lane of a store in rTinyRISC is decision D13 (log 12), the draw log 13, the late
register-file write and the pipeline registers log 23, pc and npc log 15, the reads logs 5 and 6. -/
def Obligations.AccessesDeclined : Prop :=
  ∀ (s : State) (d : Decoded), s.operandsReadable d →
    ∃ r1 r2, s.operandsAre d r1 r2 ∧
      let addr := mAddrFn s.cfg.fns d.word r1 r2 s.pc
      let a := busAddr s.cfg.variant addr
      let shared := s.dmaIssued = true ∧ ∃ g ∈ s.cfg.dmaShared, g.1 ≤ a ∧ a ≤ g.2
      let overlaps := s.cfg.dataCellsIndependent = false ∧
        ∃ x ∈ s.accesses, cellsOverlap s.cfg.variant a x.addr = true
      let remembered := fun write : Bool =>
        if s.cfg.dataCellsIndependent = false ∨ s.cfg.spacesShared = true then
          ⟨a, write⟩ :: s.accesses
        else s.accesses
      (shared → exec (.load d) s = .refused (.dmaSharedMemory a) ∧
        exec (.store d) s = .refused (.dmaSharedMemory a)) ∧
      (¬shared → overlaps → ∃ x ∈ s.accesses, cellsOverlap s.cfg.variant a x.addr = true ∧
        exec (.load d) s = .refused (.overlappingCells a x.addr) ∧
        exec (.store d) s = .refused (.overlappingCells a x.addr)) ∧
      (¬shared → ¬overlaps →
        (∃ t, exec (.load d) s = .next t ∧ Done s t .load d r1 r2 none (s.loadValue addr) ∧
          CellsUnchanged s t ∧ t.accesses = remembered false) ∧
        ∃ t, exec (.store d) s = .next t ∧ Done s t .store d r1 r2 none (Config.freeWord s.draws) ∧
          (∀ b, t.cellAt b =
            if b = a then dataBus s.cfg.variant (mDataFn s.cfg.fns d.word r1 r2 s.pc)
            else s.cellAt b) ∧
          t.accesses = remembered true)

/-! ### Invariants every step keeps -/

/-- R32, R33, R50, R60, R61: both memories keep their canonical form and stay inside the buses. -/
def Obligations.StepKeepsMemoriesFit : Prop :=
  ∀ (s t : State), s.MemoriesFit → step s = .next t → t.MemoriesFit

/-- R244, R245: npc is the target of the taken transfer whose delay slot pc is, else pc + INSN_STEP; so
control goes nowhere but to the next instruction or to a branch unit's target (R27, R283). Decisions D8
and D23. -/
def Obligations.StepKeepsPcsAgree : Prop :=
  ∀ (s t : State), s.PcsAgree → step s = .next t →
    t.PcsAgree ∧
    (t.pc = s.pc + stepOf s.cfg.insnStep ∨ (s.inDelaySlot = true ∧ s.dx.target = some t.pc) ∨
      (s.cfg.delaySlot = false ∧ t.dx.target = some t.pc))

/-- R24 with assumption logs 5 and 38: a register no instruction's write has reached still holds its reset
value, and so does what WD's register held before. -/
def Obligations.StepKeepsUnwrittenZero : Prop :=
  ∀ (s t : State), s.UnwrittenZero → step s = .next t → t.UnwrittenZero

/-! ### The signal view -/

/-- R176, R159: p_stall is f_stall or x_stall; f_stall is IR asserted and INSACK not. The second clause is
R159's own inference. -/
def Obligations.StallSignals : Prop :=
  ∀ (inp : Inputs) (s t : State) (sig : Signals), cycle inp s = .next (t, sig) →
    sig.pStall = (sig.fStall || sig.xStall) ∧ sig.fStall = (sig.ir && !inp.insack)

/-- R149, R178, R266: the execute stage stalls exactly while the load or store in it is not complete, not
acknowledged where the cache is disabled and missing in the cache core where it is enabled, or the MorphoSys
operation in it is held by morpho_stall. That any MorphoSys operation waits is assumption log 27. -/
def Obligations.ExecuteStallCauses : Prop :=
  ∀ (inp : Inputs) (s t : State) (sig : Signals), cycle inp s = .next (t, sig) →
    (sig.xStall = true ↔ s.dx.ready = true ∧
      ((s.dx.flags.memOp = true ∧ s.sig.execDone = none ∧
          (if s.cfg.cacheEn = true then cacheHit s.sig.cache s.dx.maddr = false else inp.dack = false)) ∨
        (s.dx.flags.memOp = false ∧ s.dx.flags.morphOp = true ∧ inp.morphoStall = true)))

/-- R177: in a stalled cycle the pipeline registers and the program counters hold, and the same address
stays on IA. In a cycle that is not stalled all load together and every instruction advances one stage: WD
takes XW's result, XW what the execute stage shows, DX the instruction of FD, FD the fetched one, or none
where the run's end is reached. The `_nc` signals show in this cycle what the registers load at its end
(R136, R142, R220 to R222). WD behind XW is the late reading of R172 (assumption log 23); what XW and WD
take is marked derived in R170 to R172; the fetch stage's one register is assumption log 35, the end of the
run log 28, the held instruction log 25, pc and npc log 15. Where IA comes from is FetchPins, and that it stays
under DELAY_SLOTS = 0 too is FetchHeldThroughStall. -/
def Obligations.PipelineClock : Prop :=
  ∀ (inp : Inputs) (s t : State) (sig : Signals), cycle inp s = .next (t, sig) →
    (sig.pStall = true →
      t.fd = s.fd ∧ t.dx = s.dx ∧ t.xw = s.xw ∧ t.wd = s.wd ∧ t.wdOld = s.wdOld ∧ t.pc = s.pc ∧
        t.npc = s.npc ∧ t.sig.fetchPc = s.sig.fetchPc ∧ t.fetchAddr = s.fetchAddr) ∧
    (sig.pStall = false →
      t.wd = ⟨s.xw.data, s.xw.dr, s.xw.ready && s.xw.drWreq⟩ ∧
      t.xw = ⟨sig.forward.data, sig.forward.dr, s.dx.ready && sig.forward.drWreq, s.dx.ready⟩ ∧
      t.dx.ready = s.fd.ready ∧ sig.flagsNc = t.dx.flags ∧
      (if s.fd.ready = true then
        t.dx.word = s.fd.word ∧ sig.maddrNc = some t.dx.maddr ∧ sig.mdataNc = some t.dx.mdata ∧
          PcsAfter { s with pc := s.fd.pc } t t.dx.target
      else t.pc = s.pc ∧ t.npc = s.npc) ∧
      t.sig.fetchHold = none ∧
      (if s.cfg.endPc = some sig.iaAddr then t.fd.ready = false ∧ t.sig.fetchPc = sig.iaAddr
      else ∃ w, t.fd = fetched s.cfg.enc sig.iaAddr w ∧
        (s.sig.fetchHold = some ⟨sig.iaAddr, some w⟩ ∨
          (∀ v, s.sig.fetchHold ≠ some ⟨sig.iaAddr, some v⟩) ∧
            memLookup s.imem (busAddr s.cfg.variant sig.iaAddr) = some w) ∧
        t.sig.fetchPc = sig.iaAddr + stepOf s.cfg.insnStep ∧
        sig.sr1Nc = some t.fd.sr1 ∧ sig.sr2Nc = some t.fd.sr2))

/-- R55, R54: a fetch that completes in a stalled cycle is held: while the same address is on IA, IR is deasserted
and the same instruction is there, its source fields shown, in every following cycle of the stall, however long it
lasts, until FD takes the instruction as it ends. R53, R177: from a stalled cycle to the next the address on IA
stays; it moves in one case alone, under DELAY_SLOTS = 0: to the target of a taken control transfer in decode that
reads the register the execute stage has had no result for until then, in the cycle of that result. R244 and decision
D30 let nothing else be fetched there; that the fetch of the next instruction goes on meanwhile, and that it stops no
run where no instruction is placed, is the model's choice (assumption log 26). How an instruction is held is assumption
log 25. -/
def Obligations.FetchHeldThroughStall : Prop :=
  (∀ (inp inp' : Inputs) (s t u : State) (sig sig' : Signals),
    cycle inp s = .next (t, sig) → sig.pStall = true → sig.ir = true → inp.insack = true →
    cycle inp' t = .next (u, sig') →
    (¬BranchWaits s sig →
      sig'.ir = false ∧ sig'.fStall = false ∧ sig'.ia = sig.ia ∧ sig'.iaAddr = sig.iaAddr ∧
      sig'.sr1Nc = sig.sr1Nc ∧ sig'.sr2Nc = sig.sr2Nc ∧
      t.sig.fetchHold = some ⟨sig.iaAddr, some sig.ib⟩ ∧
      (sig'.pStall = true → u.sig.fetchHold = t.sig.fetchHold) ∧
      (sig'.pStall = false → u.fd = fetched s.cfg.enc sig.iaAddr sig.ib)) ∧
    (BranchWaits s sig → sig'.iaAddr = sig.iaAddr →
      sig'.ir = false ∧ sig'.fStall = false ∧ sig'.ia = sig.ia ∧
      (BranchWaits t sig' → u.sig.fetchHold = t.sig.fetchHold) ∧
      (sig'.pStall = false → s.cfg.endPc ≠ some sig.iaAddr → u.fd = fetched s.cfg.enc sig.iaAddr sig.ib))) ∧
  (∀ (inp inp' : Inputs) (s t u : State) (sig sig' : Signals), cycle inp s = .next (t, sig) →
    sig.pStall = true → cycle inp' t = .next (u, sig') →
    (¬BranchWaits s sig ∨ BranchWaits t sig' → sig'.iaAddr = sig.iaAddr ∧ sig'.ia = sig.ia) ∧
    (BranchWaits t sig' → BranchWaits s sig) ∧
    (sig'.iaAddr ≠ sig.iaAddr → BranchWaits s sig ∧ ¬BranchWaits t sig' ∧
      ∃ i rr, decode s.cfg.enc s.fd.word = .ok i ∧
        ({ t with xn := sig'.forward } : State).readSources i.fields = .next rr ∧
        branchUnitFn s.cfg.fns s.fd.word rr.1 rr.2 s.fd.pc = (true, sig'.iaAddr))) ∧
  ∀ (inp : Inputs) (s t : State) (sig : Signals) (w : Word),
    s.cfg.endPc ≠ some sig.iaAddr ∨ BranchWaits s sig →
    s.sig.fetchHold = some ⟨sig.iaAddr, some w⟩ → cycle inp s = .next (t, sig) →
    sig.ir = false ∧ sig.fStall = false ∧ sig.sr1Nc = some (sr1Of s.cfg.enc w) ∧
      sig.sr2Nc = some (sr2Of s.cfg.enc w) ∧
      (sig.pStall = true → t.sig.fetchHold = s.sig.fetchHold) ∧
      (sig.pStall = false → t.fd = fetched s.cfg.enc sig.iaAddr w)

/-- R64, R65, R159, R267: an access or MorphoSys operation is made once: the cycle that finishes it in a
stalled pipeline records its result, and later cycles of the stall make none, DR, WR and morpho_en
deasserted, even where morpho_stall holds the instruction on (R266). A stalled cycle without x_stall finishes the
instruction in execute, but for a MorphoSys operation that does not begin under the f_stall (R265), which makes
nothing. How a result is kept is assumption log 25. -/
def Obligations.OperationMadeOnce : Prop :=
  ∀ (inp : Inputs) (s t : State) (sig : Signals), cycle inp s = .next (t, sig) →
    (s.dx.ready = true → sig.xStall = false → sig.pStall = true → t.sig.execDone.isSome = true ∨
      (s.dx.flags.memOp = false ∧ s.dx.flags.morphOp = true ∧ s.sig.begun = false ∧ sig.fStall = true ∧
        sig.morphoEn = false ∧ t.dmem = s.dmem ∧ t.events = s.events)) ∧
    (s.sig.execDone.isSome = true ∨ s.dx.ready = false →
      t.dmem = s.dmem ∧ t.events = s.events ∧ sig.data = ⟨none, false, false, false, none, none⟩ ∧
        sig.morphoEn = false ∧ (sig.pStall = true → t.sig.execDone = s.sig.execDone)) ∧
    (sig.xStall = true → t.dmem = s.dmem ∧ t.events = s.events ∧ t.sig.execDone = s.sig.execDone)

/-- R63, R65 to R67, cache disabled: DR and the address are on the pins through the whole access; WR and the
store data from the falling edge of its first cycle on; in a read the memory drives DB, with the value it
holds once it acknowledges, which is then the execute stage's result; an acknowledged write makes the memory
hold the value on DB. That DR is there in the first cycle even under f_stall is assumption log 25; the
address bits and the lane in rTinyRISC are decisions D9 and D13 (logs 11, 12). -/
def Obligations.ExternalAccessPins : Prop :=
  ∀ (inp : Inputs) (s t : State) (sig : Signals), s.cfg.cacheEn = false →
    s.dx.ready = true → s.dx.flags.memOp = true → s.sig.execDone = none →
    cycle inp s = .next (t, sig) →
    let under := s.sig.transfer = some true
    sig.data.dr = true ∧ sig.data.da = some (busAddr s.cfg.variant s.dx.maddr) ∧
      (s.dx.flags.memwOp = true →
        sig.data.wrSecond = true ∧ (sig.data.wrFirst = true ↔ under) ∧
        sig.data.dbSecond = some (dataBus s.cfg.variant s.dx.mdata) ∧
        (under → sig.data.dbFirst = some (dataBus s.cfg.variant s.dx.mdata)) ∧
        (¬under → sig.data.dbFirst = none) ∧
        (inp.dack = true →
          some (t.cellAt (busAddr s.cfg.variant s.dx.maddr)) = sig.data.dbSecond)) ∧
      (s.dx.flags.memwOp = false →
        sig.data.wrFirst = false ∧ sig.data.wrSecond = false ∧ sig.data.dbFirst = sig.data.dbSecond ∧
        (inp.dack = true → sig.data.dbSecond = some (s.loadValue s.dx.maddr) ∧
          sig.forward.data = s.loadValue s.dx.maddr) ∧
        (inp.dack = false → sig.data.dbSecond = some (dataBus s.cfg.variant inp.db))) ∧
      (inp.dack = false → t.sig.transfer = some s.dx.flags.memwOp) ∧
      (inp.dack = true → t.sig.transfer = none)

/-- R266, R268: while the decoder asserts morpho_stall a MorphoSys operation stays in the execute stage, the
buses held, the enable too until the operation is done, once it has begun, and no event is added. One that was done
under an f_stall stays as well, and so does one that has not begun. In which cycle it begins is MorphosysInterface;
that every MorphoSys operation waits is assumption log 27. -/
def Obligations.DmaControlWaits : Prop :=
  ∀ (inp : Inputs) (s t : State) (sig : Signals), s.dx.ready = true → s.dx.flags.memOp = false →
    s.dx.flags.morphOp = true → inp.morphoStall = true → cycle inp s = .next (t, sig) →
    sig.xStall = true ∧ sig.pStall = true ∧ t.dx = s.dx ∧ t.events = s.events ∧
      t.sig.execDone = s.sig.execDone ∧
      (s.sig.execDone = none → s.sig.begun = true ∨ sig.fStall = false →
        sig.morphoEn = true ∧ t.sig.begun = true)

/-- R265, R159: morpho_en is asserted for a MorphoSys operation in the execute stage that is not done, but is not
newly asserted while f_stall is: an operation that has not begun then makes nothing and has still not begun; one that
has begun keeps the enable, under f_stall too. The reading is R265's own inference; the premise FetchInStep is the
invariant CycleKeepsFetchInStep. R261: rTinyRISC has no MorphoSys buses. That full TinyRISC shows the instruction and
its operands there in every cycle is R260's own inference. -/
def Obligations.MorphosysInterface : Prop :=
  ∀ (inp : Inputs) (s t : State) (sig : Signals), cycle inp s = .next (t, sig) →
    let operation := s.dx.ready = true ∧ s.dx.flags.memOp = false ∧ s.dx.flags.morphOp = true ∧
      s.sig.execDone = none
    (sig.morphoEn = true → s.dx.ready = true ∧ s.dx.flags.morphOp = true ∧ s.sig.execDone = none) ∧
    (operation → sig.fStall = false ∨ s.sig.begun = true → sig.morphoEn = true) ∧
    (operation → s.FetchInStep → sig.fStall = true → s.sig.begun = false →
      sig.morphoEn = false ∧ t.events = s.events ∧ t.dmaIssued = s.dmaIssued ∧ t.dx = s.dx ∧
        t.sig.execDone = none ∧ t.sig.begun = false) ∧
    (operation → sig.morphoEn = true → sig.pStall = true → t.sig.begun = true) ∧
    (s.cfg.variant = .reduced → sig.morphoBuses = none) ∧
    (s.cfg.variant = .full → sig.morphoBuses = some (s.dx.word, s.dx.src1, s.dx.src2))

/-- R140, R147, R180, R244: the signal view's fetch keeps step with pc and npc: FD shows the instruction
placed at pc, and the fetch stage's register and d_chg_pc give the address of the instruction after it.
Assumption logs 25, 26 and 28. -/
def Obligations.CycleKeepsFetchInStep : Prop :=
  ∀ (inp : Inputs) (s t : State) (sig : Signals), s.FetchInStep → cycle inp s = .next (t, sig) →
    t.FetchInStep

/-- R307: one advance of the signal view is one step of the sequential view. Where the cycle ticks and FD
holds an instruction, the state it finds settles, and a step from there does what the state after the
cycle settles to, in all the two views share. Where FD holds none, after a launch and while the pipeline
empties at the run's end, the registers, the memories, the events and the program counters stay, and the
pipeline moves on. R307 is the spec's own inference; under DELAY_SLOTS = 0 the fetch of a target is assumption
log 26, and where one storage holds both memories, what is declined is log 10. -/
def Obligations.TickIsStep : Prop :=
  ∀ (inp : Inputs) (s t : State) (sig : Signals), s.FetchInStep → cycle inp s = .next (t, sig) →
    sig.pStall = false → ∃ u, s.settle = .next u ∧
    (s.fd.ready = true → sharedOutcome (step u) = sharedOutcome t.settle) ∧
    (s.fd.ready = false → ∃ v, t.settle = .next v ∧ (∀ r, v.reg r = u.reg r) ∧ PipelineAfter u v ∧
      v.dx.ready = false ∧ v.cfg = u.cfg ∧ v.pc = u.pc ∧ v.npc = u.npc ∧ v.imem = u.imem ∧
      v.dmem = u.dmem ∧ v.events = u.events ∧ v.dmaIssued = u.dmaIssued ∧ v.accesses = u.accesses ∧
      v.draws = u.draws)

/-- R177, R179, R307: a stalled cycle changes nothing the sequential view sees: before and after it the state
settles to states that share everything, show the same registers, read the same through either port, at an
unsafe distance too (R303), and step alike. R177 and R307 mark this as their own inference; that the old value
at distance 3 outlasts the repeated write is assumption log 38. -/
def Obligations.StallChangesNothing : Prop :=
  ∀ (inp : Inputs) (s t u : State) (sig : Signals), cycle inp s = .next (t, sig) → sig.pStall = true →
    s.settle = .next u →
    ∃ v, t.settle = .next v ∧ v.shared = u.shared ∧ (∀ r, v.reg r = u.reg r) ∧
      (∀ p r, v.readReg p r = u.readReg p r) ∧ sharedOutcome (step v) = sharedOutcome (step u)

/-- R311, R177: in an endless run under a fair environment the pipeline does not stall for ever: again and
again sCLOCK ticks. Decision D28, assumption logs 20 and 34. -/
def Obligations.StallsEnd : Prop :=
  ∀ (inputs : Nat → Inputs) (x : Nat → State) (sig : Nat → Signals), EndlessRun inputs x sig →
    Fair inputs x sig → ∀ n, ∃ m ≥ n, (sig m).pStall = false

/-- R50 to R53, R57: the instruction memory's pins. IA is the address the fetch stage has, in rTinyRISC its
low bits (D9, assumption log 11): what its register and the registered d_chg_pc give, and under DELAY_SLOTS = 0
the target of the taken transfer that leaves decode (log 26). IR is asserted unless the fetch was made already, in an
earlier cycle of the stall (log 25), or the run's end is reached (log 28), which is not known while a control
transfer's outcome is not (log 26); where a fetch is acknowledged IB is the instruction placed at the address. Where
none can be had there the run stops, but not while a control transfer's outcome is not known: IB then shows what the
environment drives (log 26). -/
def Obligations.FetchPins : Prop :=
  ∀ (inp : Inputs) (s t : State) (sig : Signals), cycle inp s = .next (t, sig) →
    sig.ia = busAddr s.cfg.variant sig.iaAddr ∧
    (s.cfg.delaySlot = true → sig.iaAddr = s.fetchAddr) ∧
    (s.cfg.delaySlot = false → sig.pStall = false → sig.iaAddr = t.dx.target.getD s.fetchAddr) ∧
    (BranchWaits s sig → sig.iaAddr = s.fetchAddr) ∧
    (sig.ir = true ↔ (s.cfg.endPc ≠ some sig.iaAddr ∨ BranchWaits s sig) ∧
      ∀ h, s.sig.fetchHold = some h → h.pc ≠ sig.iaAddr) ∧
    (sig.ir = true → inp.insack = true → sig.fStall = false ∧
      ((memLookup s.imem sig.ia = some sig.ib ∧
          sig.sr1Nc = some (sr1Of s.cfg.enc sig.ib) ∧ sig.sr2Nc = some (sr2Of s.cfg.enc sig.ib)) ∨
        (BranchWaits s sig ∧ (memLookup s.imem sig.ia = none ∨ s.cfg.spacesShared = true) ∧
          sig.ib = inp.ib ∧ sig.sr1Nc = none ∧ sig.sr2Nc = none))) ∧
    (sig.ir = true → inp.insack = false → sig.fStall = true ∧ t.fetchAddr = s.fetchAddr)

/-- R261: rTinyRISC does not have the buses morpho_ins, morpho_src1 and morpho_src2. -/
def Obligations.ReducedHasNoMorphosysBuses : Prop :=
  ∀ (inp : Inputs) (s t : State) (sig : Signals), s.cfg.variant = .reduced →
    cycle inp s = .next (t, sig) → sig.morphoBuses = none

/-- R141, R150: f_ins_op is the opcode field of the fetched instruction, the one IB shows where the fetch ends
in this cycle, and d_ins is the whole instruction of the decode stage. That FD holds the whole word is
assumption log 24; the timeline is R180's own inference. -/
def Obligations.InstructionPassedOn : Prop :=
  ∀ (inp : Inputs) (s t : State) (sig : Signals), cycle inp s = .next (t, sig) → sig.pStall = false →
    (sig.ir = true → t.fd.ready = true ∧ t.fd.word = sig.ib) ∧
    (t.fd.ready = true → t.fd.op = opcodeOf s.cfg.enc t.fd.word) ∧
    (s.fd.ready = true → t.dx.word = s.fd.word)

/-- R144, R153, R242: f_ins_dr is the dr field of the fetched instruction, and the decode stage passes it on as
d_ins_dr, but for a JAL whose row fixes the link register (D33, assumption log 16), in whatever later cycle the pipeline advances: the field FD shows is that of the word it holds once
an advance has loaded it, every cycle keeps this, a stalled one the field itself, and an advance brings it to
DX. R153 marks the equation as its own inference; the word in FD is assumption log 24. -/
def Obligations.DestinationPassedOn : Prop :=
  ∀ (inp : Inputs) (s t : State) (sig : Signals), cycle inp s = .next (t, sig) →
    let shows := fun u : State => u.fd.ready = true → u.fd.dr = drOf u.cfg.enc u.fd.word
    (sig.pStall = false → shows t) ∧ (shows s → shows t) ∧
    (sig.pStall = true → t.fd = s.fd) ∧
    (shows s → sig.pStall = false → s.fd.ready = true →
      ∃ r ∈ s.cfg.enc.rows, s.fd.word &&& r.mask = r.value ∧ t.dx.flags = classFlags r.cls ∧
        t.dx.dr = if r.cls = .jal then r.linkReg.getD s.fd.dr else s.fd.dr)

/-- R66, cache disabled: WR is asserted in write accesses, from the falling edge of the first cycle of the
access to its end, through a write miss too, and is deasserted then; the store data are on DB only while it
is; in a read access WR is negated for the whole cycle and the memory drives DB. That the access is made in
its first cycle even under f_stall, and is not made again later in the stall, is assumption log 25. -/
def Obligations.WriteEnableTiming : Prop :=
  ∀ (inp : Inputs) (s t : State) (sig : Signals), s.cfg.cacheEn = false → cycle inp s = .next (t, sig) →
    let access := s.dx.ready = true ∧ s.dx.flags.memOp = true ∧ s.sig.execDone = none
    let write := access ∧ s.dx.flags.memwOp = true
    (sig.data.wrSecond = true ↔ write) ∧ (sig.data.wrFirst = true → write) ∧
    (write → s.sig.transfer = none → sig.data.wrFirst = false ∧ sig.data.dbFirst = none) ∧
    (write → sig.data.da.isSome = true ∧ sig.data.dr = true ∧ sig.data.dbSecond.isSome = true) ∧
    (access → s.dx.flags.memwOp = false → sig.data.wrFirst = false ∧ sig.data.wrSecond = false ∧
      sig.data.dbFirst.isSome = true ∧ sig.data.dbSecond.isSome = true) ∧
    ∀ (inp' : Inputs) (u : State) (sig' : Signals), cycle inp' t = .next (u, sig') →
      (write → inp.dack = false → sig'.data.wrFirst = true ∧ sig'.data.wrSecond = true ∧
        sig'.data.da = sig.data.da ∧ sig'.data.dbFirst = sig.data.dbSecond) ∧
      (write → inp.dack = true → sig'.data.wrFirst = false)

/-- R70, R72, cache enabled: one cycle of a load or store at the cache core. The access stalls where it
misses, and only then do the external pins move; a line's load that ends marks the selected line as valid,
with the address's tag and not dirty; a store that hits marks it as dirty; no other line changes. R72 marks
what the signals imply as its own inference; the sequence of a miss is assumption log 20, the selection by
the address alone log 36, the tag and the cleared dirty mark at the load's end log 42. -/
def Obligations.CacheCoreMarks : Prop :=
  ∀ (inp : Inputs) (s t : State) (sig : Signals), s.cfg.cacheEn = true →
    s.dx.ready = true → s.dx.flags.memOp = true → s.sig.execDone = none →
    cycle inp s = .next (t, sig) →
    let line := fun (c : List CacheLine) (a : Word) => c.find? fun l => l.line == Config.cacheLineOf a
    let old := line s.sig.cache s.dx.maddr
    let new := line t.sig.cache s.dx.maddr
    (sig.core.hit = true ↔ ∃ l, old = some l ∧ l.valid = true ∧ l.tag = Config.cacheTagOf s.dx.maddr) ∧
    (sig.core.dirtin = true ↔ ∃ l, old = some l ∧ l.dirty = true) ∧
    sig.core.tagin = old.map (·.tag) ∧ sig.xStall = !sig.core.hit ∧ sig.data.dr = !sig.core.hit ∧
    (sig.core.setval = true → sig.core.hit = false ∧ inp.dack = true ∧ inp.line.done = true ∧
      new = some ⟨Config.cacheLineOf s.dx.maddr, Config.cacheTagOf s.dx.maddr, true, false⟩) ∧
    (sig.core.hit = false → inp.dack = true → inp.line.done = true →
      s.sig.transfer.getD inp.line.write = false → sig.core.setval = true) ∧
    (sig.core.setdirt = true ↔ sig.core.hit = true ∧ s.dx.flags.memwOp = true) ∧
    (sig.core.setdirt = true → new = old.map fun l => { l with dirty := true }) ∧
    (sig.core.setval = false → sig.core.setdirt = false → t.sig.cache = s.sig.cache) ∧
    ∀ a, Config.cacheLineOf a ≠ Config.cacheLineOf s.dx.maddr →
      line t.sig.cache a = line s.sig.cache a

/-- R35: the cache core keeps at most one entry for each line, and only a load or store under an enabled cache
changes its marks. One tag for each line is the model's choice (assumption log 36). -/
def Obligations.CycleKeepsCacheLines : Prop :=
  ∀ (inp : Inputs) (s t : State) (sig : Signals), cycle inp s = .next (t, sig) →
    (s.CacheLinesDiffer → t.CacheLinesDiffer) ∧
    (s.cfg.cacheEn = false ∨ s.dx.ready = false ∨ s.dx.flags.memOp = false ∨
      s.sig.execDone.isSome = true → t.sig.cache = s.sig.cache)

/-- R307: the two views agree on every run. From any launch, whatever INSACK, DACK and morpho_stall do, the
state the signal view comes to settles to registers, data memory, events and program counters that the
sequential view comes to as well, in some number of instructions; where the signal view's run is over, so is
the sequential one's, with its register file. R307 is the spec's own inference. -/
def Obligations.RunsAgree : Prop :=
  ∀ (cfg : RunConfig) (resetPc : Word) (imem dmem : Memory) (inputs : List Inputs) (t v : State),
    runCycles inputs (State.launch cfg resetPc imem dmem) = .next t → t.settle = .next v →
    ∃ k u, runToEnd k (State.launch cfg resetPc imem dmem) = .next u ∧
      (∀ r, v.reg r = u.reg r) ∧ v.dmem = u.dmem ∧ v.events = u.events ∧ v.pc = u.pc ∧ v.npc = u.npc ∧
      (t.over = true → u.atEnd = true ∧ t.dmem = u.dmem ∧ t.events = u.events ∧
        ∀ r, t.rfRead r = u.reg r)

/-- R39: a run that is over, pc = END_PC with no instruction in flight, stays over: nothing is fetched and
no register, cell or event changes. That the fetch stops is assumption log 28. -/
def Obligations.OverStays : Prop :=
  ∀ (inp : Inputs) (s t : State) (sig : Signals), s.over = true → s.FetchInStep →
    cycle inp s = .next (t, sig) →
    t.over = true ∧ sig.ir = false ∧ sig.pStall = false ∧ t.dmem = s.dmem ∧ t.events = s.events ∧
      t.pc = s.pc ∧ ∀ r, t.reg r = s.reg r

/-- R101: the fetch stage separates the fetched instruction into five fields, of 7, 4, 4, 4 and 16 bits, and
hands each to the decode stage on its own signal. Where the fetch ends in this cycle, the instruction is the
one on IB. -/
def Obligations.FieldsSeparated : Prop :=
  ∀ (inp : Inputs) (s t : State) (sig : Signals), cycle inp s = .next (t, sig) → sig.pStall = false →
    t.fd.ready = true →
    ∃ w, (sig.ir = true → w = sig.ib) ∧ t.fd.op = opcodeOf s.cfg.enc w ∧ t.fd.sr1 = sr1Of s.cfg.enc w ∧
      t.fd.sr2 = sr2Of s.cfg.enc w ∧ t.fd.dr = drOf s.cfg.enc w ∧ t.fd.imm = immOf s.cfg.enc w ∧
      sig.sr1Nc = some t.fd.sr1 ∧ sig.sr2Nc = some t.fd.sr2

/-- R66, cache disabled, in every cycle that follows another: where DR is asserted and the access is a write, WR
is asserted from the falling edge on, so that its first half has WR only where a write access has gone on from
the cycle before without acknowledge; the store data are on DB exactly while WR is; in a read access WR is
negated for the whole cycle and DB is driven. When DR is asserted is no part of this statement. -/
def Obligations.WriteEnableWaveform : Prop :=
  ∀ (inp inp' : Inputs) (s t u : State) (sig sig' : Signals), s.cfg.cacheEn = false →
    cycle inp s = .next (t, sig) → cycle inp' t = .next (u, sig') →
    let goesOn := sig.data.dr = true ∧ s.dx.flags.memwOp = true ∧ inp.dack = false
    let write := sig'.data.dr = true ∧ t.dx.flags.memwOp = true
    (sig'.data.wrSecond = true ↔ write) ∧ (sig'.data.wrFirst = true ↔ write ∧ goesOn) ∧
    (write → sig'.data.da.isSome = true ∧ sig'.data.dbSecond.isSome = true ∧
      sig'.data.dbFirst.isSome = sig'.data.wrFirst) ∧
    (sig'.data.dr = true → t.dx.flags.memwOp = false →
      sig'.data.wrFirst = false ∧ sig'.data.wrSecond = false ∧
      sig'.data.dbFirst.isSome = true ∧ sig'.data.dbSecond.isSome = true)

/-- R147, R148, R158, R180, R240, R244: d_chg_pc and its target load into DX as a control transfer leaves decode
that the branch unit takes, its operands read with what the execute stage forwards in that cycle, and for no other
instruction. Under DELAY_SLOTS = 1 the fetch stage sees them in the next cycle: the target is on IA
and FD takes its instruction behind the delay slot's. Under DELAY_SLOTS = 0, where R244 has nothing executed
behind the transfer and no signal cancels a fetched instruction, the target is on IA in the transfer's own decode
cycle and FD takes its instruction next, which is the model's choice (assumption log 26). Without a taken
transfer the fetch goes on in sequence. END_PC is log 28, the fetch stage's one register log 35. -/
def Obligations.ChangePcSteersFetch : Prop :=
  ∀ (inp inp' : Inputs) (s t u : State) (sig sig' : Signals), cycle inp s = .next (t, sig) →
    sig.pStall = false → cycle inp' t = .next (u, sig') →
    (s.decodesTransfer = false → t.dx.target = none) ∧
    (s.decodesTransfer = true → ∃ i rr, decode s.cfg.enc s.fd.word = .ok i ∧
      ({ s with xn := sig.forward } : State).readSources i.fields = .next rr ∧
      let b := branchUnitFn s.cfg.fns s.fd.word rr.1 rr.2 s.fd.pc
      t.dx.target = if b.1 then some b.2 else none) ∧
    (∀ target, t.dx.target = some target →
      (s.cfg.delaySlot = true → t.fd.ready = true →
        sig'.iaAddr = target ∧
          (sig'.pStall = false → s.cfg.endPc ≠ some target → u.fd.ready = true ∧ u.fd.pc = target)) ∧
      (s.cfg.delaySlot = false →
        sig.iaAddr = target ∧ (s.cfg.endPc ≠ some target → t.fd.ready = true ∧ t.fd.pc = target))) ∧
    (t.dx.target = none → sig.iaAddr = s.fetchAddr ∧
      (s.cfg.delaySlot = true → s.cfg.endPc ≠ some sig.iaAddr →
        sig'.iaAddr = sig.iaAddr + stepOf s.cfg.insnStep))
end

