-- ==== Sys2Proof/Laws/State.lean ====
section
/-! SUPPORT. What each update of the state leaves in each field; how outcomes are put together. -/

namespace Sys2Proof.Machine

section Outcomes
variable {α β : Type}

@[simp] theorem andThen_next (a : α) (f : α → Host.Outcome β Fault Refusal) :
    andThen (.next a) f = f a := rfl
@[simp] theorem andThen_fault (r : Fault) (f : α → Host.Outcome β Fault Refusal) :
    andThen (.fault r) f = .fault r := rfl
@[simp] theorem andThen_refused (r : Refusal) (f : α → Host.Outcome β Fault Refusal) :
    andThen (.refused r) f = .refused r := rfl

/-- A chain answers a next value when its first part does and the rest does from there. -/
theorem andThen_eq_next {o : Host.Outcome α Fault Refusal} {f : α → Host.Outcome β Fault Refusal}
    {b : β} : andThen o f = .next b ↔ ∃ a, o = .next a ∧ f a = .next b := by
  cases o <;> simp

theorem andThen_assoc {γ : Type} (o : Host.Outcome α Fault Refusal)
    (f : α → Host.Outcome β Fault Refusal) (g : β → Host.Outcome γ Fault Refusal) :
    andThen (andThen o f) g = andThen o fun a => andThen (f a) g := by
  cases o <;> rfl

end Outcomes

section Fields
variable (s : State)

@[simp] theorem State.landed_cfg : s.landed.cfg = s.cfg := rfl
@[simp] theorem State.landed_rf : s.landed.rf = s.writeBack := rfl
@[simp] theorem State.landed_written : s.landed.written = s.markBack := rfl
@[simp] theorem State.landed_pc : s.landed.pc = s.pc := rfl
@[simp] theorem State.landed_npc : s.landed.npc = s.npc := rfl
@[simp] theorem State.landed_imem : s.landed.imem = s.imem := rfl
@[simp] theorem State.landed_dmem : s.landed.dmem = s.dmem := rfl
@[simp] theorem State.landed_fd : s.landed.fd = s.fd := rfl
@[simp] theorem State.landed_dx : s.landed.dx = s.dx := rfl
@[simp] theorem State.landed_xn : s.landed.xn = s.xn := rfl
@[simp] theorem State.landed_xw : s.landed.xw = s.xw := rfl
@[simp] theorem State.landed_wd : s.landed.wd = s.wd := rfl
@[simp] theorem State.landed_wdOld : s.landed.wdOld = s.wdOld := rfl
@[simp] theorem State.landed_sig : s.landed.sig = s.sig := rfl
@[simp] theorem State.landed_events : s.landed.events = s.events := rfl
@[simp] theorem State.landed_dmaIssued : s.landed.dmaIssued = s.dmaIssued := rfl
@[simp] theorem State.landed_accesses : s.landed.accesses = s.accesses := rfl
@[simp] theorem State.landed_draws : s.landed.draws = s.draws := rfl

@[simp] theorem State.advance_cfg : s.advance.cfg = s.cfg := rfl
@[simp] theorem State.advance_rf : s.advance.rf = s.writeBack := rfl
@[simp] theorem State.advance_written : s.advance.written = s.markBack := rfl
@[simp] theorem State.advance_pc : s.advance.pc = s.pc := rfl
@[simp] theorem State.advance_npc : s.advance.npc = s.npc := rfl
@[simp] theorem State.advance_imem : s.advance.imem = s.imem := rfl
@[simp] theorem State.advance_dmem : s.advance.dmem = s.dmem := rfl
@[simp] theorem State.advance_fd : s.advance.fd = s.fd := rfl
@[simp] theorem State.advance_dx : s.advance.dx = s.dx := rfl
@[simp] theorem State.advance_xn : s.advance.xn = s.xn := rfl
@[simp] theorem State.advance_xw :
    s.advance.xw =
      ⟨s.xn.data, s.xn.dr, s.dx.ready && s.xn.drWreq, s.dx.ready⟩ := rfl
@[simp] theorem State.advance_wd : s.advance.wd = ⟨s.xw.data, s.xw.dr, s.xw.ready && s.xw.drWreq⟩ := rfl
@[simp] theorem State.advance_wdOld : s.advance.wdOld = s.landed.contents s.xw.dr := rfl
@[simp] theorem State.advance_sig : s.advance.sig = s.sig := rfl
@[simp] theorem State.advance_events : s.advance.events = s.events := rfl
@[simp] theorem State.advance_dmaIssued : s.advance.dmaIssued = s.dmaIssued := rfl
@[simp] theorem State.advance_accesses : s.advance.accesses = s.accesses := rfl
@[simp] theorem State.advance_draws : s.advance.draws = s.draws := rfl

@[simp] theorem State.tick_cfg (x : DecodeExecute) : (s.tick x).cfg = s.cfg := rfl
@[simp] theorem State.tick_rf (x : DecodeExecute) : (s.tick x).rf = s.writeBack := rfl
@[simp] theorem State.tick_written (x : DecodeExecute) : (s.tick x).written = s.markBack := rfl
@[simp] theorem State.tick_pc (x : DecodeExecute) :
    (s.tick x).pc =
      (nextPcs s.cfg s.pc s.npc x.target).1 := rfl
@[simp] theorem State.tick_npc (x : DecodeExecute) :
    (s.tick x).npc =
      (nextPcs s.cfg s.pc s.npc x.target).2 := rfl
@[simp] theorem State.tick_imem (x : DecodeExecute) : (s.tick x).imem = s.imem := rfl
@[simp] theorem State.tick_dmem (x : DecodeExecute) : (s.tick x).dmem = s.dmem := rfl
@[simp] theorem State.tick_fd (x : DecodeExecute) : (s.tick x).fd = s.fd := rfl
@[simp] theorem State.tick_dx (x : DecodeExecute) : (s.tick x).dx = x := rfl
@[simp] theorem State.tick_xn (x : DecodeExecute) : (s.tick x).xn = s.xn := rfl
@[simp] theorem State.tick_xw (x : DecodeExecute) :
    (s.tick x).xw =
      ⟨s.xn.data, s.xn.dr, s.dx.ready && s.xn.drWreq, s.dx.ready⟩ := rfl
@[simp] theorem State.tick_wd (x : DecodeExecute) :
    (s.tick x).wd =
      ⟨s.xw.data, s.xw.dr, s.xw.ready && s.xw.drWreq⟩ := rfl
@[simp] theorem State.tick_wdOld (x : DecodeExecute) : (s.tick x).wdOld = s.landed.contents s.xw.dr := rfl
@[simp] theorem State.tick_sig (x : DecodeExecute) : (s.tick x).sig = s.sig := rfl
@[simp] theorem State.tick_events (x : DecodeExecute) : (s.tick x).events = s.events := rfl
@[simp] theorem State.tick_dmaIssued (x : DecodeExecute) : (s.tick x).dmaIssued = s.dmaIssued := rfl
@[simp] theorem State.tick_accesses (x : DecodeExecute) : (s.tick x).accesses = s.accesses := rfl
@[simp] theorem State.tick_draws (x : DecodeExecute) : (s.tick x).draws = s.draws + 1 := rfl

@[simp] theorem State.withResult_cfg (x : DecodeExecute) (v : Word) : (s.withResult x v).cfg = s.cfg := rfl
@[simp] theorem State.withResult_rf (x : DecodeExecute) (v : Word) : (s.withResult x v).rf = s.rf := rfl
@[simp] theorem State.withResult_written (x : DecodeExecute) (v : Word) :
    (s.withResult x v).written =
      s.written := rfl
@[simp] theorem State.withResult_pc (x : DecodeExecute) (v : Word) : (s.withResult x v).pc = s.pc := rfl
@[simp] theorem State.withResult_npc (x : DecodeExecute) (v : Word) : (s.withResult x v).npc = s.npc := rfl
@[simp] theorem State.withResult_imem (x : DecodeExecute) (v : Word) : (s.withResult x v).imem = s.imem := rfl
@[simp] theorem State.withResult_dmem (x : DecodeExecute) (v : Word) : (s.withResult x v).dmem = s.dmem := rfl
@[simp] theorem State.withResult_fd (x : DecodeExecute) (v : Word) : (s.withResult x v).fd = s.fd := rfl
@[simp] theorem State.withResult_dx (x : DecodeExecute) (v : Word) : (s.withResult x v).dx = s.dx := rfl
@[simp] theorem State.withResult_xn (x : DecodeExecute) (v : Word) :
    (s.withResult x v).xn =
      ⟨v, x.dr, x.ready && x.drWreq⟩ := rfl
@[simp] theorem State.withResult_xw (x : DecodeExecute) (v : Word) : (s.withResult x v).xw = s.xw := rfl
@[simp] theorem State.withResult_wd (x : DecodeExecute) (v : Word) : (s.withResult x v).wd = s.wd := rfl
@[simp] theorem State.withResult_wdOld (x : DecodeExecute) (v : Word) : (s.withResult x v).wdOld = s.wdOld := rfl
@[simp] theorem State.withResult_sig (x : DecodeExecute) (v : Word) : (s.withResult x v).sig = s.sig := rfl
@[simp] theorem State.withResult_events (x : DecodeExecute) (v : Word) :
    (s.withResult x v).events =
      s.events := rfl
@[simp] theorem State.withResult_dmaIssued (x : DecodeExecute) (v : Word) :
    (s.withResult x v).dmaIssued =
      s.dmaIssued := rfl
@[simp] theorem State.withResult_accesses (x : DecodeExecute) (v : Word) :
    (s.withResult x v).accesses =
      s.accesses := rfl
@[simp] theorem State.withResult_draws (x : DecodeExecute) (v : Word) :
    (s.withResult x v).draws =
      s.draws := rfl

@[simp] theorem State.withoutResult_cfg : s.withoutResult.cfg = s.cfg := rfl
@[simp] theorem State.withoutResult_rf : s.withoutResult.rf = s.rf := rfl
@[simp] theorem State.withoutResult_written : s.withoutResult.written = s.written := rfl
@[simp] theorem State.withoutResult_pc : s.withoutResult.pc = s.pc := rfl
@[simp] theorem State.withoutResult_npc : s.withoutResult.npc = s.npc := rfl
@[simp] theorem State.withoutResult_imem : s.withoutResult.imem = s.imem := rfl
@[simp] theorem State.withoutResult_dmem : s.withoutResult.dmem = s.dmem := rfl
@[simp] theorem State.withoutResult_fd : s.withoutResult.fd = s.fd := rfl
@[simp] theorem State.withoutResult_dx : s.withoutResult.dx = s.dx := rfl
@[simp] theorem State.withoutResult_xn :
    s.withoutResult.xn =
      ⟨Config.idleData s.draws, s.dx.dr, s.dx.ready && s.dx.drWreq⟩ := rfl
@[simp] theorem State.withoutResult_xw : s.withoutResult.xw = s.xw := rfl
@[simp] theorem State.withoutResult_wd : s.withoutResult.wd = s.wd := rfl
@[simp] theorem State.withoutResult_wdOld : s.withoutResult.wdOld = s.wdOld := rfl
@[simp] theorem State.withoutResult_sig : s.withoutResult.sig = s.sig := rfl
@[simp] theorem State.withoutResult_events : s.withoutResult.events = s.events := rfl
@[simp] theorem State.withoutResult_dmaIssued : s.withoutResult.dmaIssued = s.dmaIssued := rfl
@[simp] theorem State.withoutResult_accesses : s.withoutResult.accesses = s.accesses := rfl
@[simp] theorem State.withoutResult_draws : s.withoutResult.draws = s.draws := rfl

@[simp] theorem State.writeData_cfg (a d : Word) : (s.writeData a d).cfg = s.cfg := rfl
@[simp] theorem State.writeData_rf (a d : Word) : (s.writeData a d).rf = s.rf := rfl
@[simp] theorem State.writeData_written (a d : Word) : (s.writeData a d).written = s.written := rfl
@[simp] theorem State.writeData_pc (a d : Word) : (s.writeData a d).pc = s.pc := rfl
@[simp] theorem State.writeData_npc (a d : Word) : (s.writeData a d).npc = s.npc := rfl
@[simp] theorem State.writeData_imem (a d : Word) : (s.writeData a d).imem = s.imem := rfl
@[simp] theorem State.writeData_dmem (a d : Word) :
    (s.writeData a d).dmem =
      memStore s.dmem (busAddr s.cfg.variant a) (dataBus s.cfg.variant d) := rfl
@[simp] theorem State.writeData_fd (a d : Word) : (s.writeData a d).fd = s.fd := rfl
@[simp] theorem State.writeData_dx (a d : Word) : (s.writeData a d).dx = s.dx := rfl
@[simp] theorem State.writeData_xn (a d : Word) : (s.writeData a d).xn = s.xn := rfl
@[simp] theorem State.writeData_xw (a d : Word) : (s.writeData a d).xw = s.xw := rfl
@[simp] theorem State.writeData_wd (a d : Word) : (s.writeData a d).wd = s.wd := rfl
@[simp] theorem State.writeData_wdOld (a d : Word) : (s.writeData a d).wdOld = s.wdOld := rfl
@[simp] theorem State.writeData_sig (a d : Word) : (s.writeData a d).sig = s.sig := rfl
@[simp] theorem State.writeData_events (a d : Word) : (s.writeData a d).events = s.events := rfl
@[simp] theorem State.writeData_dmaIssued (a d : Word) : (s.writeData a d).dmaIssued = s.dmaIssued := rfl
@[simp] theorem State.writeData_accesses (a d : Word) : (s.writeData a d).accesses = s.accesses := rfl
@[simp] theorem State.writeData_draws (a d : Word) : (s.writeData a d).draws = s.draws := rfl

@[simp] theorem State.emit_cfg (x : DecodeExecute) (dma : Bool) : (s.emit x dma).cfg = s.cfg := rfl
@[simp] theorem State.emit_rf (x : DecodeExecute) (dma : Bool) : (s.emit x dma).rf = s.rf := rfl
@[simp] theorem State.emit_written (x : DecodeExecute) (dma : Bool) :
    (s.emit x dma).written =
      s.written := rfl
@[simp] theorem State.emit_pc (x : DecodeExecute) (dma : Bool) : (s.emit x dma).pc = s.pc := rfl
@[simp] theorem State.emit_npc (x : DecodeExecute) (dma : Bool) : (s.emit x dma).npc = s.npc := rfl
@[simp] theorem State.emit_imem (x : DecodeExecute) (dma : Bool) : (s.emit x dma).imem = s.imem := rfl
@[simp] theorem State.emit_dmem (x : DecodeExecute) (dma : Bool) : (s.emit x dma).dmem = s.dmem := rfl
@[simp] theorem State.emit_fd (x : DecodeExecute) (dma : Bool) : (s.emit x dma).fd = s.fd := rfl
@[simp] theorem State.emit_dx (x : DecodeExecute) (dma : Bool) : (s.emit x dma).dx = s.dx := rfl
@[simp] theorem State.emit_xn (x : DecodeExecute) (dma : Bool) : (s.emit x dma).xn = s.xn := rfl
@[simp] theorem State.emit_xw (x : DecodeExecute) (dma : Bool) : (s.emit x dma).xw = s.xw := rfl
@[simp] theorem State.emit_wd (x : DecodeExecute) (dma : Bool) : (s.emit x dma).wd = s.wd := rfl
@[simp] theorem State.emit_wdOld (x : DecodeExecute) (dma : Bool) : (s.emit x dma).wdOld = s.wdOld := rfl
@[simp] theorem State.emit_sig (x : DecodeExecute) (dma : Bool) : (s.emit x dma).sig = s.sig := rfl
@[simp] theorem State.emit_events (x : DecodeExecute) (dma : Bool) :
    (s.emit x dma).events =
      s.events ++ [⟨x.word, x.src1, x.src2⟩] := rfl
@[simp] theorem State.emit_dmaIssued (x : DecodeExecute) (dma : Bool) :
    (s.emit x dma).dmaIssued =
      (s.dmaIssued || dma) := rfl
@[simp] theorem State.emit_accesses (x : DecodeExecute) (dma : Bool) :
    (s.emit x dma).accesses =
      s.accesses := rfl
@[simp] theorem State.emit_draws (x : DecodeExecute) (dma : Bool) : (s.emit x dma).draws = s.draws := rfl

@[simp] theorem State.loadFd_cfg (w : Word) : (s.loadFd w).cfg = s.cfg := rfl
@[simp] theorem State.loadFd_rf (w : Word) : (s.loadFd w).rf = s.rf := rfl
@[simp] theorem State.loadFd_written (w : Word) : (s.loadFd w).written = s.written := rfl
@[simp] theorem State.loadFd_pc (w : Word) : (s.loadFd w).pc = s.pc := rfl
@[simp] theorem State.loadFd_npc (w : Word) : (s.loadFd w).npc = s.npc := rfl
@[simp] theorem State.loadFd_imem (w : Word) : (s.loadFd w).imem = s.imem := rfl
@[simp] theorem State.loadFd_dmem (w : Word) : (s.loadFd w).dmem = s.dmem := rfl
@[simp] theorem State.loadFd_fd (w : Word) : (s.loadFd w).fd = fetched s.cfg.enc s.pc w := rfl
@[simp] theorem State.loadFd_dx (w : Word) : (s.loadFd w).dx = s.dx := rfl
@[simp] theorem State.loadFd_xn (w : Word) : (s.loadFd w).xn = s.xn := rfl
@[simp] theorem State.loadFd_xw (w : Word) : (s.loadFd w).xw = s.xw := rfl
@[simp] theorem State.loadFd_wd (w : Word) : (s.loadFd w).wd = s.wd := rfl
@[simp] theorem State.loadFd_wdOld (w : Word) : (s.loadFd w).wdOld = s.wdOld := rfl
@[simp] theorem State.loadFd_sig (w : Word) : (s.loadFd w).sig = s.sig := rfl
@[simp] theorem State.loadFd_events (w : Word) : (s.loadFd w).events = s.events := rfl
@[simp] theorem State.loadFd_dmaIssued (w : Word) : (s.loadFd w).dmaIssued = s.dmaIssued := rfl
@[simp] theorem State.loadFd_accesses (w : Word) : (s.loadFd w).accesses = s.accesses := rfl
@[simp] theorem State.loadFd_draws (w : Word) : (s.loadFd w).draws = s.draws := rfl

@[simp] theorem State.retire_cfg (x : DecodeExecute) (v : Word) : (s.retire x v).cfg = s.cfg := rfl
@[simp] theorem State.retire_rf (x : DecodeExecute) (v : Word) : (s.retire x v).rf = s.writeBack := rfl
@[simp] theorem State.retire_written (x : DecodeExecute) (v : Word) : (s.retire x v).written = s.markBack := rfl
@[simp] theorem State.retire_pc (x : DecodeExecute) (v : Word) :
    (s.retire x v).pc =
      (nextPcs s.cfg s.pc s.npc x.target).1 := rfl
@[simp] theorem State.retire_npc (x : DecodeExecute) (v : Word) :
    (s.retire x v).npc =
      (nextPcs s.cfg s.pc s.npc x.target).2 := rfl
@[simp] theorem State.retire_imem (x : DecodeExecute) (v : Word) : (s.retire x v).imem = s.imem := rfl
@[simp] theorem State.retire_dmem (x : DecodeExecute) (v : Word) : (s.retire x v).dmem = s.dmem := rfl
@[simp] theorem State.retire_fd (x : DecodeExecute) (v : Word) : (s.retire x v).fd = s.fd := rfl
@[simp] theorem State.retire_dx (x : DecodeExecute) (v : Word) : (s.retire x v).dx = x := rfl
@[simp] theorem State.retire_xn (x : DecodeExecute) (v : Word) :
    (s.retire x v).xn =
      ⟨v, x.dr, x.ready && x.drWreq⟩ := rfl
@[simp] theorem State.retire_xw (x : DecodeExecute) (v : Word) :
    (s.retire x v).xw =
      ⟨s.xn.data, s.xn.dr, s.dx.ready && s.xn.drWreq, s.dx.ready⟩ := rfl
@[simp] theorem State.retire_wd (x : DecodeExecute) (v : Word) :
    (s.retire x v).wd =
      ⟨s.xw.data, s.xw.dr, s.xw.ready && s.xw.drWreq⟩ := rfl
@[simp] theorem State.retire_wdOld (x : DecodeExecute) (v : Word) :
    (s.retire x v).wdOld = s.landed.contents s.xw.dr := rfl
@[simp] theorem State.retire_sig (x : DecodeExecute) (v : Word) : (s.retire x v).sig = s.sig := rfl
@[simp] theorem State.retire_events (x : DecodeExecute) (v : Word) : (s.retire x v).events = s.events := rfl
@[simp] theorem State.retire_dmaIssued (x : DecodeExecute) (v : Word) :
    (s.retire x v).dmaIssued =
      s.dmaIssued := rfl
@[simp] theorem State.retire_accesses (x : DecodeExecute) (v : Word) :
    (s.retire x v).accesses =
      s.accesses := rfl
@[simp] theorem State.retire_draws (x : DecodeExecute) (v : Word) : (s.retire x v).draws = s.draws + 1 := rfl

end Fields

/-! Remembering an access changes nothing but `accesses`. -/

section Record
variable (s : State) (a : Word) (w : Bool)

@[simp] theorem State.recordAccess_cfg : (s.recordAccess a w).cfg = s.cfg := by
  unfold State.recordAccess; split <;> rfl
@[simp] theorem State.recordAccess_rf : (s.recordAccess a w).rf = s.rf := by
  unfold State.recordAccess; split <;> rfl
@[simp] theorem State.recordAccess_written : (s.recordAccess a w).written = s.written := by
  unfold State.recordAccess; split <;> rfl
@[simp] theorem State.recordAccess_pc : (s.recordAccess a w).pc = s.pc := by
  unfold State.recordAccess; split <;> rfl
@[simp] theorem State.recordAccess_npc : (s.recordAccess a w).npc = s.npc := by
  unfold State.recordAccess; split <;> rfl
@[simp] theorem State.recordAccess_imem : (s.recordAccess a w).imem = s.imem := by
  unfold State.recordAccess; split <;> rfl
@[simp] theorem State.recordAccess_dmem : (s.recordAccess a w).dmem = s.dmem := by
  unfold State.recordAccess; split <;> rfl
@[simp] theorem State.recordAccess_fd : (s.recordAccess a w).fd = s.fd := by
  unfold State.recordAccess; split <;> rfl
@[simp] theorem State.recordAccess_dx : (s.recordAccess a w).dx = s.dx := by
  unfold State.recordAccess; split <;> rfl
@[simp] theorem State.recordAccess_xn : (s.recordAccess a w).xn = s.xn := by
  unfold State.recordAccess; split <;> rfl
@[simp] theorem State.recordAccess_xw : (s.recordAccess a w).xw = s.xw := by
  unfold State.recordAccess; split <;> rfl
@[simp] theorem State.recordAccess_wd : (s.recordAccess a w).wd = s.wd := by
  unfold State.recordAccess; split <;> rfl
@[simp] theorem State.recordAccess_wdOld : (s.recordAccess a w).wdOld = s.wdOld := by
  unfold State.recordAccess; split <;> rfl
@[simp] theorem State.recordAccess_sig : (s.recordAccess a w).sig = s.sig := by
  unfold State.recordAccess; split <;> rfl
@[simp] theorem State.recordAccess_events : (s.recordAccess a w).events = s.events := by
  unfold State.recordAccess; split <;> rfl
@[simp] theorem State.recordAccess_dmaIssued : (s.recordAccess a w).dmaIssued = s.dmaIssued := by
  unfold State.recordAccess; split <;> rfl
@[simp] theorem State.recordAccess_draws : (s.recordAccess a w).draws = s.draws := by
  unfold State.recordAccess; split <;> rfl

end Record

end Sys2Proof.Machine
end

