-- ==== Sys2Proof/Laws/Memory.lean ====
section
/-! SUPPORT. Memory: read after write, and the canonical form, which every operation keeps. -/

namespace Sys2Proof.Machine

@[simp] theorem memLookup_memStore_same (m : Memory) (a : Nat) (v : Word) :
    memLookup (memStore m a v) a = some v := by
  induction m with
  | nil => simp [memStore, memLookup]
  | cons c m ih =>
    obtain ⟨b, w⟩ := c
    by_cases h1 : a < b
    · simp [memStore, h1, memLookup]
    · by_cases h2 : a = b
      · simp [memStore, h2, memLookup]
      · simp [memStore, h1, h2, memLookup, ih]

theorem memLookup_memStore_other (m : Memory) {a b : Nat} (v : Word) (h : b ≠ a) :
    memLookup (memStore m a v) b = memLookup m b := by
  induction m with
  | nil => simp [memStore, memLookup, h]
  | cons c m ih =>
    obtain ⟨k, w⟩ := c
    by_cases h1 : a < k
    · simp [memStore, h1, memLookup, h]
    · by_cases h2 : a = k
      · subst h2; simp [memStore, memLookup, h]
      · simp [memStore, h1, h2, memLookup, ih]

/-- An entry of a memory after a write is the one written or an entry of before. -/
theorem mem_memStore {m : Memory} {a : Nat} {v : Word} {c : Nat × Word}
    (h : c ∈ memStore m a v) : c = (a, v) ∨ c ∈ m := by
  induction m with
  | nil => simpa [memStore] using h
  | cons d m ih =>
    obtain ⟨b, w⟩ := d
    unfold memStore at h
    split at h
    · simpa using h
    · split at h
      · simp only [List.mem_cons] at h ⊢; tauto
      · simp only [List.mem_cons] at h ⊢
        rcases h with h | h
        · exact .inr (.inl h)
        · rcases ih h with h | h
          · exact .inl h
          · exact .inr (.inr h)

/-- A write keeps the canonical form. -/
theorem memStore_wf {m : Memory} (h : m.wf) (a : Nat) (v : Word) : Memory.wf (memStore m a v) := by
  induction m with
  | nil => simp [memStore, Memory.wf]
  | cons d m ih =>
    obtain ⟨b, w⟩ := d
    have hm : Memory.wf m := (List.pairwise_cons.mp h).2
    have hb : ∀ c ∈ m, b < c.1 := fun c hc => (List.pairwise_cons.mp h).1 _ (List.mem_map_of_mem hc)
    unfold memStore
    split
    · next h1 =>
      refine List.pairwise_cons.mpr ⟨?_, h⟩
      intro k hk
      obtain ⟨c, hc, rfl⟩ := List.mem_map.mp hk
      rcases List.mem_cons.mp hc with rfl | hc
      · exact h1
      · exact Nat.lt_trans h1 (hb c hc)
    · split
      · next h2 =>
        subst h2
        exact h
      · next h1 h2 =>
        refine List.pairwise_cons.mpr ⟨?_, ih hm⟩
        intro k hk
        obtain ⟨c, hc, rfl⟩ := List.mem_map.mp hk
        rcases mem_memStore hc with rfl | hc
        · show b < a
          omega
        · exact hb c hc

theorem busAddr_lt (v : Variant) (a : Word) : busAddr v a < 2 ^ addrBits v :=
  Nat.mod_lt _ (Nat.two_pow_pos _)

@[simp] theorem dataBus_dataBus (v : Variant) (x : Word) : dataBus v (dataBus v x) = dataBus v x := by
  cases v
  · rfl
  · simp only [dataBus]
    ext i hi
    simp [BitVec.getElem_setWidth]

/-- A store is read back at its own bus address. -/
theorem writeData_cellAt_same (s : State) (a d : Word) :
    (s.writeData a d).cellAt (busAddr s.cfg.variant a) = dataBus s.cfg.variant d := by
  simp [State.cellAt]

/-- A store leaves every other cell as it was. -/
theorem writeData_cellAt_other (s : State) (a d : Word) {b : Nat} (h : b ≠ busAddr s.cfg.variant a) :
    (s.writeData a d).cellAt b = s.cellAt b := by
  simp [State.cellAt, memLookup_memStore_other _ _ h]

/-- A data store keeps the canonical form. -/
theorem writeData_wf (s : State) (a d : Word) (h : s.dmem.wf) : (s.writeData a d).dmem.wf :=
  memStore_wf h _ _

/-- The memories right after reset are in canonical form. -/
theorem reset_memories_wf : State.reset.imem.wf ∧ State.reset.dmem.wf := by
  simp [State.reset, State.launch, Memory.wf]

end Sys2Proof.Machine
end

