-- ==== Sys2Proof/Laws/Operands.lean ====
section
/-! SUPPORT. What a register read can answer: once for one register, once for an instruction's operands. -/

namespace Sys2Proof.Machine

/-- Past results of which none is of register r, the read is of what lies behind them. -/
theorem readPast_none (s : State) (pt : Port) (r : RegId) (ps : List PendingWrite)
    (h : ps.find? (fun p => p.writes && p.reg == r) = none) :
    s.readPast pt r ps = .next (s.oldValue pt r) := by
  induction ps with
  | nil => rfl
  | cons p ps ih =>
    rw [List.find?_cons] at h
    split at h
    · cases h
    · next hp => simp only [State.readPast, hp]; simpa using ih h

/-- Where the nearest result of register r is seen, the read is its value. -/
theorem readPast_visible (s : State) (pt : Port) (r : RegId) (ps : List PendingWrite) (p : PendingWrite)
    (h : ps.find? (fun p => p.writes && p.reg == r) = some p) (hv : p.visible = true) :
    s.readPast pt r ps = .next p.data := by
  induction ps with
  | nil => cases h
  | cons q ps ih =>
    rw [List.find?_cons] at h
    split at h
    · next hq => cases h; simp only [State.readPast, hq, hv, if_true]
    · next hq => simp only [State.readPast, hq]; simpa using ih h

/-- Where the nearest result of register r is at an unsafe distance, R303's fault names it. -/
theorem readPast_fault (s : State) (pt : Port) (r : RegId) (ps : List PendingWrite) (p : PendingWrite)
    (h : ps.find? (fun p => p.writes && p.reg == r) = some p) (hv : p.visible = false)
    (hz : s.cfg.hazard = .fault) : s.readPast pt r ps = .fault (.hazardFault r p.distance) := by
  induction ps with
  | nil => cases h
  | cons q ps ih =>
    rw [List.find?_cons] at h
    split at h
    · next hq => cases h; simp [State.readPast, hq, hv, hz]
    · next hq => simp only [State.readPast, hq]; simpa using ih h

/-- Under the draw, a read answers, with a result of r on its way or what lies behind them. -/
theorem readPast_draw (s : State) (pt : Port) (r : RegId) (hz : s.cfg.hazard = .draw) (ps : List PendingWrite) :
    ∃ v, s.readPast pt r ps = .next v ∧
      (v = s.oldValue pt r ∨ ∃ q ∈ ps, q.writes = true ∧ q.reg = r ∧ v = q.data) := by
  induction ps with
  | nil => exact ⟨_, rfl, .inl rfl⟩
  | cons p ps ih =>
    obtain ⟨v, hv, hv'⟩ := ih
    have step : ∃ v, s.readPast pt r ps = .next v ∧ (v = s.oldValue pt r ∨
        ∃ q ∈ p :: ps, q.writes = true ∧ q.reg = r ∧ v = q.data) := by
      refine ⟨v, hv, hv'.imp_right ?_⟩
      rintro ⟨q, hq, h⟩
      exact ⟨q, List.mem_cons_of_mem _ hq, h⟩
    simp only [State.readPast, hz]
    split
    · next hp =>
      have hp' : p.writes = true ∧ p.reg = r := by simpa using hp
      split
      · exact ⟨_, rfl, .inr ⟨p, by simp, hp'.1, hp'.2, rfl⟩⟩
      · split
        · exact ⟨_, rfl, .inr ⟨p, by simp, hp'.1, hp'.2, rfl⟩⟩
        · exact step
    · exact step

/-- A readable register's read answers one of the values the spec allows. -/
theorem readReg_of_readable {s : State} {r : RegId} (pt : Port) (h : s.readable r) :
    ∃ v, s.readReg pt r = .next v ∧ s.readValues pt r v := by
  unfold State.readReg State.readValues
  by_cases hz : s.cfg.zeroReg = some r
  · simp [hz]
  · have hd := h.resolve_left hz
    simp only [hz, if_false]
    cases hp : s.producer r with
    | none => exact ⟨_, readPast_none s pt r _ hp, rfl⟩
    | some p =>
      by_cases hv : p.visible = true
      · exact ⟨_, readPast_visible s pt r _ p hp hv, by simp [hv]⟩
      · rcases hd with hd | hd
        · obtain ⟨v, h1, h2⟩ := readPast_draw s pt r hd s.pendingWrites
          exact ⟨v, h1, by simpa [hv] using h2⟩
        · exact absurd (hd p hp) hv

/-- With no result of r on its way, what lies behind is what the register file holds. -/
theorem behind_of_producer_none {s : State} {r : RegId} (h : s.producer r = none) :
    s.behind r = s.contents r := by
  unfold State.producer at h
  rw [List.find?_eq_none] at h
  have h3 := h _ (List.mem_cons_of_mem _ (List.mem_cons_of_mem _ (List.mem_singleton.mpr rfl)))
  unfold State.behind
  rw [if_neg h3]

/-- A register holds a value: by the policy every one does, or an instruction has written it (R24). -/
theorem portValue_of_holds {s : State} {pt : Port} {r : RegId} {c : Contents}
    (h : s.cfg.unwritten = .resetValue ∨ c.written = true) : s.portValue pt r c = c.word := by
  unfold State.portValue
  rcases h with h | h <;> simp [h]

/-- At a safe distance the value read is the sequential view's, where the register holds one. -/
theorem reg_of_readValues {s : State} {pt : Port} {r : RegId} {v : Word} (hs : s.safeDistance r)
    (hw : s.cfg.unwritten = .resetValue ∨ s.written.getLsbD r.toNat = true ∨ s.producer r ≠ none)
    (h : s.readValues pt r v) : v = s.reg r := by
  unfold State.readValues at h
  unfold State.reg
  split at h
  · next hz => simp [hz, h]
  · next hz =>
    rw [if_neg hz]
    cases hp : s.producer r with
    | none =>
      have hb := behind_of_producer_none hp
      rw [hp] at h
      have ho : s.oldValue pt r = s.rfRead r := by
        unfold State.oldValue
        rw [hb, portValue_of_holds]
        · rfl
        · simpa [hp, State.contents] using hw
      unfold State.producer at hp
      simpa [hp, ho] using h
    | some p =>
      rw [hp] at h
      have hv := hs p hp
      unfold State.producer at hp
      simpa [hp, hv] using h

theorem readSource_of_readable {s : State} {reads : Bool} {r : RegId} (pt : Port)
    (h : reads = true → s.readable r) : ∃ v, s.readSource pt reads r = .next v := by
  unfold State.readSource
  split
  · next hr =>
    obtain ⟨v, hv, -⟩ := readReg_of_readable pt (h hr)
    exact ⟨some v, by simp [hv]⟩
  · exact ⟨none, rfl⟩

/-- The operands of an instruction can be read where each register it reads can. -/
theorem readSources_of_readable {s : State} {d : Decoded} (h : s.operandsReadable d) :
    ∃ rr, s.readSources d = .next rr := by
  obtain ⟨v1, h1⟩ := readSource_of_readable .one h.1
  obtain ⟨v2, h2⟩ := readSource_of_readable .two h.2
  exact ⟨(v1, v2), by simp [State.readSources, h1, h2]⟩

end Sys2Proof.Machine
end

