-- ==== Sys2Proof/Laws/Registers.lean ====
section
/-! SUPPORT. The registers and the program counters after an instruction. -/

namespace Sys2Proof.Machine

theorem getElem_rf_set (rf : Vector Word 16) (r q : RegId) (v : Word) :
    (rf.set r.toNat v r.isLt)[q.toNat]'q.isLt = if r = q then v else rf[q.toNat]'q.isLt := by
  rw [Vector.getElem_set]
  simp only [BitVec.toNat_eq]

/-- The register file after WD's write (R22, R23, R172). -/
theorem rfRead_writeBack (s t : State) (hc : t.cfg = s.cfg) (hrf : t.rf = s.writeBack) (r : RegId) :
    t.rfRead r =
      if s.cfg.zeroReg = some r then 0
      else if s.wd.drWren = true ∧ s.wd.dr = r then s.wd.data else s.rfRead r := by
  unfold State.rfRead
  rw [hc]
  split
  · rfl
  · next hz =>
    simp only [hrf, State.writeBack]
    by_cases hw : s.wd.drWren = true
    · simp only [hw, if_true, rfWrite, true_and]
      by_cases hz' : s.cfg.zeroReg = some s.wd.dr
      · have : s.wd.dr ≠ r := fun h => hz (h ▸ hz')
        simp [hz', this]
      · simp only [hz', if_false]
        exact getElem_rf_set s.rf s.wd.dr r s.wd.data
    · simp [hw]

/-- One result after another: what a tick leaves of the results on their way, and of the register file,
shows the same registers (R22, R158). -/
theorem reg_retire (s : State) (x : DecodeExecute) (v : Word) (hx : x.ready = true) (r : RegId) :
    (s.retire x v).reg r =
      if s.cfg.zeroReg = some r then 0
      else if x.drWreq = true ∧ x.dr = r then v else s.reg r := by
  have hrf := rfRead_writeBack s (s.retire x v) rfl rfl r
  unfold State.reg
  by_cases hz : s.cfg.zeroReg = some r
  · simp [hz]
  · rw [if_neg hz] at hrf
    simp only [State.pendingWrites, State.retire_cfg, State.retire_dx, State.retire_xn, State.retire_xw,
      State.retire_wd, hrf, hx, hz, if_false, Bool.true_and, List.find?_cons, List.find?_nil]
    by_cases h0 : x.drWreq = true ∧ x.dr = r
    · simp [h0]
    · have h0' : (x.drWreq && x.dr == r) = false := by
        rw [Bool.eq_false_iff]; simpa using h0
      rw [if_neg h0, h0']
      cases s.dx.ready <;> cases s.xn.drWreq <;> cases s.xw.ready <;> cases s.xw.drWreq <;>
        cases s.wd.drWren <;> cases h1 : s.xn.dr == r <;> cases h2 : s.xw.dr == r <;>
        cases h3 : s.wd.dr == r <;> simp_all

/-- Marking one register leaves the marks of the others (R24). -/
theorem markWritten_getLsbD (m : BitVec 16) (q r : RegId) :
    (markWritten m q).getLsbD r.toNat = (m.getLsbD r.toNat || (q == r)) := by
  unfold markWritten
  rw [BitVec.getLsbD_or, BitVec.getLsbD_twoPow]
  congr 1
  have := r.isLt
  have := q.isLt
  rw [Bool.eq_iff_iff]; simp [BitVec.toNat_eq]; omega

/-- The marks after WD's write (R24). -/
theorem getLsbD_markBack (s : State) (r : RegId) :
    s.markBack.getLsbD r.toNat = (s.written.getLsbD r.toNat || (s.wd.drWren && s.wd.dr == r)) := by
  unfold State.markBack
  cases s.wd.drWren
  · simp
  · simpa using markWritten_getLsbD s.written s.wd.dr r

/-- Making WD's write again changes nothing (R179). -/
@[simp] theorem State.landed_landed (s : State) : s.landed.landed = s.landed := by
  have h1 : s.landed.writeBack = s.writeBack := by
    simp only [State.writeBack, State.landed_wd, State.landed_cfg, State.landed_rf]
    by_cases hw : s.wd.drWren = true
    · simp only [if_pos hw, rfWrite]
      split
      · rfl
      · simp
    · simp only [if_neg hw]
  have h2 : s.landed.markBack = s.markBack := by
    simp only [State.markBack, State.landed_wd, State.landed_written]
    by_cases hw : s.wd.drWren = true
    · simp only [if_pos hw, markWritten, BitVec.or_assoc, BitVec.or_self]
    · simp only [if_neg hw]
  calc s.landed.landed
      = { s.landed with rf := s.landed.writeBack, written := s.landed.markBack } := rfl
    _ = s.landed := by rw [h1, h2]; rfl

/-- A tick moves the pipeline by one instruction. -/
theorem pipelineAfter_of_advance {s t : State} (hc : t.cfg = s.cfg) (hrf : t.rf = s.writeBack)
    (hw : t.written = s.markBack) (ho : t.wdOld = s.landed.contents s.xw.dr)
    (hwd : t.wd = ⟨s.xw.data, s.xw.dr, s.xw.ready && s.xw.drWreq⟩)
    (hxw : t.xw = ⟨s.xn.data, s.xn.dr, s.dx.ready && s.xn.drWreq, s.dx.ready⟩) :
    PipelineAfter s t := by
  refine ⟨fun r => rfRead_writeBack s t hc hrf r, fun r => ?_, ?_, hwd, hxw⟩
  · rw [hw]; exact getLsbD_markBack s r
  · rw [ho]
    simp only [State.contents, State.rfRead, hc, hrf, hw, State.landed_cfg, State.landed_rf,
      State.landed_written]
    rfl

theorem pcsAfter_nextPcs (s t : State) (target : Option Word)
    (h1 : t.pc = (nextPcs s.cfg s.pc s.npc target).1)
    (h2 : t.npc = (nextPcs s.cfg s.pc s.npc target).2) : PcsAfter s t target := by
  unfold PcsAfter
  unfold nextPcs at h1 h2
  split at h1
  · next h => rw [if_pos h] at h2 ⊢; exact ⟨h1, h2⟩
  · next h => rw [if_neg h] at h2 ⊢; exact ⟨h1, by rw [h2, h1]⟩

end Sys2Proof.Machine
end

