-- ==== Sys2Proof/Laws/Exec.lean ====
section
/-! SUPPORT. What each stage of an instruction can do, said once: the decode stage's output, the execute
stage's frame, and the inversion of `exec`. -/

namespace Sys2Proof.Machine

/-- What every instruction's DX says of it (R150, R153 to R156, R243). -/
structure IssuedAs (i : Instr) (s : State) (dx : DecodeExecute) : Prop where
  ready : dx.ready = true
  word : dx.word = i.fields.word
  dr : dx.dr = i.fields.dr
  drWreq : dx.drWreq = i.fields.drWreq
  flags : dx.flags = classFlags i.cls
  jalAddr : dx.jalAddr = s.pc + 2
  target : i.cls ≠ .ct → i.cls ≠ .jal → dx.target = none

/-- An instruction that is no control transfer: its operands are read, and DX is formed from them. -/
theorem issue_eq_next {s : State} {c : InsnClass} {d : Decoded} {dx : DecodeExecute} :
    s.issue c d = .next dx ↔ ∃ rr, s.readSources d = .next rr ∧ dx = s.decodedAs c d rr := by
  simp only [State.issue, andThen_eq_next, Host.Outcome.next.injEq]
  exact ⟨fun ⟨rr, h, e⟩ => ⟨rr, h, e.symm⟩, fun ⟨rr, h, e⟩ => ⟨rr, h, e.symm⟩⟩

/-- A control transfer: its operands are read, it is in no delay slot, its target is not misaligned. -/
theorem issueTransfer_eq_next {s : State} {c : InsnClass} {d : Decoded} {dx : DecodeExecute} :
    s.issueTransfer c d = .next dx ↔ ∃ rr, s.readSources d = .next rr ∧ s.inDelaySlot = false ∧
      ((branchUnitFn s.cfg.fns d.word rr.1 rr.2 s.pc).1 = true →
        targetMisaligned s.cfg.insnStep (branchUnitFn s.cfg.fns d.word rr.1 rr.2 s.pc).2 = false) ∧
      dx = { s.decodedAs c d rr with
        target := if (branchUnitFn s.cfg.fns d.word rr.1 rr.2 s.pc).1 then
          some (branchUnitFn s.cfg.fns d.word rr.1 rr.2 s.pc).2 else none } := by
  simp only [State.issueTransfer, andThen_eq_next]
  constructor
  · rintro ⟨rr, h1, h2⟩
    refine ⟨rr, h1, ?_⟩
    split at h2
    · cases h2
    · next hs =>
      split at h2
      · cases h2
      · next hm =>
        cases h2
        exact ⟨by simpa using hs, fun hb => by simpa [hb] using hm, rfl⟩
  · rintro ⟨rr, h1, hs, hm, rfl⟩
    refine ⟨rr, h1, ?_⟩
    have : ((branchUnitFn s.cfg.fns d.word rr.1 rr.2 s.pc).1 &&
        targetMisaligned s.cfg.insnStep (branchUnitFn s.cfg.fns d.word rr.1 rr.2 s.pc).2) = false := by
      cases hb : (branchUnitFn s.cfg.fns d.word rr.1 rr.2 s.pc).1
      · rfl
      · simpa using hm hb
    simp [hs, this]

theorem issuedAs_of_next {i : Instr} {s : State} {dx : DecodeExecute}
    (h : issueInstr i s = .next dx) : IssuedAs i s dx := by
  cases i
  case jal d | ct d =>
    obtain ⟨rr, -, -, -, rfl⟩ := issueTransfer_eq_next.mp h
    constructor <;> simp [State.decodedAs, Instr.fields, Instr.cls]
  all_goals
    obtain ⟨rr, -, rfl⟩ := issue_eq_next.mp h
    constructor <;> simp [State.decodedAs, Instr.fields, Instr.cls]

/-- The execute stage changes data memory, events and what the refusals remember, and nothing else. -/
def PerformFrame (s u : State) : Prop :=
  u = { s with dmem := u.dmem, events := u.events, dmaIssued := u.dmaIssued, accesses := u.accesses }

theorem PerformFrame.refl (s : State) : PerformFrame s s := rfl

theorem access_frame {s u : State} {a : Word} {w : Bool} (h : s.access a w = .next u) :
    u = { s with accesses := u.accesses } := by
  unfold State.access at h
  split at h
  · cases h
  · cases h
    unfold State.recordAccess
    split <;> rfl

theorem performFlagged_frame {n : Nat} {dx : DecodeExecute} {s u : State} {v : Word}
    (h : performFlagged n dx s = .next (u, v)) : PerformFrame s u := by
  unfold performFlagged performStore performLoad performMorphDma performRcrisc performMorph performJal
    performAlu performShift performCmp performLdli performLdui performCt at h
  split at h
  · split at h
    · obtain ⟨t, ht, h⟩ := andThen_eq_next.mp h
      cases h
      rw [access_frame ht]; rfl
    · obtain ⟨t, ht, h⟩ := andThen_eq_next.mp h
      cases h
      rw [access_frame ht]; rfl
  all_goals repeat' (first | (cases h; rfl) | split at h)

/-- The execute stage leaves data memory as it was, or makes the one write of R225. -/
theorem performFlagged_dmem {n : Nat} {dx : DecodeExecute} {s u : State} {v : Word}
    (h : performFlagged n dx s = .next (u, v)) :
    u.dmem = s.dmem ∨ u.dmem = (s.writeData dx.maddr dx.mdata).dmem := by
  unfold performFlagged performStore performLoad performMorphDma performRcrisc performMorph performJal
    performAlu performShift performCmp performLdli performLdui performCt at h
  split at h
  · split at h
    · obtain ⟨t, ht, h⟩ := andThen_eq_next.mp h
      cases h; right; rw [access_frame ht]; rfl
    · obtain ⟨t, ht, h⟩ := andThen_eq_next.mp h
      cases h
      left; rw [access_frame ht]
  all_goals left; repeat' (first | (cases h; rfl) | split at h)

/-- The execute stage looks at the parameters, data memory, events and what the refusals remember, and at
nothing else: on states that agree on these it does the same. -/
theorem performFlagged_congr {n : Nat} {dx : DecodeExecute} {s t : State} (h1 : t.cfg = s.cfg)
    (h2 : t.dmem = s.dmem) (h3 : t.events = s.events) (h4 : t.dmaIssued = s.dmaIssued)
    (h5 : t.accesses = s.accesses) :
    performFlagged n dx t = andThen (performFlagged n dx s) fun r =>
      .next ({ t with
        dmem := r.1.dmem
        events := r.1.events
        dmaIssued := r.1.dmaIssued
        accesses := r.1.accesses }, r.2) := by
  obtain ⟨_, rf, written, pc, npc, imem, _, fd, dx0, xn, xw, wd, wo, sig, _, _, _, draws⟩ := s
  obtain ⟨cfg, rf', written', pc', npc', imem', dmem, fd', dx0', xn', xw', wd', wo', sig', events, dma, acc,
    draws'⟩ := t
  dsimp only at h1 h2 h3 h4 h5
  subst h1 h2 h3 h4 h5
  unfold performFlagged performStore performLoad performMorphDma performRcrisc performMorph performJal
    performAlu performShift performCmp performLdli performLdui performCt State.access State.recordAccess
  dsimp only
  split
  · have hr : ∀ a, State.accessRefusal ⟨cfg, rf, written, pc, npc, imem, dmem, fd, dx0, xn, xw, wd,
        wo, sig, events, dma, acc, draws⟩ a = State.accessRefusal ⟨cfg, rf', written', pc', npc', imem', dmem, fd',
          dx0', xn', xw', wd', wo', sig', events, dma, acc, draws'⟩ a := fun _ => rfl
    rw [hr]
    split <;> cases State.accessRefusal _ _ <;> dsimp only [andThen] <;> split <;> rfl
  · repeat' (first | rfl | split)

/-- An instruction goes through the decode stage's work and the execute stage's, as its flags say. -/
theorem exec_eq_stages (i : Instr) (s : State) :
    exec i s = throughStages (issueInstr i s) fun dx => performFlagged s.draws dx s := by
  have key : ∀ f : DecodeExecute → Host.Outcome (State × Word) Fault Refusal,
      (∀ dx, issueInstr i s = .next dx → f dx = performFlagged s.draws dx s) →
      throughStages (issueInstr i s) f =
        throughStages (issueInstr i s) fun dx => performFlagged s.draws dx s := by
    intro f h
    cases ho : issueInstr i s with
    | next dx => simp [throughStages, h dx ho]
    | fault r => rfl
    | refused r => rfl
  cases i <;>
  · refine key _ fun dx hdx => ?_
    have hf := (issuedAs_of_next hdx).flags
    simp only [Instr.cls, classFlags] at hf
    simp [performFlagged, hf, ClassFlags.none]

/-- When an instruction completes: the decode stage answered DX, the execute stage a state and a result,
and the pipeline moved. -/
theorem exec_next_inv {i : Instr} {s t : State} (h : exec i s = .next t) :
    ∃ dx u v, issueInstr i s = .next dx ∧ IssuedAs i s dx ∧
      performFlagged s.draws dx s = .next (u, v) ∧ PerformFrame s u ∧ t = u.retire dx v := by
  rw [exec_eq_stages, throughStages] at h
  obtain ⟨dx, hdx, h⟩ := andThen_eq_next.mp h
  obtain ⟨⟨u, v⟩, hu, h⟩ := andThen_eq_next.mp h
  cases h
  exact ⟨dx, u, v, hdx, issuedAs_of_next hdx, hu, performFlagged_frame hu, rfl⟩

/-- When a step answers, it fetched a word, decoded it, and executed the instruction. -/
theorem step_next_inv {s t : State} (h : step s = .next t) :
    ∃ w i, s.fetchWord s.pc = .next w ∧ s.decodeWord w = .next i ∧ exec i (s.loadFd w) = .next t := by
  obtain ⟨w, hw, h⟩ := andThen_eq_next.mp h
  obtain ⟨i, hi, h⟩ := andThen_eq_next.mp h
  exact ⟨w, i, hw, hi, h⟩

end Sys2Proof.Machine
end

