-- ==== Sys2Proof/Laws/Cycle.lean ====
section
/-! SUPPORT. What one clock cycle of the signal view can do, said once: the execute stage's frame, the
decode stage's answer, and the inversion of `cycle`. -/

namespace Sys2Proof.Machine

/-- A cycle of the execute stage changes data memory, events, what the refusals remember, the forwarding
path and the stage's own state, and nothing else. -/
def ExecuteFrame (s u : State) : Prop :=
  u = { s with
    dmem := u.dmem
    events := u.events
    dmaIssued := u.dmaIssued
    accesses := u.accesses
    xn := u.xn
    sig := { s.sig with
      execDone := u.sig.execDone
      begun := u.sig.begun
      transfer := u.sig.transfer
      cache := u.sig.cache } }

/-- One cycle of the execute stage: an empty slot; an instruction finished before; a MorphoSys operation that does
not begin under an f_stall; an instruction that waits; one performed in this cycle (R133, R149, R181, R265). -/
inductive ExecuteCase (inp : Inputs) (s : State) (e : ExecuteCycle) : Prop
  | empty (h : s.dx.ready = false) (he : e = ⟨s.withoutResult, false, idlePins, idleCore⟩)
  | finished (v : Word) (h : s.dx.ready = true) (hd : s.sig.execDone = some v)
      (he : e = ⟨s.withResult s.dx v, s.morphHeld inp, idlePins, idleCore⟩)
  | barred (h : s.dx.ready = true) (hd : s.sig.execDone = none) (hb : s.morphBarred inp = true)
      (he : e = ⟨s.withoutResult, s.morphHeld inp, idlePins, idleCore⟩)
  | waits (acc : AccessCycle) (h : s.dx.ready = true) (hd : s.sig.execDone = none)
      (hb : s.morphBarred inp = false)
      (ha : acc = if s.dx.flags.memOp then accessCycle inp s else noAccess s)
      (hw : acc.ack = false ∨ s.morphHeld inp = true)
      (he : e = ⟨{ s.withoutResult with
        sig := { s.sig with begun := true, cache := acc.cache, transfer := acc.transfer } }, true,
          acc.pins, acc.core⟩)
  | performed (acc : AccessCycle) (u : State) (v : Word) (h : s.dx.ready = true)
      (hd : s.sig.execDone = none) (hb : s.morphBarred inp = false)
      (ha : acc = if s.dx.flags.memOp then accessCycle inp s else noAccess s)
      (hack : acc.ack = true) (hm : s.morphHeld inp = false)
      (hp : performFlagged (s.draws - 1) s.dx
        { s with sig := { s.sig with begun := true, cache := acc.cache, transfer := acc.transfer } } =
          .next (u, v))
      (he : e = ⟨{ u.withResult s.dx v with sig := { u.sig with execDone := some v } }, false,
        acc.pins, acc.core⟩)

theorem executeCycle_cases {inp : Inputs} {s : State} {e : ExecuteCycle}
    (h : executeCycle inp s = .next e) : ExecuteCase inp s e := by
  unfold executeCycle at h
  split at h
  · next hr => cases h; exact .empty (by simpa using hr) rfl
  · next hr =>
    have hr : s.dx.ready = true := by simpa using hr
    split at h
    · next v hv => cases h; exact .finished v hr hv rfl
    · next hv =>
      split at h
      · next hb => cases h; exact .barred hr hv hb rfl
      · next hb =>
        have hb : s.morphBarred inp = false := by simpa using hb
        generalize hacc : (if s.dx.flags.memOp then accessCycle inp s else noAccess s) = acc at h
        dsimp only at h
        split at h
        · next hw => cases h; exact .waits acc hr hv hb hacc.symm (by simpa using hw) rfl
        · next hw =>
          obtain ⟨⟨u, v⟩, hu, h⟩ := andThen_eq_next.mp h
          cases h
          simp only [Bool.or_eq_true, Bool.not_eq_true', not_or, Bool.not_eq_false, Bool.not_eq_true] at hw
          exact .performed acc u v hr hv hb hacc.symm hw.1 hw.2 hu rfl

theorem executeCycle_frame {inp : Inputs} {s : State} {e : ExecuteCycle}
    (h : executeCycle inp s = .next e) : ExecuteFrame s e.state := by
  cases executeCycle_cases h with
  | empty h he => subst he; rfl
  | finished v h hd he => subst he; rfl
  | barred h hd hb he => subst he; rfl
  | waits acc h hd hb ha hw he => subst he; rfl
  | performed acc u v h hd hb ha hack hm hp he =>
    subst he
    rw [performFlagged_frame hp]
    rfl

/-- The decode stage loads DX with what the instruction in FD is decoded to, or with nothing (R132). -/
theorem decodeCycle_cases {s : State} {o : Option DecodeExecute} (h : decodeCycle s = .next o) :
    (s.fd.ready = false ∧ o = none) ∨
      (s.fd.ready = true ∧ s.storedTo s.fd.pc = false ∧ ∃ i dx, s.decodeWord s.fd.word = .next i ∧
        issueInstr i { s with pc := s.fd.pc } = .next dx ∧ o = some dx) := by
  unfold decodeCycle at h
  split at h
  · next hr =>
    split at h
    · cases h
    · next hs =>
      obtain ⟨i, hi, h⟩ := andThen_eq_next.mp h
      obtain ⟨dx, hdx, h⟩ := andThen_eq_next.mp h
      cases h
      exact .inr ⟨hr, by simpa using hs, i, dx, hi, hdx, rfl⟩
  · next hr => cases h; exact .inl ⟨by simpa using hr, rfl⟩

/-- A fetch that completes brings the instruction placed at the address on IA, or, while the outcome of a control
transfer is not known, nothing where none is to be had (R57, U12). -/
theorem fetchBrings_cases {s : State} {g : FetchedWord} (h : s.fetchBrings = .next g) :
    (∃ w, s.fetchWord s.iaAddr = .next w ∧ g = ⟨s.iaAddr, some w⟩) ∨
      (s.awaitsBranch = true ∧ (∀ w, s.fetchWord s.iaAddr ≠ .next w) ∧ g = ⟨s.iaAddr, none⟩) := by
  unfold State.fetchBrings at h
  cases hw : s.fetchWord s.iaAddr <;> cases ha : s.awaitsBranch <;> simp_all

/-- What the fetch stage has at the end of a cycle: nothing at END_PC, nothing before INSACK, else what was fetched
before or what the fetch brings (R51, R54, R55). -/
theorem fetchCycle_cases {inp : Inputs} {s : State} {f : Option FetchedWord}
    (h : fetchCycle inp s = .next f) :
    (s.fetchEnds = true ∧ f = none) ∨ (s.fetchEnds = false ∧ s.fetchStalls inp = true ∧ f = none) ∨
    (s.fetchEnds = false ∧ s.fetchStalls inp = false ∧
      ((∃ w, s.fetchedAlready = some ⟨s.iaAddr, some w⟩ ∧ f = some ⟨s.iaAddr, some w⟩) ∨
        ((s.fetchedAlready = none ∨ s.fetchedAlready = some ⟨s.iaAddr, none⟩) ∧
          ∃ g, s.fetchBrings = .next g ∧ f = some g))) := by
  unfold fetchCycle at h
  cases he : s.fetchEnds
  · cases hs : s.fetchStalls inp
    · refine .inr (.inr ⟨rfl, rfl, ?_⟩)
      rw [he, hs] at h
      cases ha : s.fetchedAlready with
      | none =>
        rw [ha] at h
        obtain ⟨g, hg, h⟩ := andThen_eq_next.mp h
        cases h
        exact .inr ⟨.inl rfl, g, hg, rfl⟩
      | some x =>
        obtain ⟨a, w⟩ := x
        cases (show a = s.iaAddr by simpa using (Option.filter_eq_some_iff.mp ha).2)
        rw [ha] at h
        cases w with
        | none =>
          obtain ⟨g, hg, h⟩ := andThen_eq_next.mp h
          cases h
          exact .inr ⟨.inr rfl, g, hg, rfl⟩
        | some w => cases h; exact .inl ⟨w, rfl, rfl⟩
    · rw [he, hs] at h; cases h; exact .inr (.inl ⟨rfl, rfl, rfl⟩)
  · rw [he] at h; cases h; exact .inl ⟨rfl, rfl⟩

/-- An instruction fetched before is held, and was fetched from the address on IA (R55). -/
theorem fetchedAlready_eq_some {s : State} {h : FetchedWord} :
    s.fetchedAlready = some h ↔ s.sig.fetchHold = some h ∧ h.pc = s.iaAddr := by
  simp [State.fetchedAlready, Option.filter_eq_some_iff]

/-- Where IR is deasserted the run's end is reached or the fetch was made before; where it is asserted, neither. -/
theorem fetchEnabled_eq_true {s : State} :
    s.fetchEnabled = true ↔ s.fetchEnds = false ∧ s.fetchedAlready = none := by
  simp [State.fetchEnabled]

/-- What the fetch stage has is of the address on IA. -/
theorem fetchCycle_pc {inp : Inputs} {s : State} {w : FetchedWord}
    (h : fetchCycle inp s = .next (some w)) : w.pc = s.iaAddr := by
  rcases fetchCycle_cases h with ⟨-, hv⟩ | ⟨-, -, hv⟩ | ⟨-, -, ⟨v, -, hv⟩ | ⟨-, g, hg, hv⟩⟩
  · cases hv
  · cases hv
  · cases hv; rfl
  · cases hv
    rcases fetchBrings_cases hg with ⟨-, -, rfl⟩ | ⟨-, -, rfl⟩ <;> rfl

/-- Under DELAY_SLOTS = 1 the registered d_chg_pc alone steers IA (R147, R180). -/
theorem iaAddr_of_delaySlot {s : State} (h : s.cfg.delaySlot = true) : s.iaAddr = s.fetchAddr := by
  simp [State.iaAddr, State.branchesTo, h]

/-- Where decode holds no instruction, nothing but the registers steers IA. -/
theorem iaAddr_of_empty {s : State} (h : s.fd.ready = false) : s.iaAddr = s.fetchAddr := by
  simp [State.iaAddr, State.branchesTo, State.branchTarget, h]

/-- The execute stage shows its instruction's result, or is empty, but where the instruction waits: then it was not
done before, and the stage stalls, or the MorphoSys operation may not begin under the f_stall (R149, R265). -/
theorem hasResult_eq_false {inp : Inputs} {s : State} {e : ExecuteCycle} (h : executeCycle inp s = .next e) :
    e.state.hasResult = false ↔
      s.dx.ready = true ∧ s.sig.execDone = none ∧ (e.stall = true ∨ s.morphBarred inp = true) := by
  cases executeCycle_cases h with
  | empty hr he => subst he; simp [State.hasResult, hr]
  | finished v hr hd he => subst he; simp [State.hasResult, hd]
  | barred hr hd hb he => subst he; simp [State.hasResult, hd, hr, hb]
  | waits acc hr hd hb ha hw he => subst he; simp [State.hasResult, hr, hd]
  | performed acc u v hr hd hb ha hack hm hp he => subst he; simp [State.hasResult, hb]

/-- A MorphoSys operation that may not begin has the fetch stage's f_stall beside it. -/
theorem fetchStalls_of_barred {inp : Inputs} {s : State} {e : ExecuteCycle} (h : executeCycle inp s = .next e)
    (hr : s.dx.ready = true) (hd : s.sig.execDone = none) (hb : s.morphBarred inp = true) :
    e = ⟨s.withoutResult, s.morphHeld inp, idlePins, idleCore⟩ ∧ e.state.fetchStalls inp = true := by
  cases executeCycle_cases h with
  | empty hr' he => simp [hr] at hr'
  | finished v hr' hd' he => simp [hd] at hd'
  | waits acc hr' hd' hb' ha hw he => simp [hb] at hb'
  | performed acc u v hr' hd' hb' ha hack hm hp he => simp [hb] at hb'
  | barred hr' hd' hb' he =>
    subst he
    simp only [State.morphBarred, Bool.and_eq_true] at hb
    exact ⟨rfl, hb.2⟩

/-- In a tick of sCLOCK the execute stage has a result to show, or is empty. -/
theorem hasResult_of_executeCycle {inp : Inputs} {s : State} {e : ExecuteCycle}
    (h : executeCycle inp s = .next e) (hs : e.stall = false) (hf : e.state.fetchStalls inp = false) :
    e.state.hasResult = true := by
  by_contra hn
  obtain ⟨hr, hd, hx⟩ := (hasResult_eq_false h).mp (by simpa using hn)
  rcases hx with hx | hx
  · simp [hs] at hx
  · simp [(fetchStalls_of_barred h hr hd hx).2] at hf

/-- What a fetched word is: the one placed at the bus address (R57). -/
theorem memLookup_of_fetchWord {s : State} {a w : Word} (h : s.fetchWord a = .next w) :
    memLookup s.imem (busAddr s.cfg.variant a) = some w := by
  unfold State.fetchWord at h
  split at h
  · cases h
  · split at h
    · next hw => cases h; exact hw
    · cases h

/-- When a cycle answers: cache_en is the run's, the three stages answered, and everything holds or
everything advances (R85, R176, R177). -/
theorem cycle_next_inv {inp : Inputs} {s t : State} {sig : Signals}
    (h : cycle inp s = .next (t, sig)) :
    ∃ e f, executeCycle inp s = .next e ∧ fetchCycle inp e.state = .next f ∧ sig = signalsOf inp s e f ∧
      (((e.state.fetchStalls inp || e.stall) = true ∧ t = e.state.held f) ∨
        ((e.state.fetchStalls inp || e.stall) = false ∧ ∃ dx, decodeCycle e.state = .next dx ∧
          t = e.state.ticked dx f)) := by
  unfold cycle at h
  split at h
  · cases h
  · obtain ⟨e, he, h⟩ := andThen_eq_next.mp h
    split at h
    · next hs =>
      obtain ⟨f, hf, h⟩ := andThen_eq_next.mp h
      cases h
      exact ⟨e, f, he, hf, rfl, .inl ⟨hs, rfl⟩⟩
    · next hs =>
      obtain ⟨dx, hdx, h⟩ := andThen_eq_next.mp h
      obtain ⟨f, hf, h⟩ := andThen_eq_next.mp h
      cases h
      exact ⟨e, f, he, hf, rfl, .inr ⟨by simpa using hs, dx, hdx, rfl⟩⟩

/-- A stalled cycle holds (R177). -/
theorem cycle_stall_inv {inp : Inputs} {s t : State} {sig : Signals}
    (h : cycle inp s = .next (t, sig)) (hs : sig.pStall = true) :
    ∃ e f, executeCycle inp s = .next e ∧ fetchCycle inp e.state = .next f ∧
      (e.state.fetchStalls inp || e.stall) = true ∧ t = e.state.held f ∧ sig = signalsOf inp s e f := by
  obtain ⟨e, f, he, hf, rfl, ⟨hn, rfl⟩ | ⟨hn, -⟩⟩ := cycle_next_inv h
  · exact ⟨e, f, he, hf, hn, rfl, rfl⟩
  · rw [show (signalsOf inp s e f).pStall = (e.state.fetchStalls inp || e.stall) from rfl, hn] at hs
    cases hs

/-- A cycle that is not stalled advances (R177). -/
theorem cycle_tick_inv {inp : Inputs} {s t : State} {sig : Signals}
    (h : cycle inp s = .next (t, sig)) (hs : sig.pStall = false) :
    ∃ e f dx, executeCycle inp s = .next e ∧ fetchCycle inp e.state = .next f ∧
      decodeCycle e.state = .next dx ∧ e.state.fetchStalls inp = false ∧ e.stall = false ∧
      t = e.state.ticked dx f ∧ sig = signalsOf inp s e f := by
  obtain ⟨e, f, he, hf, rfl, ⟨hn, rfl⟩ | ⟨hn, dx, hd, rfl⟩⟩ := cycle_next_inv h
  · rw [show (signalsOf inp s e f).pStall = (e.state.fetchStalls inp || e.stall) from rfl, hn] at hs
    cases hs
  · rw [Bool.or_eq_false_iff] at hn
    exact ⟨e, f, dx, he, hf, hd, hn.1, hn.2, rfl, rfl⟩

/-- In a tick of sCLOCK the fetch stage has the instruction at the address on IA, or the run's end is there. -/
theorem fetchCycle_tick {inp : Inputs} {s : State} {f : Option FetchedWord}
    (h : fetchCycle inp s = .next f) (hs : s.fetchStalls inp = false) (hr : s.hasResult = true) :
    (s.fetchEnds = true ∧ f = none) ∨ (s.fetchEnds = false ∧ ∃ w, f = some ⟨s.iaAddr, some w⟩ ∧
      (s.sig.fetchHold = some ⟨s.iaAddr, some w⟩ ∨
        (∀ v, s.sig.fetchHold ≠ some ⟨s.iaAddr, some v⟩) ∧
          memLookup s.imem (busAddr s.cfg.variant s.iaAddr) = some w)) := by
  rcases fetchCycle_cases h with ⟨he, hf⟩ | ⟨-, hn, -⟩ | ⟨he, -, ⟨w, hw, rfl⟩ | ⟨hn, g, hg, rfl⟩⟩
  · exact .inl ⟨he, hf⟩
  · simp [hs] at hn
  · exact .inr ⟨he, w, rfl, .inl (fetchedAlready_eq_some.mp hw).1⟩
  · rcases fetchBrings_cases hg with ⟨w, hw, rfl⟩ | ⟨ha, -⟩
    · refine .inr ⟨he, w, rfl, .inr ⟨fun v hv => ?_, memLookup_of_fetchWord hw⟩⟩
      have : s.fetchedAlready = some ⟨s.iaAddr, some v⟩ := fetchedAlready_eq_some.mpr ⟨hv, rfl⟩
      rcases hn with hn | hn <;> simp [hn] at this
    · simp [State.awaitsBranch, hr] at ha

/-- A word decodes where one row alone matches it, to what that row says (R111). -/
theorem decodeWord_eq_next {s : State} {w : Word} {i : Instr} :
    s.decodeWord w = .next i ↔
      ∃ r, matchingRows s.cfg.enc w = [r] ∧ i = instrOf r.cls (decodedFields s.cfg.enc r w) := by
  unfold State.decodeWord decode
  rcases matchingRows s.cfg.enc w with _ | ⟨r, _ | ⟨q, l⟩⟩
  · simp
  · simp [eq_comm]
  · simp

/-- The decoded instruction carries its word. -/
theorem decodeWord_word {s : State} {w : Word} {i : Instr} (h : s.decodeWord w = .next i) :
    i.fields.word = w := by
  obtain ⟨r, -, rfl⟩ := decodeWord_eq_next.mp h
  cases r.cls <;> rfl

/-! What a state of the signal view settles to, by what the execute stage has done. -/

theorem settle_empty {s : State} (h : s.dx.ready = false) : s.settle = .next s.withoutResult := by
  unfold State.settle; rw [if_pos (by simp [h])]

theorem settle_finished {s : State} {v : Word} (h : s.dx.ready = true) (hd : s.sig.execDone = some v) :
    s.settle = .next (s.withResult s.dx v) := by
  unfold State.settle; rw [if_neg (by simp [h]), hd]

theorem settle_waiting {s : State} (h : s.dx.ready = true) (hd : s.sig.execDone = none) :
    s.settle = andThen (performFlagged (s.draws - 1) s.dx s) fun r =>
      .next (r.1.withResult s.dx r.2) := by
  unfold State.settle; rw [if_neg (by simp [h]), hd]

end Sys2Proof.Machine
end

