-- ==== Sys2Proof/Laws/Shared.lean ====
section
/-! SUPPORT. What the two views share (`State.shared`) is all that registers, reads and steps look at: each
of them says the same of a state and of its shared part. -/

namespace Sys2Proof.Machine

/-- A register that WD does not write holds after the write what it held before (R22, R24). -/
theorem contents_landed {s : State} {r : RegId} (h : (s.wd.drWren && s.wd.dr == r) = false) :
    s.landed.contents r = s.contents r := by
  have h1 := rfRead_writeBack s s.landed rfl rfl r
  have h2 := getLsbD_markBack s r
  rw [h, Bool.or_false] at h2
  have h3 : ¬(s.wd.drWren = true ∧ s.wd.dr = r) := by simpa using h
  rw [if_neg h3] at h1
  unfold State.contents
  rw [State.landed_written, h2, h1]
  congr 1
  unfold State.rfRead
  split <;> rfl

theorem writeBack_of_not {s : State} (h : s.wd.drWren = false) : s.writeBack = s.rf := by
  simp [State.writeBack, h]

theorem markBack_of_not {s : State} (h : s.wd.drWren = false) : s.markBack = s.written := by
  simp [State.markBack, h]

theorem landed_of_not {s : State} (h : s.wd.drWren = false) : s.landed = s := by
  unfold State.landed
  rw [writeBack_of_not h, markBack_of_not h]

/-- Past a result that writes nothing, a read goes on. -/
theorem readPast_cons_not (s : State) (p : Port) (r : RegId) {w : PendingWrite} (h : w.writes = false)
    (ws : List PendingWrite) : s.readPast p r (w :: ws) = s.readPast p r ws := by
  simp [State.readPast, h]

/-- Two results that write, or do not write, the same. -/
theorem readPast_cons_congr {s t : State} {p : Port} {r : RegId} {v w : PendingWrite}
    {vs ws : List PendingWrite} (hh : t.cfg = s.cfg) (hd : t.draws = s.draws)
    (h : v = w ∨ v.writes = false ∧ w.writes = false)
    (ih : t.readPast p r vs = s.readPast p r ws) :
    t.readPast p r (v :: vs) = s.readPast p r (w :: ws) := by
  rcases h with rfl | ⟨h1, h2⟩
  · simp only [State.readPast, ih, hh, hd]
  · rw [readPast_cons_not _ _ _ h1, readPast_cons_not _ _ _ h2, ih]

/-- The results on their way are the same, but for those that write nothing. -/
theorem pendingWrites_shared (s : State) :
    ∃ v1 v2 v3 w1 w2 w3, s.shared.pendingWrites = [v1, v2, v3] ∧ s.pendingWrites = [w1, w2, w3] ∧
      (v1 = w1 ∨ v1.writes = false ∧ w1.writes = false) ∧
      (v2 = w2 ∨ v2.writes = false ∧ w2.writes = false) ∧
      (v3 = w3 ∨ v3.writes = false ∧ w3.writes = false) := by
  refine ⟨_, _, _, _, _, _, rfl, rfl, ?_, ?_, ?_⟩
  · cases h : s.dx.ready
    · right; simp [State.shared, h, DecodeExecute.empty]
    · left; simp [State.shared, h]
  · cases h : s.xw.ready
    · right; simp [State.shared, h]
    · left; simp [State.shared, h]
  · cases h : s.wd.drWren
    · right; simp [State.shared, h]
    · left; simp [State.shared, h]

/-- What lies behind the results on their way is the same. -/
theorem behind_shared (s : State) (r : RegId) : s.shared.behind r = s.behind r := by
  unfold State.behind
  cases h : s.wd.drWren
  · have h1 : s.shared.wd.drWren = false := by simp [State.shared, h]
    rw [h1]
    simp only [Bool.false_and, Bool.false_eq_true, if_false]
    have : s.shared.contents r = s.landed.contents r := rfl
    rw [this, landed_of_not h]
  · have h1 : s.shared.wd = s.wd := by simp [State.shared, h]
    have h2 : s.shared.wdOld = s.wdOld := by simp [State.shared, h]
    rw [h1, h2, h]
    simp only [Bool.true_and]
    split
    · rfl
    · next hn =>
      have : s.shared.contents r = s.landed.contents r := rfl
      rw [this, contents_landed]
      simpa [h] using hn

theorem readReg_shared (s : State) (p : Port) (r : RegId) : s.shared.readReg p r = s.readReg p r := by
  unfold State.readReg
  rw [show s.shared.cfg = s.cfg from rfl]
  split
  · rfl
  · obtain ⟨v1, v2, v3, w1, w2, w3, hv, hw, h1, h2, h3⟩ := pendingWrites_shared s
    rw [hv, hw]
    refine readPast_cons_congr rfl rfl h1 (readPast_cons_congr rfl rfl h2
      (readPast_cons_congr rfl rfl h3 ?_))
    show Host.Outcome.next _ = _
    rw [State.oldValue, behind_shared]
    rfl

theorem readSources_shared (s : State) (d : Decoded) : s.shared.readSources d = s.readSources d := by
  simp only [State.readSources, State.readSource, readReg_shared]

theorem inDelaySlot_shared (s : State) : s.shared.inDelaySlot = s.inDelaySlot := by
  unfold State.inDelaySlot
  cases h : s.dx.ready <;> simp [State.shared, h, DecodeExecute.empty]

/-- The decode stage looks at the shared part alone. -/
theorem issueInstr_shared (i : Instr) (s : State) : issueInstr i s.shared = issueInstr i s := by
  cases i <;>
    simp only [issueInstr, issueAlu, issueShift, issueCmp, issueLdli, issueLdui, issueLoad, issueStore,
      issueJal, issueCt, issueMorph, issueMorphDma, issueRcrisc, State.issue, State.issueTransfer,
      readSources_shared, inDelaySlot_shared] <;> rfl

/-- The registers of the sequential view are in the shared part. -/
theorem reg_shared (s : State) (r : RegId) : s.shared.reg r = s.reg r := by
  unfold State.reg
  rw [show s.shared.cfg = s.cfg from rfl]
  split
  · rfl
  · next hz =>
    obtain ⟨v1, v2, v3, w1, w2, w3, hv, hw, h1, h2, h3⟩ := pendingWrites_shared s
    have key : ∀ {v w : PendingWrite} {vs ws : List PendingWrite} {a b : Word},
        (v = w ∨ v.writes = false ∧ w.writes = false) →
        ((vs.find? fun p => p.writes && p.reg == r).map (·.data)).getD a =
          ((ws.find? fun p => p.writes && p.reg == r).map (·.data)).getD b →
        (((v :: vs).find? fun p => p.writes && p.reg == r).map (·.data)).getD a =
          (((w :: ws).find? fun p => p.writes && p.reg == r).map (·.data)).getD b := by
      rintro v w vs ws a b (rfl | ⟨g1, g2⟩) ih
      · simp only [List.find?_cons]
        split
        · rfl
        · exact ih
      · simp only [List.find?_cons, g1, g2, Bool.false_and]
        exact ih
    have hrf := rfRead_writeBack s s.landed rfl rfl r
    rw [if_neg hz] at hrf
    by_cases hwr : s.wd.drWren = true ∧ s.wd.dr = r
    · rw [hv, hw]
      refine key h1 (key h2 ?_)
      have hw3 : w3 = ⟨3, s.wd.drWren, s.wd.dr, s.wd.data, s.cfg.rfHazardFree⟩ := by
        simp only [State.pendingWrites, List.cons.injEq, and_true] at hw
        exact hw.2.2.symm
      have hv3 : v3 = w3 := by
        rcases h3 with h | ⟨-, h⟩
        · exact h
        · rw [hw3] at h; simp [hwr.1] at h
      rw [hv3, hw3]
      simp [hwr.1, hwr.2]
    · rw [if_neg hwr] at hrf
      have : s.shared.rfRead r = s.landed.rfRead r := rfl
      rw [this, hrf, hv, hw]
      exact key h1 (key h2 (key h3 rfl))

/-- The shared part of the shared part is itself. -/
@[simp] theorem shared_shared (s : State) : s.shared.shared = s.shared := by
  cases hw : s.wd.drWren <;> cases hx : s.xw.ready <;> cases hd : s.dx.ready
  all_goals
    have hl : s.landed.landed = s.landed := State.landed_landed s
    have h1 : s.landed.writeBack = s.writeBack := congrArg State.rf hl
    have h2 : s.landed.markBack = s.markBack := congrArg State.written hl
    simp only [State.writeBack, State.markBack, State.landed_wd, State.landed_cfg, State.landed_rf,
      State.landed_written, hw, if_true, if_false, Bool.false_eq_true] at h1 h2
    simp [State.shared, State.landed, State.writeBack, State.markBack, hw, hx, hd, h1, h2,
      DecodeExecute.empty]

/-- Making WD's write is the same of both. -/
theorem landed_shared (s : State) : s.shared.writeBack = s.writeBack ∧ s.shared.markBack = s.markBack := by
  have h := shared_shared s
  exact ⟨congrArg State.rf h, congrArg State.written h⟩

/-- What XW hands on is the same of both, where it hands anything on. -/
theorem xw_shared (s : State) : s.shared.xw = s.xw ∨
    (s.shared.xw.ready && s.shared.xw.drWreq) = false ∧ (s.xw.ready && s.xw.drWreq) = false := by
  cases h : s.xw.ready
  · right; simp [State.shared, h]
  · left; simp [State.shared, h]

/-- A state is its fields. -/
theorem State.ext_fields {a b : State} (h1 : a.cfg = b.cfg) (h2 : a.rf = b.rf) (h3 : a.written = b.written)
    (h4 : a.pc = b.pc) (h5 : a.npc = b.npc) (h6 : a.imem = b.imem) (h7 : a.dmem = b.dmem)
    (h8 : a.fd = b.fd) (h9 : a.dx = b.dx) (h10 : a.xn = b.xn) (h11 : a.xw = b.xw) (h12 : a.wd = b.wd)
    (h13 : a.wdOld = b.wdOld) (h14 : a.sig = b.sig) (h15 : a.events = b.events)
    (h16 : a.dmaIssued = b.dmaIssued) (h17 : a.accesses = b.accesses) (h18 : a.draws = b.draws) :
    a = b := by
  cases a; cases b; simp_all

/-- What an instruction leaves is shared where what it began with is. -/
theorem retire_shared (s : State) (x : DecodeExecute) (v : Word) :
    (s.shared.retire x v).shared = (s.retire x v).shared := by
  obtain ⟨h1, h2⟩ := landed_shared s
  have hc : ∀ r, s.shared.landed.contents r = s.landed.contents r := by
    intro r
    simp only [State.contents, State.rfRead, State.landed_rf, State.landed_written, State.landed_cfg, h1, h2]
    rfl
  have hd : (if (s.shared.dx.ready : Bool) = true then
        (⟨s.shared.xn.data, s.shared.xn.dr, s.shared.dx.ready && s.shared.xn.drWreq, s.shared.dx.ready⟩ :
          ExecuteWrite) else ⟨0, 0, false, false⟩) =
      if (s.dx.ready : Bool) = true then ⟨s.xn.data, s.xn.dr, s.dx.ready && s.xn.drWreq, s.dx.ready⟩
      else ⟨0, 0, false, false⟩ := by
    by_cases h : s.dx.ready = true
    · simp [State.shared, h]
    · simp [State.shared, h, DecodeExecute.empty]
  have hrf : (s.shared.retire x v).writeBack = (s.retire x v).writeBack := by
    show (if (s.shared.xw.ready && s.shared.xw.drWreq) = true then
        rfWrite s.cfg.zeroReg s.shared.writeBack s.shared.xw.dr s.shared.xw.data else s.shared.writeBack) =
      if (s.xw.ready && s.xw.drWreq) = true then
        rfWrite s.cfg.zeroReg s.writeBack s.xw.dr s.xw.data else s.writeBack
    rw [h1]
    rcases xw_shared s with h | ⟨ha, hb⟩
    · rw [h]
    · rw [ha, hb]; rfl
  have hwr : (s.shared.retire x v).markBack = (s.retire x v).markBack := by
    show (if (s.shared.xw.ready && s.shared.xw.drWreq) = true then
        markWritten s.shared.markBack s.shared.xw.dr else s.shared.markBack) =
      if (s.xw.ready && s.xw.drWreq) = true then markWritten s.markBack s.xw.dr else s.markBack
    rw [h2]
    rcases xw_shared s with h | ⟨ha, hb⟩
    · rw [h]
    · rw [ha, hb]; rfl
  refine State.ext_fields rfl hrf hwr rfl rfl rfl rfl rfl rfl rfl hd ?_ ?_ rfl rfl rfl rfl rfl
  · show (if (s.shared.xw.ready && s.shared.xw.drWreq) = true then
        (⟨s.shared.xw.data, s.shared.xw.dr, s.shared.xw.ready && s.shared.xw.drWreq⟩ : WriteDecode)
      else ⟨0, 0, false⟩) = if (s.xw.ready && s.xw.drWreq) = true then
        ⟨s.xw.data, s.xw.dr, s.xw.ready && s.xw.drWreq⟩ else ⟨0, 0, false⟩
    rcases xw_shared s with h | ⟨ha, hb⟩
    · rw [h]
    · rw [ha, hb]; rfl
  · show (if (s.shared.xw.ready && s.shared.xw.drWreq) = true then
        s.shared.landed.contents s.shared.xw.dr else ⟨0, false⟩) =
      if (s.xw.ready && s.xw.drWreq) = true then s.landed.contents s.xw.dr else ⟨0, false⟩
    rw [hc]
    rcases xw_shared s with h | ⟨ha, hb⟩
    · rw [h]
    · rw [ha, hb]; rfl

/-- The execute stage looks at the shared part alone. -/
theorem performFlagged_shared (n : Nat) (dx : DecodeExecute) (s : State) :
    performFlagged n dx s.shared = andThen (performFlagged n dx s) fun r => .next (r.1.shared, r.2) := by
  rw [performFlagged_congr (s := s) (t := s.shared) rfl rfl rfl rfl rfl]
  cases h : performFlagged n dx s with
  | next r =>
    obtain ⟨u, v⟩ := r
    simp only [andThen_next]
    rw [performFlagged_frame h]
    rfl
  | fault => rfl
  | refused => rfl

/-- A step looks at the shared part alone, and does the same to it. -/
theorem step_shared (s : State) : sharedOutcome (step s.shared) = sharedOutcome (step s) := by
  unfold step
  have hf : s.shared.fetchWord s.shared.pc = s.fetchWord s.pc := rfl
  rw [hf]
  cases s.fetchWord s.pc with
  | fault => rfl
  | refused => rfl
  | next w =>
    simp only [andThen_next]
    have hd : s.shared.decodeWord w = s.decodeWord w := rfl
    rw [hd]
    cases s.decodeWord w with
    | fault => rfl
    | refused => rfl
    | next i =>
      simp only [andThen_next]
      have h1 : (s.shared.loadFd w).shared = s.shared := shared_shared s
      have h2 : (s.loadFd w).shared = s.shared := rfl
      have h3 : issueInstr i (s.shared.loadFd w) = issueInstr i (s.loadFd w) := by
        rw [← issueInstr_shared i (s.shared.loadFd w), h1, ← h2, issueInstr_shared]
      rw [exec_eq_stages, exec_eq_stages, throughStages, throughStages, h3]
      cases issueInstr i (s.loadFd w) with
      | fault => rfl
      | refused => rfl
      | next dx =>
        simp only [andThen_next]
        rw [performFlagged_congr (s := s.loadFd w) (t := s.shared.loadFd w) rfl rfl rfl rfl rfl]
        have hdr : (s.shared.loadFd w).draws = (s.loadFd w).draws := rfl
        rw [hdr]
        cases h : performFlagged (s.loadFd w).draws dx (s.loadFd w) with
        | fault => rfl
        | refused => rfl
        | next r =>
          obtain ⟨u, v⟩ := r
          simp only [andThen_next, sharedOutcome]
          congr 1
          rw [performFlagged_frame h]
          refine (retire_shared _ dx v).symm.trans (Eq.trans ?_ (retire_shared _ dx v))
          congr 2
          exact shared_shared { s with
            dmem := u.dmem
            events := u.events
            dmaIssued := u.dmaIssued
            accesses := u.accesses }

/-- States that share everything step alike. -/
theorem step_of_shared {s t : State} (h : s.shared = t.shared) :
    sharedOutcome (step s) = sharedOutcome (step t) := by
  rw [← step_shared s, h, step_shared]

end Sys2Proof.Machine
end

