-- ==== Sys2Proof/Laws/Fetch.lean ====
section
/-! SUPPORT. Where the address on IA comes from, and that it stays while the pipeline stalls. -/

namespace Sys2Proof.Machine

/-- The execute stage's work in a cycle leaves the fetch stage's own state, FD and DX as they were. -/
structure FetchSame (s u : State) : Prop where
  cfg : u.cfg = s.cfg
  imem : u.imem = s.imem
  fd : u.fd = s.fd
  dx : u.dx = s.dx
  addr : u.fetchAddr = s.fetchAddr
  hold : u.sig.fetchHold = s.sig.fetchHold
  transfer : u.decodesTransfer = s.decodesTransfer
  reads : ∀ r, u.transferReads r = s.transferReads r

theorem ExecuteFrame.fetchSame {s u : State} (h : ExecuteFrame s u) : FetchSame s u := by
  rw [h]; exact ⟨rfl, rfl, rfl, rfl, rfl, rfl, rfl, fun _ => rfl⟩

/-! ### The branch unit's target -/

/-- The branch unit gives a target for an instruction in decode that issues, a control transfer (R147, R240). -/
theorem branchTarget_eq_some {s : State} {a : Word} :
    s.branchTarget = some a ↔ s.fd.ready = true ∧ ∃ i, s.decodeWord s.fd.word = .next i ∧
      ∃ x, issueInstr i { s with pc := s.fd.pc } = .next x ∧ x.target = some a := by
  unfold State.branchTarget
  cases s.fd.ready
  · simp
  · cases hi : s.decodeWord s.fd.word with
    | next i => cases hx : issueInstr i { s with pc := s.fd.pc } <;> simp [hx]
    | fault => simp
    | refused => simp

/-- Only a control transfer in decode has a target (R240). -/
theorem transfer_of_branchTarget {s : State} {a : Word} (h : s.branchTarget = some a) :
    s.decodesTransfer = true := by
  obtain ⟨hr, i, hi, y, hx, ha⟩ := branchTarget_eq_some.mp h
  have ht := (issuedAs_of_next hx).target
  have hc : i.cls = .ct ∨ i.cls = .jal := by
    by_contra hn
    rw [not_or] at hn
    rw [ht hn.1 hn.2] at ha; cases ha
  unfold State.decodeWord at hi
  unfold State.decodesTransfer
  split at hi
  · next i' hd => cases hi; rw [hr, hd]; simpa using hc
  · cases hi
  · cases hi

/-- What DX loads is what the branch unit shows (R136, R147). -/
theorem branchTarget_of_decode {s : State} {o : Option DecodeExecute} (h : decodeCycle s = .next o) :
    s.branchTarget = o.bind (·.target) := by
  unfold State.branchTarget
  rcases decodeCycle_cases h with ⟨hr, rfl⟩ | ⟨hr, -, i, x, hi, hx, rfl⟩
  · simp [hr]
  · rw [if_pos hr, hi, andThen_next, hx]; rfl

/-- The branch unit looks at the run's parameters, FD, whether a delay slot is in decode, and the operands. -/
theorem branchTarget_congr {s u : State} (hc : u.cfg = s.cfg) (hf : u.fd = s.fd) (hx : u.dx = s.dx)
    (hr : ∀ i, decode s.cfg.enc s.fd.word = .ok i → s.decodesTransfer = true →
      u.readSources i.fields = s.readSources i.fields) :
    u.branchTarget = s.branchTarget := by
  cases ht : s.decodesTransfer
  · have hu : u.decodesTransfer = false := by
      rw [← ht]; unfold State.decodesTransfer; rw [hc, hf]
    have none_of : ∀ {x : State}, x.decodesTransfer = false → x.branchTarget = none := by
      intro x h
      cases hb : x.branchTarget with
      | none => rfl
      | some a => rw [transfer_of_branchTarget hb] at h; cases h
    rw [none_of ht, none_of hu]
  · unfold State.branchTarget State.decodeWord
    rw [hc, hf]
    unfold State.decodesTransfer at ht
    cases hd : decode s.cfg.enc s.fd.word with
    | error e => rw [hd] at ht; simp at ht
    | ok i =>
      rw [hd] at ht
      have hi := hr i hd (by unfold State.decodesTransfer; rw [hd]; exact ht)
      have hslot : u.inDelaySlot = s.inDelaySlot := by unfold State.inDelaySlot; rw [hc, hx]
      have key : ∀ c d, i.fields = d → ({ u with pc := s.fd.pc } : State).issueTransfer c d =
          ({ s with pc := s.fd.pc } : State).issueTransfer c d := by
        rintro c d rfl
        unfold State.issueTransfer
        have e1 : ({ u with pc := s.fd.pc } : State).readSources i.fields =
            ({ s with pc := s.fd.pc } : State).readSources i.fields := hi
        have e2 : ({ u with pc := s.fd.pc } : State).inDelaySlot =
            ({ s with pc := s.fd.pc } : State).inDelaySlot := hslot
        have e3 : ∀ rr, ({ u with pc := s.fd.pc } : State).decodedAs c i.fields rr =
            ({ s with pc := s.fd.pc } : State).decodedAs c i.fields rr := by
          intro rr; unfold State.decodedAs; dsimp only; rw [hc]
        rw [e1]
        refine congrArg _ (funext fun rr => ?_)
        dsimp only
        rw [e2, e3 rr, hc]
      rw [hc, hf] at key
      cases i
      case ct d => simp only [andThen_next, issueInstr, issueCt, key .ct d rfl]
      case jal d => simp only [andThen_next, issueInstr, issueJal, key .jal d rfl]
      all_goals simp [Instr.cls] at ht

/-! ### Reading while an instruction in the execute stage has no result yet -/

/-- Two states that differ in the forwarding path alone, which writes neither time the register read. -/
theorem readReg_forward (s : State) (p : Port) (r : RegId) (n : Forward)
    (hs : (s.dx.ready && s.xn.drWreq && s.xn.dr == r) = false)
    (hn : (s.dx.ready && n.drWreq && n.dr == r) = false) :
    ({ s with xn := n } : State).readReg p r = s.readReg p r := by
  unfold State.readReg State.pendingWrites
  simp only [State.readPast, hs, hn, Bool.false_eq_true, if_false]
  rfl

/-- A read is the same before and after WD's write (R179). -/
theorem readReg_landed (s : State) (p : Port) (r : RegId) : s.landed.readReg p r = s.readReg p r := by
  rw [← readReg_shared, ← readReg_shared s]
  have h := State.landed_landed s
  congr 1
  show ({ s.landed.landed with fd := _, dx := _, xn := _, xw := _, wd := _, wdOld := _, sig := _ } : State) = _
  rw [h]; rfl

/-- The forwarding path names the register of the instruction in the execute stage, done or not (R157). -/
theorem executeCycle_forward {inp : Inputs} {s : State} {e : ExecuteCycle} (h : executeCycle inp s = .next e) :
    ∃ v, e.state.xn = ⟨v, s.dx.dr, s.dx.ready && s.dx.drWreq⟩ := by
  cases executeCycle_cases h with
  | empty hr he => subst he; exact ⟨_, rfl⟩
  | finished v hr hd he => subst he; exact ⟨v, rfl⟩
  | barred hr hd hb he => subst he; exact ⟨_, rfl⟩
  | waits acc hr hd hb ha hw he => subst he; exact ⟨_, rfl⟩
  | performed acc u v hr hd hb ha hack hm hp he =>
    subst he
    exact ⟨v, rfl⟩

/-- The branch unit gives the same with another result on the forwarding path, where the control transfer does not
read its register. -/
theorem branchTarget_forward {s u : State} {v v' : Word} (hc : u.cfg = s.cfg) (hf : u.fd = s.fd)
    (hx : u.dx = s.dx) (hs : s.xn = ⟨v, s.dx.dr, s.dx.ready && s.dx.drWreq⟩)
    (hu : u.xn = ⟨v', s.dx.dr, s.dx.ready && s.dx.drWreq⟩)
    (hread : ∀ p r, u.readReg p r = ({ s with xn := u.xn } : State).readReg p r)
    (hn : v' = v ∨ s.dx.drWreq = false ∨ s.transferReads s.dx.dr = false) :
    u.branchTarget = s.branchTarget := by
  refine branchTarget_congr hc hf hx fun i hd ht => ?_
  have key : ∀ p r, (s.dx.drWreq = false ∨ s.cfg.zeroReg = some s.dx.dr ∨ s.dx.dr ≠ r ∨ v' = v) →
      u.readReg p r = s.readReg p r := by
    intro p r h
    rw [hread]
    by_cases hz : s.cfg.zeroReg = some r
    · simp [State.readReg, hz]
    by_cases hv : v' = v
    · subst hv; rw [hu, ← hs]
    · have hne : (s.dx.drWreq && s.dx.dr == r) = false := by
        rcases h with h | h | h | h
        · simp [h]
        · have : s.dx.dr ≠ r := fun e => hz (e ▸ h)
          simp [this]
        · simp [h]
        · exact absurd h hv
      have key : ∀ b : Bool, (b && (b && s.dx.drWreq) && s.dx.dr == r) = false := by
        rintro (_ | _)
        · rfl
        · exact hne
      apply readReg_forward
      · rw [hs]; exact key _
      · rw [hu]; exact key _
  unfold State.transferReads at hn
  rw [ht, hd] at hn
  have h1 : i.fields.reads1 = true → ∀ p, u.readReg p i.fields.sr1 = s.readReg p i.fields.sr1 := by
    intro h p
    apply key
    rcases hn with hn | hn | hn
    · exact .inr (.inr (.inr hn))
    · exact .inl hn
    · by_cases hz : s.cfg.zeroReg = some s.dx.dr
      · exact .inr (.inl hz)
      · by_cases he : s.dx.dr = i.fields.sr1
        · simp [h, ← he] at hn; exact absurd hn hz
        · exact .inr (.inr (.inl he))
  have h2 : i.fields.reads2 = true → ∀ p, u.readReg p i.fields.sr2 = s.readReg p i.fields.sr2 := by
    intro h p
    apply key
    rcases hn with hn | hn | hn
    · exact .inr (.inr (.inr hn))
    · exact .inl hn
    · by_cases hz : s.cfg.zeroReg = some s.dx.dr
      · exact .inr (.inl hz)
      · by_cases he : s.dx.dr = i.fields.sr2
        · simp [h, ← he] at hn; exact absurd hn hz
        · exact .inr (.inr (.inl he))
  unfold State.readSources State.readSource
  cases hr1 : i.fields.reads1 <;> cases hr2 : i.fields.reads2 <;> simp [hr1, hr2, h1, h2]

/-- A control transfer's outcome is not known in the cycles BranchWaits names. -/
theorem awaitsBranch_iff {inp : Inputs} {s : State} {e : ExecuteCycle} {f : Option FetchedWord}
    (h : executeCycle inp s = .next e) : e.state.awaitsBranch = true ↔ BranchWaits s (signalsOf inp s e f) := by
  have hs := (executeCycle_frame h).fetchSame
  have hm : (signalsOf inp s e f).morphoEn =
    (s.dx.ready && s.dx.flags.morphOp && s.sig.execDone.isNone && !s.morphBarred inp) := rfl
  have hr : e.state.hasResult = false ↔ NoResult s (signalsOf inp s e f) := by
    rw [hasResult_eq_false h]
    refine and_congr_right fun h1 => and_congr_right fun h2 => or_congr Iff.rfl ?_
    rw [hm, h1, h2]
    constructor
    · intro hb
      have := hb
      simp only [State.morphBarred, Bool.and_eq_true, Bool.not_eq_true'] at this
      exact ⟨this.1.1.1, this.1.1.2, by simp [hb]⟩
    · rintro ⟨-, h4, h5⟩
      simpa [h4] using h5
  unfold BranchWaits State.awaitsBranch
  rw [hs.cfg, hs.dx, hs.reads]
  simp only [Bool.and_eq_true, Bool.not_eq_true', hr, and_assoc]

/-- While the pipeline stalls, an execute stage that shows a result, or is empty, goes on showing the same. -/
theorem executeCycle_held {inp inp' : Inputs} {s : State} {e e' : ExecuteCycle} {f : Option FetchedWord}
    (h : executeCycle inp s = .next e) (h' : executeCycle inp' (e.state.held f) = .next e')
    (hr : e.state.hasResult = true) : ∃ g, e'.state = { e.state.landed with sig := g } ∧
      g.execDone = e.state.sig.execDone := by
  have hdone : ∀ v, e.state.dx.ready = true → e.state.sig.execDone = some v →
      e.state.xn = ⟨v, e.state.dx.dr, e.state.dx.ready && e.state.dx.drWreq⟩ →
      ∃ g, e'.state = { e.state.landed with sig := g } ∧ g.execDone = e.state.sig.execDone := by
    intro v h1 h2 h3
    cases executeCycle_cases h' with
    | empty k he => exact absurd (h1.symm.trans k) (by simp)
    | barred k hd hb he => exact absurd (h2.symm.trans hd) (by simp)
    | waits acc k hd hb ha hw he => exact absurd (h2.symm.trans hd) (by simp)
    | performed acc u w k hd hb ha hack hm hp he => exact absurd (h2.symm.trans hd) (by simp)
    | finished w k hd he =>
      have : some v = some w := h2.symm.trans hd
      cases this
      subst he
      refine ⟨(e.state.held f).sig, ?_, rfl⟩
      exact congrArg (fun x => ({ e.state.landed with sig := (e.state.held f).sig, xn := x } : State)) h3.symm
  cases executeCycle_cases h with
  | empty k he =>
    subst he
    cases executeCycle_cases h' with
    | empty k' he => subst he; exact ⟨_, rfl, rfl⟩
    | barred k' hd hb he => exact absurd (k.symm.trans k') (by simp)
    | waits acc k' hd hb ha hw he => exact absurd (k.symm.trans k') (by simp)
    | performed acc u w k' hd hb ha hack hm hp he => exact absurd (k.symm.trans k') (by simp)
    | finished w k' hd he => exact absurd (k.symm.trans k') (by simp)
  | finished v k hd he => subst he; exact hdone v k hd rfl
  | barred k hd hb he => subst he; simp [State.hasResult, k, hd] at hr
  | waits acc k hd hb ha hw he => subst he; simp [State.hasResult, k, hd] at hr
  | performed acc u v k hd hb ha hack hm hp he =>
    subst he
    have hu : u.dx = s.dx := by rw [performFlagged_frame hp]
    exact hdone v (by show u.dx.ready = true; rw [hu]; exact k) rfl (by
      show (⟨v, s.dx.dr, s.dx.ready && s.dx.drWreq⟩ : Forward) = ⟨v, u.dx.dr, u.dx.ready && u.dx.drWreq⟩
      rw [hu])

/-- An outcome that is waited for in a later cycle of a stall was waited for in every earlier one. -/
theorem awaitsBranch_of_held {inp inp' : Inputs} {s : State} {e e' : ExecuteCycle} {f : Option FetchedWord}
    (h : executeCycle inp s = .next e) (h' : executeCycle inp' (e.state.held f) = .next e')
    (ha : e'.state.awaitsBranch = true) : e.state.awaitsBranch = true := by
  have hs := (executeCycle_frame h').fetchSame
  cases hr : e.state.hasResult
  · have hd : e'.state.cfg.delaySlot = e.state.cfg.delaySlot := congrArg RunConfig.delaySlot hs.cfg
    have hx : e'.state.dx = e.state.dx := hs.dx
    have hreads : e'.state.transferReads e.state.dx.dr = e.state.transferReads e.state.dx.dr := hs.reads _
    simp only [State.awaitsBranch, Bool.and_eq_true, hd, hx, hreads] at ha ⊢
    exact ⟨⟨⟨ha.1.1.1, by simp [hr]⟩, ha.1.2⟩, ha.2⟩
  · obtain ⟨g, hg, hx⟩ := executeCycle_held h h' hr
    have : e'.state.hasResult = true := by
      rw [hg]
      show (!e.state.dx.ready || g.execDone.isSome) = true
      rw [hx]; exact hr
    simp [State.awaitsBranch, this] at ha

/-- In a stall a control transfer's outcome that is known stays as it is. -/
theorem branchTarget_held {inp inp' : Inputs} {s : State} {e e' : ExecuteCycle} {f : Option FetchedWord}
    (h : executeCycle inp s = .next e) (h' : executeCycle inp' (e.state.held f) = .next e')
    (hd : e.state.cfg.delaySlot = false) (ha : e.state.awaitsBranch = false) :
    e'.state.branchTarget = e.state.branchTarget := by
  have hs := (executeCycle_frame h').fetchSame
  have hdx : e.state.dx = s.dx := (executeCycle_frame h).fetchSame.dx
  obtain ⟨v, hv⟩ := executeCycle_forward h
  obtain ⟨v', hv'⟩ := executeCycle_forward h'
  rw [← hdx] at hv
  refine branchTarget_forward hs.cfg hs.fd hs.dx hv hv' (fun p r => ?_) ?_
  · refine Eq.trans ?_ (readReg_landed ({ e.state with xn := e'.state.xn } : State) p r)
    rw [executeCycle_frame h']
    rfl
  · cases hr : e.state.hasResult
    · simp only [State.awaitsBranch, hd, hr, Bool.not_false, Bool.true_and, Bool.and_eq_false_iff] at ha
      exact .inr ha
    · obtain ⟨g, hg, -⟩ := executeCycle_held h h' hr
      have : e'.state.xn = e.state.xn := by rw [hg]; rfl
      rw [hv, hv'] at this
      exact .inl (congrArg Forward.data this)

/-- In a stall the address on IA stays, once no control transfer's outcome is waited for; and while one is, it is the
address of the next instruction (R53, R177). -/
theorem iaAddr_held {inp inp' : Inputs} {s : State} {e e' : ExecuteCycle} {f : Option FetchedWord}
    (h : executeCycle inp s = .next e) (h' : executeCycle inp' (e.state.held f) = .next e')
    (ha : e.state.awaitsBranch = false ∨ e'.state.awaitsBranch = true) :
    e'.state.iaAddr = e.state.iaAddr := by
  have hs := (executeCycle_frame h').fetchSame
  have hc : e'.state.cfg = e.state.cfg := hs.cfg
  have hfa : e'.state.fetchAddr = e.state.fetchAddr := hs.addr
  cases hd : e.state.cfg.delaySlot
  · rcases Bool.eq_false_or_eq_true e'.state.awaitsBranch with ha' | ha'
    · have ha : e.state.awaitsBranch = true := awaitsBranch_of_held h h' ha'
      simp [State.iaAddr, State.branchesTo, ha, ha', hfa]
    · have ha : e.state.awaitsBranch = false := by simpa [ha'] using ha
      unfold State.iaAddr State.branchesTo
      rw [hc, hfa, ha, ha', branchTarget_held h h' hd ha]
  · rw [iaAddr_of_delaySlot hd, iaAddr_of_delaySlot (by rw [hc]; exact hd), hfa]

end Sys2Proof.Machine
end

