-- ==== Sys2Proof/Laws/PerInstr.lean ====
section
/-! SUPPORT. Statements about every instruction as syntax, one lemma for each constructor. -/

namespace Sys2Proof.Laws.FlagRelations

open Sys2Proof.Machine

/-- R108: a memory write operation is a memory operation, a DMA-control or RCRISC operation is a MorphoSys
operation, the two are not one, and no class is of two of the other kinds. -/
def FlagsRelated (f : ClassFlags) : Prop :=
  (f.memwOp = true → f.memOp = true) ∧ (f.morphDmaOp = true → f.morphOp = true) ∧
  (f.rcriscOp = true → f.morphOp = true) ∧ (f.morphDmaOp && f.rcriscOp) = false ∧
  [f.aluOp, f.shftOp, f.cmpOp, f.ldliOp, f.lduiOp, f.memOp, f.jalOp, f.morphOp].count true ≤ 1

theorem flagsRelated (c : InsnClass) : FlagsRelated (classFlags c) := by
  cases c <;> simp only [FlagsRelated] <;> decide

/-- The flags of an instruction are related as R108 says, and it is the one of its class and fields. -/
def Statement (i : Instr) : Prop :=
  FlagsRelated (classFlags i.cls) ∧ i = instrOf i.cls i.fields

theorem alu (d : Decoded) : Statement (.alu d) := ⟨flagsRelated .alu, rfl⟩
theorem shift (d : Decoded) : Statement (.shift d) := ⟨flagsRelated .shift, rfl⟩
theorem cmp (d : Decoded) : Statement (.cmp d) := ⟨flagsRelated .cmp, rfl⟩
theorem ldli (d : Decoded) : Statement (.ldli d) := ⟨flagsRelated .ldli, rfl⟩
theorem ldui (d : Decoded) : Statement (.ldui d) := ⟨flagsRelated .ldui, rfl⟩
theorem load (d : Decoded) : Statement (.load d) := ⟨flagsRelated .load, rfl⟩
theorem store (d : Decoded) : Statement (.store d) := ⟨flagsRelated .store, rfl⟩
theorem jal (d : Decoded) : Statement (.jal d) := ⟨flagsRelated .jal, rfl⟩
theorem ct (d : Decoded) : Statement (.ct d) := ⟨flagsRelated .ct, rfl⟩
theorem morph (d : Decoded) : Statement (.morph d) := ⟨flagsRelated .morph, rfl⟩
theorem morphDma (d : Decoded) : Statement (.morphDma d) := ⟨flagsRelated .morphDma, rfl⟩
theorem rcrisc (d : Decoded) : Statement (.rcrisc d) := ⟨flagsRelated .rcrisc, rfl⟩

end Sys2Proof.Laws.FlagRelations
end

