-- ==== Sys2Proof/Tests/Slice0.lean ====
section
/-! SUPPORT. Tests: the vectors of 95_test_vectors.md (named in each test), the decoder on words written
out from T0's fields, and an ill-formed instruction for each check of WellFormed. -/

namespace Sys2Proof.Tests

open Sys2Proof.Machine

/-! ### Small states -/

/-- T0 with the policies that let a program run from reset. -/
def t0Config : RunConfig := { defaultConfig with enc := t0Encoding, fns := .t0 }

/-- T0 with R303's fault, and no value in a register that nothing has written. -/
def strictConfig : RunConfig := { t0Config with unwritten := .draw, hazard := .fault }

/-- A launch with a program from address `a` on and a data memory. -/
def launchAt (cfg : RunConfig) (a : Nat) (words : List Word) (dmem : Memory) : State :=
  State.launch cfg (BitVec.ofNat 32 a) ((List.range words.length).map (a + ·) |>.zip words) dmem

/-- The state with register r already in the register file. -/
def withReg (s : State) (r : RegId) (v : Word) : State :=
  { s with rf := s.rf.set r.toNat v r.isLt, written := markWritten s.written r }

/-- A question about the next state of an outcome. -/
def nextIs {σ : Type} (o : Host.Outcome σ Fault Refusal) (p : σ → Bool) : Bool :=
  match o with
  | .next s => p s
  | _ => false

/-- The fault of an outcome. -/
def faultOf {σ : Type} (o : Host.Outcome σ Fault Refusal) : Option Fault :=
  match o with
  | .fault f => some f
  | _ => none

/-- The refusal of an outcome. -/
def refusalOf {σ : Type} (o : Host.Outcome σ Fault Refusal) : Option Refusal :=
  match o with
  | .refused r => some r
  | _ => none

/-- k steps. -/
def steps (k : Nat) (s : State) : Host.Outcome State Fault Refusal := core.run k s

/-! ### Decoding: words written out from T0's fields, op<<25 | dr<<21 | sr1<<17 | low -/

theorem test_decode_add : decode t0Encoding 0x02EC6000 =
    .ok (.alu ⟨0x02EC6000, 0x01, 6, 3, 7, 0x6000, true, true, true⟩) := by decide
theorem test_decode_shl : decode t0Encoding 0x04620004 =
    .ok (.shift ⟨0x04620004, 0x02, 1, 0, 3, 4, true, true, false⟩) := by decide
theorem test_decode_seq : decode t0Encoding 0x06624000 =
    .ok (.cmp ⟨0x06624000, 0x03, 1, 2, 3, 0x4000, true, true, true⟩) := by decide
theorem test_decode_ldli : decode t0Encoding 0x08208000 =
    .ok (.ldli ⟨0x08208000, 0x04, 0, 4, 1, 0x8000, true, false, false⟩) := by decide
theorem test_decode_ldui : decode t0Encoding 0x0A20DEAD =
    .ok (.ldui ⟨0x0A20DEAD, 0x05, 0, 6, 1, 0xDEAD, true, false, false⟩) := by decide
theorem test_decode_ld : decode t0Encoding 0x0CD40000 =
    .ok (.load ⟨0x0CD40000, 0x06, 10, 0, 6, 0, true, true, false⟩) := by decide
theorem test_decode_st : decode t0Encoding 0x0E068000 =
    .ok (.store ⟨0x0E068000, 0x07, 3, 4, 0, 0x8000, false, true, true⟩) := by decide
theorem test_decode_jal : decode t0Encoding 0x11E00010 =
    .ok (.jal ⟨0x11E00010, 0x08, 0, 0, 15, 0x10, true, false, false⟩) := by decide
theorem test_decode_bnz : decode t0Encoding 0x14020020 =
    .ok (.ct ⟨0x14020020, 0x0A, 1, 0, 0, 0x20, false, true, false⟩) := by decide
theorem test_decode_mop : decode t0Encoding 0x16024000 =
    .ok (.morph ⟨0x16024000, 0x0B, 1, 2, 0, 0x4000, false, true, true⟩) := by decide
theorem test_decode_dma : decode t0Encoding 0x18024000 =
    .ok (.morphDma ⟨0x18024000, 0x0C, 1, 2, 0, 0x4000, false, true, true⟩) := by decide
theorem test_decode_rcr : decode t0Encoding 0x1A820000 =
    .ok (.rcrisc ⟨0x1A820000, 0x0D, 1, 0, 4, 0, true, true, false⟩) := by decide
/-- E4: opcodes 0x00 and 0x7F are unknown. -/
theorem test_decode_unknown :
    decode t0Encoding 0 = .error .unknown ∧ decode t0Encoding 0xFE000000 = .error .unknown := by
  decide
/-- R108, D20: a word two rows match. -/
theorem test_decode_ambiguous :
    decode { t0Encoding with rows := [t0Row 1 .alu true true true, t0Row 1 .ct true true true] }
      0x02000000 = .error .ambiguous := by decide
/-- D33: a chip whose JALs link to x15, whatever stands in the place of their dr field. -/
def linkEncoding : Encoding :=
  { t0Encoding with rows := [{ t0Row 0x08 .jal false false true with linkReg := some 15 }] }
/-- R242: JAL imm=0x10 with 3 in the place of the dr field; the decoder gives x15, the encoder the word. -/
theorem test_fixed_link : decode linkEncoding 0x10600010 =
    .ok (.jal ⟨0x10600010, 0x08, 0, 0, 15, 0x10, true, false, false⟩) ∧
    encode linkEncoding (.jal ⟨0x10600010, 0x08, 0, 0, 15, 0x10, true, false, false⟩) = 0x10600010 ∧
    Instr.wf linkEncoding (.jal ⟨0x10600010, 0x08, 0, 0, 3, 0x10, true, false, false⟩) = false := by
  decide +kernel
theorem test_encode_add : encode t0Encoding
    (.alu ⟨0x02EC6000, 0x01, 6, 3, 7, 0x6000, true, true, true⟩) = 0x02EC6000 := by decide +kernel

/-! ### WellFormed: one ill-formed instruction for each check -/

theorem test_wf_add : Instr.wf t0Encoding
    (.alu ⟨0x02EC6000, 0x01, 6, 3, 7, 0x6000, true, true, true⟩) = true := by decide
theorem test_wf_opcode : Instr.wf t0Encoding
    (.alu ⟨0x02EC6000, 0x02, 6, 3, 7, 0x6000, true, true, true⟩) = false := by decide
theorem test_wf_sr1 : Instr.wf t0Encoding
    (.alu ⟨0x02EC6000, 0x01, 5, 3, 7, 0x6000, true, true, true⟩) = false := by decide
theorem test_wf_sr2 : Instr.wf t0Encoding
    (.alu ⟨0x02EC6000, 0x01, 6, 2, 7, 0x6000, true, true, true⟩) = false := by decide
theorem test_wf_dr : Instr.wf t0Encoding
    (.alu ⟨0x02EC6000, 0x01, 6, 3, 8, 0x6000, true, true, true⟩) = false := by decide
theorem test_wf_imm : Instr.wf t0Encoding
    (.alu ⟨0x02EC6000, 0x01, 6, 3, 7, 0x2000, true, true, true⟩) = false := by decide
theorem test_wf_class : Instr.wf t0Encoding
    (.cmp ⟨0x02EC6000, 0x01, 6, 3, 7, 0x6000, true, true, true⟩) = false := by decide
theorem test_wf_use : Instr.wf t0Encoding
    (.alu ⟨0x02EC6000, 0x01, 6, 3, 7, 0x6000, false, true, true⟩) = false := by decide
theorem test_wf_unknown : Instr.wf t0Encoding
    (.alu ⟨0, 0, 0, 0, 0, 0, true, true, true⟩) = false := by decide

/-! ### Compute classes -/

/-- A4: ADD dr=3 sr1=1 sr2=2 wraps. -/
theorem test_add_wraps : nextIs (step (withReg (withReg (launchAt strictConfig 0 [0x02624000] [])
    1 0xFFFFFFFF) 2 1)) (fun t => t.reg 3 == 0 && t.reg 1 == 0xFFFFFFFF && t.pc == 1) = true := by
  decide
/-- A5: SHL dr=3 sr1=1 imm=4. -/
theorem test_shl : nextIs (step (withReg (launchAt strictConfig 0 [0x04620004] []) 1 0x80000001))
    (fun t => t.reg 3 == 0x10) = true := by decide
/-- A6: SEQ of equal registers. -/
theorem test_seq : nextIs (step (withReg (withReg (launchAt strictConfig 0 [0x06624000] []) 1 7) 2 7))
    (fun t => t.reg 3 == 1) = true := by decide
/-- A7: LDLI dr=1 imm=0x8000. -/
theorem test_ldli : nextIs (step (launchAt strictConfig 0 [0x08208000] []))
    (fun t => t.reg 1 == 0x8000 && t.xn == ⟨0x8000, 1, true⟩) = true := by decide
/-- A8: LDUI dr=1 imm=0xDEAD. -/
theorem test_ldui : nextIs (step (launchAt strictConfig 0 [0x0A20DEAD] []))
    (fun t => t.reg 1 == 0xDEAD0000) = true := by decide

/-! ### Loads and stores -/

/-- M1: LD dr=5 sr1=3 from 0x40, full. -/
theorem test_load_full : nextIs (step (withReg (launchAt strictConfig 0 [0x0CA60000]
    [(0x40, 0xDEADBEEF)]) 3 0x40)) (fun t => t.reg 5 == 0xDEADBEEF) = true := by decide
/-- M7: rTinyRISC ignores address bits 31:10; the upper half reads as zero (M4). -/
theorem test_load_reduced : nextIs (step (withReg (launchAt { strictConfig with variant := .reduced } 0
    [0x0CA60000] [(0x0, 0xFFFF)]) 3 0x400)) (fun t => t.reg 5 == 0x0000FFFF) = true := by decide
/-- M2: ST sr1=3 sr2=4, full. -/
theorem test_store_full : nextIs (step (withReg (withReg (launchAt strictConfig 0 [0x0E068000]
    [(0x3F, 1), (0x41, 2)]) 3 0x40) 4 0x12345678))
    (fun t => t.dmem == [(0x3F, 1), (0x40, 0x12345678), (0x41, 2)]) = true := by decide
/-- M8: rTinyRISC stores the low half at the low 10 bits of the address. -/
theorem test_store_reduced : nextIs (step (withReg (withReg (launchAt
    { strictConfig with variant := .reduced } 0 [0x0E068000] []) 3 0xFFFFFFFF) 4 0x1234ABCD))
    (fun t => t.dmem == [(0x3FF, 0xABCD)]) = true := by decide

/-! ### Control transfer -/

/-- J1: JAL dr=15 imm=0x80 at 0. -/
theorem test_jal : nextIs (step (launchAt strictConfig 0 [0x11E00080] []))
    (fun t => t.reg 15 == 2 && t.pc == 1 && t.npc == 0x80) = true := by decide
/-- J4: the link wraps at 0xFFFFFFFF. -/
theorem test_jal_wraps : nextIs (step (launchAt strictConfig 0xFFFFFFFF [0x11E00080] []))
    (fun t => t.reg 15 == 1) = true := by decide
/-- B8: BNZ sr1=1 imm=0x20 at 8, taken and not taken. -/
theorem test_bnz : (nextIs (step (withReg (launchAt strictConfig 8 [0x14020020] []) 1 5))
      (fun t => t.pc == 9 && t.npc == 0x20) &&
    nextIs (step (withReg (launchAt strictConfig 8 [0x14020020] []) 1 0))
      (fun t => t.pc == 9 && t.npc == 0xA)) = true := by decide
/-- P3b and B5: a JAL in the delay slot of a JAL. -/
theorem test_jal_in_slot : faultOf (steps 2 (launchAt strictConfig 2 [0x11E00010, 0x11C00020] [])) =
    some (.controlTransferInDelaySlot 3) := by decide
/-- J6: INSN_STEP = 2 and DELAY_SLOTS = 0. -/
theorem test_jal_halfwords : nextIs (step (launchAt { strictConfig with insnStep := .two, delaySlot := false }
    0x10 [0x11E00080] [])) (fun t => t.reg 15 == 0x12 && t.pc == 0x80) = true := by decide
/-- B7: an odd target under INSN_STEP = 2. -/
theorem test_misaligned : faultOf (step (launchAt { strictConfig with insnStep := .two, delaySlot := false }
    0x10 [0x11E00201] [])) = some (.misalignedTarget 0x201) := by decide

/-! ### MorphoSys classes -/

/-- X1: MOP sr1=1 sr2=2 adds an event and writes no register. -/
theorem test_mop : nextIs (step (withReg (withReg (launchAt strictConfig 0 [0x16024000] [])
    1 0x40000) 2 0)) (fun t => t.events == [⟨0x16024000, 0x40000, 0⟩] && !t.xn.drWreq) = true := by
  decide
/-- P4: DMA sr1=1 sr2=2. -/
theorem test_dma : nextIs (step (withReg (withReg (launchAt strictConfig 5 [0x18024000] [])
    1 0x100) 2 0x20)) (fun t => t.events == [⟨0x18024000, 0x100, 0x20⟩] && t.dmaIssued) = true := by
  decide
/-- X5: RCR dr=4 sr1=1 adds an event and writes x[4]; its value is a draw. -/
theorem test_rcr : nextIs (step (withReg (launchAt strictConfig 7 [0x1A820000] []) 1 0x100))
    (fun t => t.events == [⟨0x1A820000, 0x100, 0⟩] && t.xn.drWreq && t.xn.dr == 4) = true := by decide

/-! ### Register distances -/

/-- H3, P1: a read directly behind the write is forwarded. -/
theorem test_forwarded : nextIs (steps 2 (withReg (launchAt strictConfig 0 [0x08200005, 0x02624000] [])
    2 7)) (fun t => t.reg 3 == 0xC) = true := by decide
/-- P1b: a read two behind the write is HazardFault(1, 2). -/
theorem test_hazard : faultOf (steps 3 (launchAt strictConfig 0 [0x08200005, 0x08400007, 0x02624000] [])) =
    some (.hazardFault 1 2) := by decide
/-- P1b with RF_HAZARD_FREE. -/
theorem test_hazard_free : nextIs (steps 3 (launchAt { strictConfig with rfHazardFree := true } 0
    [0x08200005, 0x08400007, 0x02624000] [])) (fun t => t.reg 3 == 0xC) = true := by decide
/-- P1c: x[2] was never written; the program goes on, with the reset value assumption log 5 names. -/
theorem test_unwritten : nextIs (steps 2 (launchAt t0Config 0 [0x08200005, 0x02624000] []))
    (fun t => t.reg 3 == 5) = true ∧
    nextIs (steps 2 (launchAt strictConfig 0 [0x08200005, 0x02624000] [])) (fun t => t.pc == 2) = true := by
  decide
/-- H8 with LOAD_FORWARDED = false: a load's result read directly behind it. -/
theorem test_load_use : faultOf (steps 2 (withReg (launchAt { strictConfig with loadForwarded := false } 0
    [0x0CD40000, 0x02ECC000] [(0x440, 1)]) 10 0x440)) = some (.hazardFault 6 1) := by decide

/-! ### Refusals -/

/-- The launched word runs as the first instruction after reset: LDUI dr=1 imm=0xDEAD. -/
theorem test_first_instruction : nextIs (step (State.reset.withFetchWord 32 0x0A20DEAD))
    (fun t => t.reg 1 == 0xDEAD0000 && t.pc == 1) = true ∧ (decodeTableWord 32 0x0A20DEAD).isSome = true := by
  decide
theorem test_unknown_refused : refusalOf (step (launchAt strictConfig 0 [0xFE000000] [])) =
    some (.unknownInstruction 0xFE000000) := by decide
theorem test_no_instruction : faultOf (step State.reset) = some (.noInstruction 0) := by decide

/-! ### The signal view -/

/-- Every memory acknowledges and nothing stalls. -/
def ready : Inputs := ⟨true, true, false, false, 0, 0, ⟨false, false, 0, 0⟩⟩

/-- The state after cycles with the given inputs. -/
def cycles (inps : List Inputs) (s : State) : Host.Outcome State Fault Refusal := runCycles inps s

/-- Trace T1: three cycles after the launch I0 stands in DX, I1 in FD, and IA is I3's address. -/
theorem test_trace_t1 : nextIs (cycles [ready, ready, ready]
    (launchAt strictConfig 0 [0x08200005, 0x08400007, 0x0A601234, 0x08800000] []))
    (fun t => t.xw.ready && t.xw.data == 5 && t.dx.word == 0x08400007 && t.fd.word == 0x0A601234 &&
      t.fetchAddr == 3) = true := by decide +kernel
/-- Trace T2: a taken JAL at 0; the third fetch is the target's. -/
theorem test_trace_t2 : nextIs (cycles [ready, ready]
    (launchAt strictConfig 0 [0x11E00080, 0x08400009] []))
    (fun t => t.dx.target == some 0x80 && t.fd.word == 0x08400009 && t.fetchAddr == 0x80) = true := by
  decide +kernel
/-- Trace T3: an instruction miss stalls the pipeline, IR asserted. -/
theorem test_trace_t3 : nextIs (cycle { ready with insack := false }
    (launchAt strictConfig 0 [0x08200005] []))
    (fun r => r.2.ir && r.2.fStall && r.2.pStall && !r.2.xStall && r.1.fetchAddr == 0) = true := by
  decide +kernel
/-- Trace T4: a data miss holds the fetched instruction and deasserts IR in the next cycle. -/
theorem test_trace_t4 : nextIs (cycles [ready, ready, { ready with dack := false }]
    (withReg (launchAt strictConfig 0 [0x0CA60000, 0x08200005, 0x08400007] [(0x40, 7)]) 3 0x40))
    (fun t => t.dx.word == 0x0CA60000 && t.sig.fetchHold == some ⟨2, some 0x08400007⟩ && !t.fetchEnabled &&
      nextIs (cycle ready t) (fun r => !r.2.pStall && r.2.forward.data == 7 && r.2.data.dr)) = true := by
  decide +kernel
/-- Trace T6: a DMA-control instruction waits for morpho_stall, and its event is recorded once. -/
theorem test_trace_t6 : nextIs (cycles [ready, ready, { ready with morphoStall := true }]
    (withReg (withReg (launchAt strictConfig 0 [0x18024000, 0x08200005, 0x08400007] []) 1 1) 2 2))
    (fun t => t.events == [] && nextIs (cycle ready t) (fun r => r.1.events.length == 1 &&
      r.2.morphoEn && !r.2.pStall)) = true := by decide +kernel
/-- Trace T5: WR and the store data are there in the second half of a store's cycle. -/
theorem test_trace_t5 : nextIs (cycles [ready, ready]
    (withReg (withReg (launchAt strictConfig 0 [0x0E068000, 0x08200005, 0x08400007] []) 3 0x40) 4 9))
    (fun t => nextIs (cycle ready t) (fun r => r.2.data.dr && !r.2.data.wrFirst && r.2.data.wrSecond &&
      r.2.data.da == some 0x40 && r.2.data.dbFirst == none && r.2.data.dbSecond == some 9 && r.1.dmem == [(0x40, 9)])) = true := by
  decide +kernel

/-! ### Witnesses: for each statement with hypotheses, a state and operands that meet them together -/

/-- Where an unsafe distance is no fault, every operand is readable. -/
theorem readable_of_draw {s : State} (h : s.cfg.hazard = .draw) (d : Decoded) : s.operandsReadable d :=
  ⟨fun _ => .inr (.inl h), fun _ => .inr (.inl h)⟩

/-- Fields with both operands read: sr1 = 1, sr2 = 2, dr = 3. -/
def bothOperands (w : Word) (drWreq : Bool) : Decoded :=
  ⟨w, opcodeOf t0Encoding w, 1, 2, 3, 0, drWreq, true, true⟩

/-- A state in which register 1 is being written by the instruction in DX, 2 by the one in XW and 3 by the
one in WD; `f` says what DX holds. Register 5 holds 55; what register 3 held before is 30. -/
def threePending (cfg : RunConfig) (f : ClassFlags) : State :=
  { withReg (launchAt cfg 0 [] []) 5 55 with
    dx := { DecodeExecute.empty with ready := true, flags := f, drWreq := true, dr := 1 }
    xn := ⟨11, 1, true⟩
    xw := ⟨22, 2, true, true⟩
    wd := ⟨33, 3, true⟩
    wdOld := ⟨30, true⟩ }

/-- The instruction at pc is in the delay slot of a taken transfer to 0x80. -/
def inSlot (cfg : RunConfig) : State :=
  { launchAt cfg 1 [] [] with
    npc := 0x80
    dx := { DecodeExecute.empty with ready := true, target := some 0x80 } }

theorem witness_launch_fits : Memory.wf [(0, (7 : Word)), (0xFFFFFFFF, 8)] ∧
    (∀ c ∈ [(0, (7 : Word)), (0xFFFFFFFF, 8)], c.1 < 2 ^ addrBits .full) ∧
    (∀ c ∈ [(0x3FF, (0xFFFF : Word))], c.1 < 2 ^ addrBits .reduced ∧ dataBus .reduced c.2 = c.2) := by
  decide
/-- StepRunsDecoded, in a pipeline that is not empty. -/
theorem witness_runs_decoded :
    nextIs ({ inSlot t0Config with imem := [(1, 0x02EC6000)] }.fetchWord 1) (· == 0x02EC6000) = true ∧
    (inSlot t0Config).pc = 1 ∧ decode (inSlot t0Config).cfg.enc 0x02EC6000 =
      .ok (.alu ⟨0x02EC6000, 0x01, 6, 3, 7, 0x6000, true, true, true⟩) := by decide
/-- StepStopsByName, each clause: a stored address where one storage holds both memories, no instruction,
an unknown word, an ambiguous word. -/
theorem witness_stops :
    (let s := { launchAt { t0Config with spacesShared := true } 7 [0x08200005] [] with
        accesses := [⟨7, true⟩] };
      (s.cfg.spacesShared = true ∧ ∃ x ∈ s.accesses, x.write = true ∧ x.addr = busAddr .full s.pc) ∧
      refusalOf (step s) = some (.selfModifyingCode 7) ∧
      refusalOf (step { s with accesses := [⟨7, false⟩, ⟨8, true⟩] }) = none) ∧
    (memLookup (launchAt t0Config 0 [] []).imem 0 = none ∧ t0Config.spacesShared = false) ∧
    (∀ r ∈ t0Encoding.rows, (0xFE000000 : Word) &&& r.mask ≠ r.value) ∧
    1 < (([t0Row 1 .alu true true true, t0Row 1 .ct true true true] : List DecodeRow).filter fun r =>
      (0x02000000 : Word) &&& r.mask == r.value).length := by decide
theorem witness_bus_address : busAddr .reduced 0xFFFFFC00 = busAddr .reduced 0 ∧
    busAddr .full 0xFFFFFC00 ≠ busAddr .full 0 := by decide
/-- ReadByDistance: registers 1, 2 and 3 are pending at distances 1, 2 and 3 alone, 0 and 5 at none, under
either setting of the parameters; LOAD_FORWARDED's clauses have a load in DX; what lies behind distance 3 is
what register 3 held before. -/
theorem witness_distances : ∀ cfg ∈ [t0Config, strictConfig, { strictConfig with loadForwarded := false },
      { strictConfig with rfHazardFree := true }],
    (((threePending cfg (classFlags .load)).pendingWrites.map fun p => (p.writes, p.reg)) =
      [(true, 1), (true, 2), (true, 3)]) ∧ isLoad (classFlags .load) = true ∧
    isLoad (classFlags .alu) = false ∧ cfg.zeroReg = none ∧
    (threePending cfg (classFlags .alu)).oldValue .one 3 = 30 ∧
    (threePending cfg (classFlags .alu)).written.getLsbD 5 = true ∧
    (threePending cfg (classFlags .alu)).written.getLsbD 0 = false := by decide
/-- ReadByDistance and R158: a register pending at all three distances is read from the nearest. -/
theorem witness_nearest : nextIs ({ threePending { strictConfig with rfHazardFree := true } (classFlags .alu)
    with xw := ⟨22, 1, true, true⟩, wd := ⟨33, 1, true⟩ }.readReg .two 1) (· == 11) = true := by decide
/-- SafeReadIsSequential: a register on its way and one that holds a value, where the policy gives none. -/
theorem witness_safe : (threePending strictConfig (classFlags .alu)).safeDistance 1 ∧
    (threePending strictConfig (classFlags .alu)).safeDistance 5 ∧
    (threePending strictConfig (classFlags .alu)).producer 1 = some ⟨1, true, 1, 11, true⟩ ∧
    (threePending strictConfig (classFlags .alu)).written.getLsbD 5 = true := by
  refine ⟨?_, ?_, by decide, by decide⟩ <;> intro p hp <;> revert hp <;>
    simp only [State.producer, threePending] <;> decide +revert
theorem witness_zero_reg : nextIs ({ threePending { strictConfig with zeroReg := some 1 } (classFlags .alu)
    with rf := Vector.replicate 16 5 }.readReg .one 1) (· == 0) = true := by decide
/-- UnwrittenReadGoesOn, under both policies: register 4 of a busy pipeline was never written. -/
theorem witness_unwritten : strictConfig.unwritten = .draw ∧ t0Config.unwritten = .resetValue ∧
    t0Config.zeroReg = none ∧ (threePending t0Config (classFlags .alu)).producer 4 = none ∧
    (threePending t0Config (classFlags .alu)).written.getLsbD 4 = false ∧
    (threePending t0Config (classFlags .alu)).UnwrittenZero := by
  refine ⟨rfl, rfl, rfl, by decide, by decide, by decide, by decide⟩
/-- UnsafeReadFaults: register 2 at distance 2, register 3 at distance 3, register 1 behind a load. -/
theorem witness_unsafe : strictConfig.hazard = .fault ∧
    (threePending strictConfig (classFlags .alu)).producer 2 = some ⟨2, true, 2, 22, false⟩ ∧
    (threePending strictConfig (classFlags .alu)).producer 3 = some ⟨3, true, 3, 33, false⟩ ∧
    (threePending { strictConfig with loadForwarded := false } (classFlags .load)).producer 1 =
      some ⟨1, true, 1, 11, false⟩ ∧
    (threePending strictConfig (classFlags .alu)).readable 1 :=
  ⟨rfl, by decide, by decide, by decide, .inr (.inr witness_safe.1)⟩
/-- The completion statements: operands readable in a busy pipeline, under the policy that draws, and under
the faulting one where the distances are safe. -/
theorem witness_readable (w : Word) (b : Bool) :
    (threePending t0Config (classFlags .load)).operandsReadable (bothOperands w b) ∧
    (threePending { strictConfig with rfHazardFree := true } (classFlags .alu)).operandsReadable
      (bothOperands w b) := by
  refine ⟨readable_of_draw rfl _, fun _ => .inr (.inr ?_), fun _ => .inr (.inr ?_)⟩ <;>
    intro p hp <;> revert hp <;> simp only [State.producer, threePending, bothOperands] <;> decide +revert
/-- LOAD and STORE: an access allowed before a DMA-control instruction, and after one. -/
theorem witness_access_allowed : (threePending t0Config (classFlags .alu)).accessesAllowed ∧
    ({ threePending t0Config (classFlags .alu) with dmaIssued := true }).accessesAllowed :=
  ⟨⟨rfl, .inl rfl⟩, ⟨rfl, .inr rfl⟩⟩
/-- CT and JAL outside a delay slot, in one, and where DELAY_SLOTS = 0 makes none; both INSN_STEPs. -/
theorem witness_slot : (threePending t0Config (classFlags .jal)).inDelaySlot = false ∧
    (inSlot t0Config).inDelaySlot = true ∧ (inSlot { t0Config with delaySlot := false }).inDelaySlot = false ∧
    (inSlot { t0Config with delaySlot := false, insnStep := .two }).cfg.insnStep = .two ∧
    t0Config.insnStep = .one := by decide
theorem witness_slot_readable (d : Decoded) : (inSlot t0Config).operandsReadable d ∧
    (inSlot { t0Config with delaySlot := false, insnStep := .two }).operandsReadable d :=
  ⟨readable_of_draw rfl d, readable_of_draw rfl d⟩
/-- AccessesDeclined: a DMA range's first and last address, and a cell next to one accessed before, at
the top of the address space too. -/
theorem witness_declined : (∀ a ∈ [0x100, 0x1FF], ∃ g ∈ [(0x100, 0x1FF)], g.1 ≤ a ∧ a ≤ g.2) ∧
    cellsOverlap .full 0x40 0x43 = true ∧ cellsOverlap .full 0x40 0x44 = false ∧
    cellsOverlap .full 0x40 0x40 = false ∧ cellsOverlap .reduced 0x3FF 2 = true := by decide
theorem witness_declined_load : refusalOf (exec (.load (bothOperands 0x0CA20000 true))
    (withReg { launchAt { t0Config with dmaShared := [(0x100, 0x1FF)] } 0 [] [] with dmaIssued := true }
      1 0x1FF)) = some (.dmaSharedMemory 0x1FF) := by decide
theorem witness_declined_store : refusalOf (exec (.store (bothOperands 0x0E024000 false))
    (withReg { launchAt { t0Config with dataCellsIndependent := false } 0 [] [] with
      accesses := [⟨0x43, false⟩] } 1 0x40)) = some (.overlappingCells 0x40 0x43) := by decide
/-- Neither declines: the first address behind the range, and a cell 4 away. -/
theorem witness_not_declined : nextIs (exec (.store (bothOperands 0x0E024000 false))
    (withReg { launchAt { t0Config with dmaShared := [(0x100, 0x1FF)], dataCellsIndependent := false } 0 [] []
      with dmaIssued := true, accesses := [⟨0x204, false⟩] } 1 0x200))
    (fun t => t.dmem == [(0x200, 0)] && t.accesses == [⟨0x200, true⟩, ⟨0x204, false⟩]) = true := by decide
/-- The frames: a store and an instruction that is none complete in a busy pipeline. -/
theorem witness_frames :
    nextIs (exec (.store (bothOperands 0x0E024000 false))
      (threePending { t0Config with rfHazardFree := true } (classFlags .alu)))
      (fun t => t.draws == 1) = true ∧
    nextIs (exec (.rcrisc (bothOperands 0x1A020000 true))
      (threePending { t0Config with rfHazardFree := true } (classFlags .alu)))
      (fun t => t.events.length == 1) = true := by decide
/-- The step statements: a step from a busy pipeline, whose pc is in a delay slot, completes and meets
the invariants. -/
theorem witness_invariants :
    let s := { inSlot t0Config with imem := [(1, 0x08200005)], dmem := [(0x40, 9)] }
    s.MemoriesFit ∧ s.PcsAgree ∧ s.UnwrittenZero ∧ nextIs (step s) (fun t => t.pc == 0x80) = true := by
  refine ⟨?_, ?_, ⟨?_, ?_⟩, ?_⟩ <;>
    simp only [State.MemoriesFit, State.PcsAgree, State.rfRead] <;> decide
/-- MemoryPrimitives: equal and different bus addresses in rTinyRISC. -/
theorem witness_primitives : busAddr .reduced 0x400 = busAddr .reduced 0 ∧
    busAddr .reduced 0x401 ≠ busAddr .reduced 0 := by decide

/-- One cycle after the launch: FD holds the first instruction. -/
def inFlight : State :=
  { launchAt t0Config 0 [0x0CA20000, 0x16024000, 0x08200005] [] with
    fd := fetched t0Encoding 0 0x0CA20000
    sig := ⟨1, none, none, false, none, []⟩ }

/-- An instruction of a class stands in DX, FD is empty, and the fetch of the word at 0 goes on. -/
def inExecute (c : InsnClass) : State :=
  { launchAt t0Config 0 [0x08200005] [] with
    dx := { DecodeExecute.empty with ready := true, flags := classFlags c, mdata := 9 } }

/-- The same with the cache enabled and these marks in the core. -/
def inCachedExecute (c : InsnClass) (marks : List CacheLine) : State :=
  { inExecute c with
    cfg := { t0Config with cacheEn := true }
    sig := ⟨0, none, none, false, none, marks⟩ }

/-- The environment with the cache enabled. -/
def cached : Inputs := { ready with cacheEn := true }

theorem witness_in_step : inFlight.FetchInStep ∧ inFlight.fd.ready = true ∧
    nextIs (cycle ready inFlight) (fun r => !r.2.pStall) = true := by
  refine ⟨⟨fun _ => ⟨rfl, ?_⟩, ?_, ?_, ?_, (fun _ _ h => nomatch h), fun _ _ _ => rfl⟩, rfl, ?_⟩
  · decide
  · decide
  · intro h; cases h
  · intro h; cases h
  · decide +kernel
/-- TickIsStep where FD is empty: the first cycle after a launch. -/
theorem witness_empty_tick : (launchAt t0Config 0 [0x08200005] []).fd.ready = false ∧
    nextIs (cycle ready (launchAt t0Config 0 [0x08200005] [])) (fun r => !r.2.pStall) = true := by
  decide +kernel
/-- ExecuteStallCauses and ExternalAccessPins: a load waits, and is performed. -/
theorem witness_access : (inExecute .load).cfg.cacheEn = false ∧ (inExecute .load).dx.ready = true ∧
    (inExecute .load).dx.flags.memOp = true ∧ (inExecute .load).sig.execDone = none ∧
    nextIs (cycle { ready with dack := false, db := 4 } (inExecute .load))
      (fun r => r.2.xStall && r.2.data.dbSecond == some 4 && r.1.sig.transfer == some false) = true ∧
    nextIs (cycle ready { inExecute .load with dmem := [(0, 7)] })
      (fun r => !r.2.xStall && r.2.data.dbFirst == some 7 && r.2.forward.data == 7) = true := by
  decide +kernel
/-- WriteEnableTiming and WriteEnableWaveform: a store that is not acknowledged in its first cycle, and then is;
and a read. -/
theorem witness_write : (inExecute .store).cfg.cacheEn = false ∧
    nextIs (cycle { ready with dack := false } (inExecute .store)) (fun r =>
      !r.2.data.wrFirst && r.2.data.wrSecond && r.2.data.dbFirst == none && r.2.data.dbSecond == some 9 &&
      nextIs (cycle ready r.1) fun q => q.2.data.wrFirst && q.2.data.dbFirst == some 9 &&
        q.1.dmem == [(0, 9)]) = true ∧
    nextIs (cycle ready (inExecute .load)) (fun r => !r.2.data.wrSecond) = true := by decide +kernel
/-- CacheCoreMarks: a miss, whose line is written back in one cycle and loaded in the next. -/
theorem witness_cache_miss : (inCachedExecute .store []).dx.flags.memOp = true ∧
    nextIs (cycle { cached with dack := false, line := ⟨true, false, 0x80, 3⟩ } (inCachedExecute .store []))
      (fun r => r.2.xStall && !r.2.core.setval && r.2.data.wrSecond && r.2.data.da == some 0x80 &&
        r.1.sig.transfer == some true) = true ∧
    nextIs (cycle { cached with db := 6, line := ⟨false, true, 0, 0⟩ } (inCachedExecute .store []))
      (fun r => r.2.core.setval && r.2.core.mdout == some 6 && r.1.sig.cache.length == 1) = true := by
  decide +kernel
/-- CacheCoreMarks: a store that hits in the line the address selects. -/
theorem witness_cache_hit :
    nextIs (cycle cached (inCachedExecute .store [⟨Config.cacheLineOf 0, Config.cacheTagOf 0, true, false⟩]))
      (fun r => r.2.core.hit && r.2.core.setdirt && !r.2.xStall) = true := by
  have hit : cacheHit [⟨Config.cacheLineOf 0, Config.cacheTagOf 0, true, false⟩] 0 = true := by
    simp [cacheHit, selectedLine]
  generalize hs : inCachedExecute .store _ = s
  have hit : cacheHit s.sig.cache s.dx.maddr = true := by rw [← hs]; exact hit
  have facts : s.dx.ready = true ∧ s.sig.execDone = none ∧ s.dx.flags.memOp = true ∧
      s.dx.flags.memwOp = true ∧ s.cfg.cacheEn = true := by rw [← hs]; exact ⟨rfl, rfl, rfl, rfl, rfl⟩
  simp only [cycle, executeCycle, accessCycle, cachedAccess, facts, hit]
  subst hs
  rfl
/-- CycleKeepsCacheLines: a core that holds two lines. -/
theorem witness_cache_lines : (inCachedExecute .alu [⟨0, 1, true, true⟩, ⟨1, 1, true, false⟩]).CacheLinesDiffer ∧
    nextIs (cycle cached (inCachedExecute .alu [⟨0, 1, true, true⟩, ⟨1, 1, true, false⟩]))
      (fun r => r.1.sig.cache.length == 2) = true := by
  refine ⟨by simp [State.CacheLinesDiffer, inCachedExecute], by decide +kernel⟩
/-- PipelineClock, StallChangesNothing, FetchHeldThroughStall: a stalled cycle whose fetch completes,
and the cycle after it; the state before it settles. -/
theorem witness_stalled : nextIs (cycle { ready with dack := false } (inExecute .load)) (fun r =>
      r.2.pStall && r.2.ir && nextIs (cycle ready r.1) fun q => !q.2.pStall) = true ∧
    nextIs (inExecute .load).settle (fun _ => true) = true := by decide +kernel
/-- FetchHeldThroughStall: three stalled cycles, the instruction fetched in the first, and the one after them. -/
theorem witness_held : nextIs (runCycles (List.replicate 3 { ready with dack := false }) (inExecute .load))
    (fun t => t.sig.fetchHold == some ⟨0, some 0x08200005⟩ && !t.fetchEnds && nextIs (cycle ready t) fun r =>
      !r.2.ir && !r.2.pStall && r.1.fd.word == 0x08200005) = true := by decide +kernel
/-- OperationMadeOnce: a store finished in a cycle that the fetch stalls, and the next cycle. -/
theorem witness_once : nextIs (cycle { ready with insack := false } (inExecute .store)) (fun r =>
    !r.2.xStall && r.2.pStall && r.1.sig.execDone.isSome && r.2.data.dr &&
      nextIs (cycle ready r.1) fun q => !q.2.data.dr && q.1.dmem == [(0, 9)]) = true := by decide +kernel
/-- MorphosysInterface, OperationMadeOnce: an operation that reaches execute as a fetch misses begins in the first
cycle without f_stall, and one that has begun keeps the enable and is finished under an f_stall (R159, R265). -/
theorem witness_morph_barred : (inExecute .morph).FetchInStep ∧
    nextIs (cycle { ready with insack := false } (inExecute .morph)) (fun r =>
      !r.2.morphoEn && r.2.fStall && !r.2.xStall && r.1.events == [] && r.1.sig.execDone == none &&
        nextIs (cycle ready r.1) fun q => q.2.morphoEn && q.1.events.length == 1) = true ∧
    nextIs (cycle { ready with insack := false } { inExecute .morph with sig := ⟨0, none, none, true, none, []⟩ })
      (fun r => r.2.morphoEn && r.2.fStall && r.1.events.length == 1 &&
        nextIs (cycle ready r.1) fun q => !q.2.morphoEn && q.1.events.length == 1) = true := by
  refine ⟨⟨?_, ?_, ?_, ?_, (fun _ _ h => nomatch h), fun _ _ _ => rfl⟩, by decide +kernel⟩
  · intro h; cases h
  · decide
  · intro h; cases h
  · decide
/-- DmaControlWaits: an operation that waits, one that was finished under an f_stall, and one that has not begun. -/
theorem witness_dma_waits : (inExecute .morphDma).dx.flags.morphOp = true ∧
    (inExecute .morphDma).dx.flags.memOp = false ∧
    nextIs (cycle { ready with morphoStall := true } (inExecute .morphDma))
      (fun r => r.2.xStall && r.2.morphoEn) = true ∧
    nextIs (cycle { ready with morphoStall := true }
        { inExecute .morphDma with sig := ⟨0, none, some 3, true, none, []⟩ })
      (fun r => r.2.xStall && !r.2.morphoEn && r.1.sig.execDone == some 3) = true ∧
    nextIs (cycle { ready with insack := false, morphoStall := true } (inExecute .morphDma))
      (fun r => r.2.xStall && !r.2.morphoEn && r.1.events == []) = true := by decide +kernel
/-- MorphosysInterface in both variants, and ReducedHasNoMorphosysBuses. -/
theorem witness_buses : nextIs (cycle ready (inExecute .morph)) (fun r => r.2.morphoBuses.isSome) = true ∧
    nextIs (cycle ready { inExecute .morph with cfg := { t0Config with variant := .reduced } })
      (fun r => r.2.morphoBuses.isNone) = true := by decide +kernel
/-- FetchPins: a fetch that is acknowledged and one that is not. -/
theorem witness_fetch : nextIs (cycle ready inFlight)
      (fun r => r.2.ia == 1 && r.2.ir && r.2.ib == 0x16024000 && r.2.sr1Nc == some 1) = true ∧
    nextIs (cycle { ready with insack := false, ib := 5 } inFlight)
      (fun r => r.2.ir && r.2.fStall && r.2.ib == 5) = true := by decide +kernel
/-- InstructionPassedOn, DestinationPassedOn and FieldsSeparated: two cycles that advance, from an FD that shows
its word's dr field. -/
theorem witness_passed : inFlight.fd.dr = drOf inFlight.cfg.enc inFlight.fd.word ∧
    nextIs (cycle ready inFlight) (fun r => !r.2.pStall && r.2.ir && r.1.fd.ready &&
    r.1.fd.op == 0x0B && r.1.dx.word == 0x0CA20000 && r.1.dx.dr == 5 &&
      nextIs (cycle ready r.1) fun q => !q.2.pStall) = true := by decide +kernel
/-- DestinationPassedOn: the dr field of a JAL whose row fixes the link register, which DX does not take. -/
theorem witness_fixed_link : nextIs (cycle ready { inFlight with
      cfg := { t0Config with enc := linkEncoding }, fd := fetched linkEncoding 0 0x10600010 })
    (fun r => !r.2.pStall && r.1.dx.dr == 15 && r.1.dx.target == some 0x10) = true := by decide +kernel

/-- A taken JAL to 2 is in decode, the word at 1 stands behind it, and 2 holds LDLI dr=1 imm=5. -/
def inBranch (delaySlot : Bool) : State :=
  { inFlight with
    cfg := { t0Config with delaySlot := delaySlot }
    fd := fetched t0Encoding 0 0x11E00002 }

/-- R147, R180, R244, DELAY_SLOTS = 0: the target is on IA in the transfer's decode cycle, d_chg_pc and
d_target_pc load with DX, FD takes the target's instruction, and the next cycles are R180's. -/
theorem test_no_delay_slot : nextIs (cycle ready (inBranch false)) (fun r =>
    r.2.iaAddr == 2 && !r.2.pStall && r.1.dx.target == some 2 && r.1.dx.word == 0x11E00002 && r.1.pc == 2 &&
      r.1.fd.pc == 2 && r.1.fd.word == 0x08200005 && r.1.fetchAddr == 3) = true := by decide +kernel
/-- R147, R180, DELAY_SLOTS = 1: FD takes the delay slot's instruction, and the registered d_chg_pc has the
target on IA in the next cycle. -/
theorem test_delay_slot : nextIs (cycle ready (inBranch true)) (fun r =>
    r.2.iaAddr == 1 && r.1.dx.target == some 2 && r.1.fd.pc == 1 && r.1.fetchAddr == 2) = true := by
  decide +kernel
/-- BNZ sr1=1 imm=2 is in decode without a delay slot, and the load in execute, which has not begun, brings `v` to
register 1. -/
def inLoadedBranch (v : Word) : State :=
  { inBranch false with
    fd := fetched t0Encoding 0 0x14020002
    dx := { (inExecute .load).dx with dr := 1, drWreq := true }
    dmem := [(0, v)] }

/-- FetchHeldThroughStall, FetchPins, DELAY_SLOTS = 0: while the transfer waits for the load, the fetch of the next
instruction goes on and is held. Not taken, FD takes it as the stall ends (R55). -/
theorem witness_branch_waits :
    nextIs (cycle { ready with dack := false } (inLoadedBranch 0)) (fun r => r.2.ir && r.2.xStall &&
      r.2.iaAddr == 1 && r.1.sig.fetchHold == some ⟨1, some 0x16024000⟩ &&
      nextIs (cycle { ready with insack := false } r.1) fun q => !q.2.ir && !q.2.pStall && q.2.iaAddr == 1 &&
        q.1.fd.word == 0x16024000) = true := by decide +kernel
/-- The same, taken: in the cycle of the result the target is on IA, stays there while its fetch is not acknowledged,
and is taken; so too where no instruction is placed behind the transfer. -/
theorem witness_branch_taken :
    nextIs (cycle { ready with dack := false } (inLoadedBranch 7)) (fun r => r.2.ir && r.2.iaAddr == 1 &&
      nextIs (cycle { ready with insack := false } r.1) fun q => q.2.ir && q.2.fStall && q.2.iaAddr == 2 &&
        nextIs (cycle ready q.1) fun p => p.2.iaAddr == 2 && !p.2.pStall && p.1.fd.word == 0x08200005) = true ∧
    nextIs (cycle { ready with dack := false, ib := 5 }
        { inLoadedBranch 7 with imem := [(0, 0x14020002), (2, 0x08200005)] })
      (fun r => r.2.ir && r.2.ib == 5 && r.1.sig.fetchHold == some ⟨1, none⟩ &&
        nextIs (cycle { ready with dack := false } r.1) fun q => !q.2.ir && q.1.sig.fetchHold == some ⟨1, none⟩ &&
        nextIs (cycle ready q.1) fun p => p.2.ir && !p.2.pStall && p.1.fd.word == 0x08200005) = true := by
  decide +kernel
/-- FetchHeldThroughStall under DELAY_SLOTS = 0: a transfer that does not read what the load brings has its target on
IA from the first cycle of the stall on, and the target's instruction is fetched then and held (R55, R177). -/
theorem witness_branch_held :
    let s := { inBranch false with dx := (inLoadedBranch 0).dx, dmem := [(0, 7)] }
    nextIs (cycle { ready with dack := false } s) (fun r => r.2.ir && r.2.pStall && r.2.iaAddr == 2 &&
      nextIs (cycle ready r.1) fun q => !q.2.ir && !q.2.pStall && q.2.iaAddr == 2 &&
        q.1.fd.word == 0x08200005) = true := by decide +kernel
/-- ChangePcSteersFetch: two cycles behind a taken transfer, with and without a delay slot, and behind none. -/
theorem witness_steers : nextIs (cycle ready (inBranch true)) (fun r => !r.2.pStall && r.1.fd.ready &&
      nextIs (cycle ready r.1) fun q => !q.2.pStall && q.2.iaAddr == 2 && q.1.fd.pc == 2) = true ∧
    nextIs (cycle ready (inBranch false)) (fun r => nextIs (cycle ready { r.1 with
      imem := r.1.imem ++ [(3, 0x08400007)] }) fun q => q.2.iaAddr == 3) = true ∧
    nextIs (cycle ready inFlight) (fun r => r.1.dx.target == none && r.2.iaAddr == 1 &&
      nextIs (cycle ready r.1) fun q => q.2.iaAddr == 2) = true := by decide +kernel
/-- R84: where one storage holds both memories, a store to the address of the instruction in decode. -/
theorem test_store_ahead : refusalOf (cycle ready { inExecute .store with
    cfg := { t0Config with spacesShared := true }, fd := fetched t0Encoding 0 0x08200005
    dx := { (inExecute .store).dx with maddr := 0 }, sig := ⟨1, none, none, false, none, []⟩ }) =
      some (.selfModifyingCode 0) := by decide +kernel
/-- ParametersConstant: cache_en against CACHE_EN. -/
theorem witness_cache_en : refusalOf (cycle { ready with cacheEn := true } inFlight) =
    some .cacheEnChanged := by
  decide
/-- RunsAgree: a run of two instructions to its end, its first fetch waiting. -/
theorem witness_run : nextIs (runCycles ({ ready with insack := false } :: List.replicate 8 ready)
    (launchAt { t0Config with endPc := some 2 } 0 [0x08200005, 0x08400007] []))
    (fun t => t.over && t.rfRead 1 == 5 && t.rfRead 2 == 7 && nextIs t.settle fun _ => true) = true := by
  decide +kernel

/-- An endless run at its program's end, with a MorphoSys operation still in the execute stage. -/
def draining : State := launchAt { t0Config with endPc := some 0 } 0 [] []

/-- An environment that holds the operation for one cycle. -/
def heldOnce : Nat → Inputs
  | 0 => { ready with morphoStall := true }
  | _ + 1 => ready

/-- The operation waits, is performed, leaves the pipeline; then nothing is left. -/
def endless : Nat → State
  | 0 => { draining with
      dx := { DecodeExecute.empty with ready := true, flags := classFlags .morph } }
  | 1 => { draining with
      dx := { DecodeExecute.empty with ready := true, flags := classFlags .morph }
      sig := ⟨0, none, none, true, none, []⟩ }
  | 2 => { draining with
      events := [⟨0, 0, 0⟩]
      xn := ⟨Config.freeWord 0, 0, false⟩
      xw := ⟨Config.freeWord 0, 0, false, true⟩ }
  | 3 => { draining with
      events := [⟨0, 0, 0⟩]
      xw := ⟨Config.idleData 0, 0, false, false⟩
      wd := ⟨Config.freeWord 0, 0, false⟩ }
  | _ + 4 => { draining with
      events := [⟨0, 0, 0⟩]
      xw := ⟨Config.idleData 0, 0, false, false⟩
      wd := ⟨Config.idleData 0, 0, false⟩ }

/-- The signals of its cycles. -/
def endlessSignals (n : Nat) : Signals :=
  match cycle (heldOnce n) (endless n) with
  | .next r => r.2
  | _ => signalsOf (heldOnce n) (endless n) ⟨endless n, false, idlePins, idleCore⟩ none

/-- StallsEnd: a fair endless run, whose first cycle is stalled. -/
theorem witness_fair : EndlessRun heldOnce endless endlessSignals ∧ Fair heldOnce endless endlessSignals ∧
    (endless 0).dx.ready = true ∧ (endlessSignals 0).pStall = true := by
  refine ⟨fun n => ?_, fun n => ⟨fun _ => ⟨n + 4, by omega, rfl⟩, fun _ => ⟨n + 4, by omega, rfl⟩,
    fun _ _ _ => ⟨n + 4, by omega, rfl⟩⟩, rfl, rfl⟩
  match n with
  | 0 => rfl
  | 1 => rfl
  | 2 => rfl
  | 3 => rfl
  | n + 4 =>
    have h1 : heldOnce (n + 4) = ready := rfl
    have h2 : endless (n + 4) = endless 4 := rfl
    have h3 : endless (n + 4 + 1) = endless 4 := rfl
    rw [endlessSignals, h1, h2, h3]
    rfl
/-- OverStays: a state that is over, and in step. -/
theorem witness_over : (endless 4).over = true ∧ (endless 4).FetchInStep ∧
    nextIs (cycle ready (endless 4)) (fun r => r.1.over) = true := by
  refine ⟨by decide +kernel, ⟨?_, ?_, ?_, ?_, (fun _ _ h => nomatch h), fun _ _ _ => rfl⟩, by decide +kernel⟩
  · intro h; cases h
  · decide +kernel
  · intro h; cases h
  · intro _ h; exact absurd rfl h

end Sys2Proof.Tests
end

