-- ==== Sys2Proof/Proofs/WriteEnable.lean ====
section
/-! PROOFS. The data memory pins with the cache disabled: when the execute stage makes an access (R62, R63), what
it leaves behind for the next cycle (R65), and the waveform of WR (R66). -/

namespace Sys2Proof.Machine

/-- With the cache disabled, a load or store waits for memory until its access is finished (R62, R65). -/
theorem awaitsMemory_eq_true {s : State} (hc : s.cfg.cacheEn = false) :
    s.awaitsMemory = true ↔ s.dx.ready = true ∧ s.dx.flags.memOp = true ∧ s.sig.execDone = none := by
  simp [State.awaitsMemory, hc, and_assoc]

theorem morphHeld_of_memOp {inp : Inputs} {s : State} (h : s.dx.flags.memOp = true) :
    s.morphHeld inp = false := by
  simp [State.morphHeld, h]

theorem morphBarred_of_memOp {inp : Inputs} {s : State} (h : s.dx.flags.memOp = true) :
    s.morphBarred inp = false := by
  simp [State.morphBarred, h]

/-- With the cache disabled and no load or store waiting for memory, the pins are idle (R63). -/
theorem executeCycle_pins_idle {inp : Inputs} {s : State} {e : ExecuteCycle}
    (h : executeCycle inp s = .next e) (hc : s.cfg.cacheEn = false) (ha : s.awaitsMemory = false) :
    e.pins = idlePins := by
  have noMem (hr : s.dx.ready = true) (hd : s.sig.execDone = none) : s.dx.flags.memOp = false := by
    simpa [State.awaitsMemory, hc, hr, hd] using ha
  cases executeCycle_cases h with
  | empty hr he => rw [he]
  | finished v hr hd he => rw [he]
  | barred hr hd hb he => rw [he]
  | waits acc hr hd hb hacc hw he => rw [he, hacc, noMem hr hd]; rfl
  | performed acc u v hr hd hb hacc hack hm hp he => rw [he, hacc, noMem hr hd]; rfl

/-- With the cache disabled, an access is on the pins as one external transfer: it stalls the execute stage until
DACK, and only then has a result (R62, R64, R65). -/
theorem executeCycle_external {inp : Inputs} {s : State} {e : ExecuteCycle}
    (h : executeCycle inp s = .next e) (hc : s.cfg.cacheEn = false) (ha : s.awaitsMemory = true) :
    e.pins = (externalAccess inp s).pins ∧ e.stall = !inp.dack ∧
      (e.state.sig.execDone = none → e.state.sig.transfer = (externalAccess inp s).transfer) := by
  obtain ⟨hr, hm, hd⟩ := (awaitsMemory_eq_true hc).mp ha
  have external : (if s.dx.flags.memOp then accessCycle inp s else noAccess s) = externalAccess inp s := by
    simp [accessCycle, hm, hc]
  cases executeCycle_cases h with
  | empty hr' he => simp [hr] at hr'
  | finished v hr' hd' he => simp [hd] at hd'
  | barred hr' hd' hb he => simp [morphBarred_of_memOp hm] at hb
  | waits acc _ _ _ hacc hw he =>
    have hdack : inp.dack = false := by
      simpa [hacc, external, externalAccess, morphHeld_of_memOp hm] using hw
    rw [he, hacc, external]
    exact ⟨rfl, by simp [hdack], fun _ => rfl⟩
  | performed acc u v _ _ _ hacc hack _ hp he =>
    have hdack : inp.dack = true := by rwa [hacc, external] at hack
    rw [he, hacc, external]
    exact ⟨rfl, by simp [hdack], fun hn => nomatch hn⟩

/-- A finished instruction stays finished through a cycle of the execute stage (R159, R179). -/
theorem execDone_eq_none_of_executeCycle {inp : Inputs} {s : State} {e : ExecuteCycle}
    (h : executeCycle inp s = .next e) (hn : e.state.sig.execDone = none) : s.sig.execDone = none := by
  cases executeCycle_cases h with
  | empty hr he => rwa [he] at hn
  | finished v hr hd he => rwa [he] at hn
  | barred hr hd hb he => exact hd
  | waits acc hr hd hb hacc hw he => exact hd
  | performed acc u v hr hd hb hacc hack hm hp he => exact hd

theorem executeCycle_cfg {inp : Inputs} {s : State} {e : ExecuteCycle}
    (h : executeCycle inp s = .next e) : e.state.cfg = s.cfg := by
  rw [executeCycle_frame h]

/-- What waits for memory after a cycle of the execute stage waited in it. -/
theorem awaitsMemory_of_executeCycle {inp : Inputs} {s : State} {e : ExecuteCycle}
    (h : executeCycle inp s = .next e) (hc : s.cfg.cacheEn = false) (ha : e.state.awaitsMemory = true) :
    s.awaitsMemory = true := by
  have hdx : e.state.dx = s.dx := by rw [executeCycle_frame h]
  obtain ⟨hr, hm, hd⟩ := (awaitsMemory_eq_true (by rw [executeCycle_cfg h, hc])).mp ha
  rw [hdx] at hr hm
  exact (awaitsMemory_eq_true hc).mpr ⟨hr, hm, execDone_eq_none_of_executeCycle h hd⟩

/-- DR is asserted exactly while a load or store waits for memory (R63). -/
theorem executeCycle_dr {inp : Inputs} {s : State} {e : ExecuteCycle}
    (h : executeCycle inp s = .next e) (hc : s.cfg.cacheEn = false) : e.pins.dr = s.awaitsMemory := by
  cases ha : s.awaitsMemory
  · rw [executeCycle_pins_idle h hc ha]; rfl
  · rw [(executeCycle_external h hc ha).1]; rfl

/-- The parameters are constant (R4). -/
theorem cycle_cfg {inp : Inputs} {s t : State} {sig : Signals} (h : cycle inp s = .next (t, sig)) :
    t.cfg = s.cfg := by
  obtain ⟨e, f, he, -, -, ⟨-, rfl⟩ | ⟨-, dx, -, rfl⟩⟩ := cycle_next_inv h
  · exact executeCycle_cfg he
  · rw [← executeCycle_cfg he]; cases dx <;> rfl

/-- The access in DX after a cycle is a write that goes on exactly where the cycle's was a write access without
acknowledge: an acknowledged one is finished, and a tick of sCLOCK brings a new one (R65, R66). -/
theorem transfer_after_cycle {inp : Inputs} {s t : State} {sig : Signals}
    (h : cycle inp s = .next (t, sig)) (hc : s.cfg.cacheEn = false) (ha : t.awaitsMemory = true) :
    t.sig.transfer = some true ↔ sig.data.dr = true ∧ s.dx.flags.memwOp = true ∧ inp.dack = false := by
  obtain ⟨e, f, he, -, rfl, ⟨-, rfl⟩ | ⟨hs, dx, -, rfl⟩⟩ := cycle_next_inv h
  · have hea : e.state.awaitsMemory = true := ha
    have hsa := awaitsMemory_of_executeCycle he hc hea
    have hdr : (signalsOf inp s e f).data.dr = true := (executeCycle_dr he hc).trans hsa
    obtain ⟨-, -, hdone⟩ := (awaitsMemory_eq_true (by rw [executeCycle_cfg he, hc])).mp hea
    obtain ⟨-, -, left⟩ := executeCycle_external he hc hsa
    have htr : (e.state.held f).sig.transfer = (externalAccess inp s).transfer := left hdone
    rw [htr, hdr]
    cases hk : inp.dack <;> simp [externalAccess, hk]
  · refine ⟨fun hn => (nomatch hn), fun ⟨hdr, _, hk⟩ => ?_⟩
    have hsa : s.awaitsMemory = true := (executeCycle_dr he hc).symm.trans hdr
    obtain ⟨-, hstall, -⟩ := executeCycle_external he hc hsa
    simp [hstall, hk] at hs

/-- Settles O59: the second cycle's pins are idle, or those of an external access, whose first half looks at what
the first cycle left behind. -/
theorem writeEnableWaveform : Obligations.WriteEnableWaveform := by
  intro inp inp' s t u sig sig' hc h h' goesOn write
  have hct : t.cfg.cacheEn = false := by rw [cycle_cfg h]; exact hc
  obtain ⟨e, f, he, -, rfl, -⟩ := cycle_next_inv h'
  cases ha : t.awaitsMemory
  · have hp : (signalsOf inp' t e f).data = idlePins := executeCycle_pins_idle he hct ha
    simp [write, hp, idlePins]
  · have hp : (signalsOf inp' t e f).data = (externalAccess inp' t).pins :=
      (executeCycle_external he hct ha).1
    have hgo : t.sig.transfer = some true ↔ goesOn := transfer_after_cycle h hc ha
    cases hw : t.dx.flags.memwOp
    · simp [write, hp, hw, externalAccess, transferPins]
    · by_cases hg : goesOn <;> simp [write, hp, hw, hgo, hg, externalAccess, transferPins]

end Sys2Proof.Machine
end

