-- ==== Sys2Proof/Proofs/FetchFields.lean ====
section
/-! PROOFS. What a cycle that advances loads into FD (R101, R140 to R146), and the signals that show it before the
cycle ends (R50, R142, R143). -/

namespace Sys2Proof.Machine

/-- FD takes the instruction the fetch stage has, separated into its fields (R101, R177). -/
@[simp] theorem State.ticked_fd_fetched (s : State) (dx : Option DecodeExecute) (pc w : Word) :
    (s.ticked dx (some ⟨pc, some w⟩)).fd = fetched s.cfg.enc pc w := rfl

/-- FD is empty behind the run's end (R39, R181). -/
@[simp] theorem State.ticked_fd_none (s : State) (dx : Option DecodeExecute) :
    (s.ticked dx none).fd = FetchDecode.empty := rfl

/-- Where IR is asserted and the fetch does not stall, INSACK is there, and IB shows the instruction that the fetch
stage has (R50, R51, R159). -/
theorem signalsOf_ib {inp : Inputs} {s : State} {e : ExecuteCycle} {pc w : Word}
    (hs : e.state.fetchStalls inp = false) (hir : e.state.fetchEnabled = true) :
    (signalsOf inp s e (some ⟨pc, some w⟩)).ib = w := by
  have hack : inp.insack = true := by simpa [State.fetchStalls, hir] using hs
  simp [signalsOf, hir, hack]

/-- A cycle that loads FD with an instruction loads it with the one from the address on IA, the one on IB where the
fetch ends in this cycle, whose source fields are on f_ins_sr1_nc and f_ins_sr2_nc (R140 to R146, R177). -/
theorem cycle_loads_fd {inp : Inputs} {s t : State} {sig : Signals} (h : cycle inp s = .next (t, sig))
    (hs : sig.pStall = false) (hr : t.fd.ready = true) :
    ∃ w, t.fd = fetched s.cfg.enc sig.iaAddr w ∧ (sig.ir = true → w = sig.ib) ∧
      sig.sr1Nc = some (sr1Of s.cfg.enc w) ∧ sig.sr2Nc = some (sr2Of s.cfg.enc w) := by
  obtain ⟨e, f, dx, he, hf, -, hfs, hes, rfl, rfl⟩ := cycle_tick_inv h hs
  rcases fetchCycle_tick hf hfs (hasResult_of_executeCycle he hes hfs) with ⟨-, rfl⟩ | ⟨-, w, rfl, -⟩
  · cases hr
  · have hfd : (e.state.ticked dx (some ⟨e.state.iaAddr, some w⟩)).fd =
        fetched s.cfg.enc e.state.iaAddr w := by
      rw [State.ticked_fd_fetched, executeCycle_cfg he]
    exact ⟨w, hfd, fun hir => (signalsOf_ib hfs hir).symm, rfl, rfl⟩

/-- Settles O58: the instruction is the one FD is loaded with, and FD's fields are its fields. -/
theorem fieldsSeparated : Obligations.FieldsSeparated := by
  intro inp s t sig h hs hr
  obtain ⟨w, hfd, hib, hsr1, hsr2⟩ := cycle_loads_fd h hs hr
  rw [hfd]
  exact ⟨w, hib, rfl, rfl, rfl, rfl, rfl, hsr1, hsr2⟩

end Sys2Proof.Machine
end

