-- ==== Sys2Proof/Proofs/MorphosysBuses.lean ====
section
/-! PROOFS. In which variant the buses to the MorphoSys instruction decoder exist (R260, R261). -/

namespace Sys2Proof.Machine

/-- The variant alone decides it, whatever the cycle's stages do: the buses are missing in rTinyRISC and nowhere
else (R260, R261). -/
theorem signalsOf_morphoBuses_eq_none {inp : Inputs} {s : State} {e : ExecuteCycle} {f : Option FetchedWord} :
    (signalsOf inp s e f).morphoBuses = none ↔ s.cfg.variant = .reduced := by
  cases hv : s.cfg.variant <;> simp [signalsOf, hv]

/-- Settles O50: a cycle that answers shows the signals of its state, in which rTinyRISC has no such buses. -/
theorem reducedHasNoMorphosysBuses : Obligations.ReducedHasNoMorphosysBuses := by
  intro inp s t sig hv h
  obtain ⟨e, f, -, -, rfl, -⟩ := cycle_next_inv h
  exact signalsOf_morphoBuses_eq_none.mpr hv

end Sys2Proof.Machine
end

