-- ==== Sys2Proof/Proofs/Encoding.lean ====
section
/-! PROOFS. Decode and the encoder are inverse to each other (R101, R103, R111), and what the class flags are. -/

namespace Sys2Proof

/-! ### Decode and well-formedness, by the one matching row -/

/-- An instruction is the one of its class and fields (R107). -/
theorem instrOf_cls_fields (i : Instr) : instrOf i.cls i.fields = i := by cases i <;> rfl

@[simp] theorem cls_instrOf (c : InsnClass) (d : Decoded) : (instrOf c d).cls = c := by cases c <;> rfl

@[simp] theorem fields_instrOf (c : InsnClass) (d : Decoded) : (instrOf c d).fields = d := by
  cases c <;> rfl

/-- Decode answers where one row alone matches, with the instruction that row gives (R108, R111). -/
theorem decode_eq_ok {E : Encoding} {w : Word} {i : Instr} :
    decode E w = .ok i ↔ ∃ r, matchingRows E w = [r] ∧ i = instrOf r.cls (decodedFields E r w) := by
  unfold decode
  rcases matchingRows E w with _ | ⟨r, _ | ⟨q, rs⟩⟩
  · simp
  · simp [eq_comm]
  · simp

/-- A word is refused as unknown exactly where no row matches it (R109). -/
theorem decode_eq_unknown {E : Encoding} {w : Word} :
    decode E w = .error .unknown ↔ matchingRows E w = [] := by
  unfold decode
  rcases matchingRows E w with _ | ⟨r, _ | ⟨q, rs⟩⟩ <;> simp

/-- A word is refused as ambiguous exactly where two rows or more match it (R108, D20). -/
theorem decode_eq_ambiguous {E : Encoding} {w : Word} :
    decode E w = .error .ambiguous ↔ 1 < (matchingRows E w).length := by
  unfold decode
  rcases matchingRows E w with _ | ⟨r, _ | ⟨q, rs⟩⟩ <;> simp

/-- An instruction is well formed exactly where one row matches its word and the instruction is that row's. -/
theorem wf_iff {E : Encoding} {i : Instr} :
    i.wf E = true ↔ ∃ r, matchingRows E i.fields.word = [r] ∧
      i = instrOf r.cls (decodedFields E r i.fields.word) := by
  have row_iff (r : DecodeRow) : i = instrOf r.cls (decodedFields E r i.fields.word) ↔
      i.cls = r.cls ∧ i.fields = decodedFields E r i.fields.word := by
    constructor
    · intro h
      generalize decodedFields E r i.fields.word = d at h
      simp [h]
    · rintro ⟨hc, hf⟩
      rw [← hc, ← hf, instrOf_cls_fields]
  simp only [row_iff, Instr.wf, fieldsAgree, rowAgrees]
  rcases matchingRows E i.fields.word with _ | ⟨r, _ | ⟨q, rs⟩⟩
  · simp
  · obtain ⟨word, op, sr1, sr2, dr, imm, drWreq, reads1, reads2⟩ := i.fields
    simp only [decodedFields, Bool.and_eq_true, beq_iff_eq, List.cons.injEq, and_true, exists_eq_left',
      Decoded.mk.injEq, true_and]
    tauto
  · simp

/-- Decode answers exactly the well-formed instruction that carries the word. -/
theorem decode_eq_ok_iff_wf {E : Encoding} {w : Word} {i : Instr} :
    decode E w = .ok i ↔ i.wf E = true ∧ i.fields.word = w := by
  rw [decode_eq_ok, wf_iff]
  constructor
  · rintro ⟨r, hr, rfl⟩
    simp only [fields_instrOf]
    exact ⟨⟨r, hr, rfl⟩, rfl⟩
  · rintro ⟨h, rfl⟩
    exact h

/-! ### The encoder puts the word's own bits back -/

/-- What a field puts at a position, if it has a bit there, is the bit `b`. -/
def BitIs (o : Option Bool) (b : Bool) : Prop := ∀ c, o = some c → c = b

theorem BitIs.orElse {o p : Option Bool} {b : Bool} (ho : BitIs o b) (hp : BitIs p b) :
    BitIs (o <|> p) b := by
  cases o with
  | none => exact hp
  | some c => exact ho

theorem BitIs.getD {o : Option Bool} {b : Bool} (h : BitIs o b) : o.getD b = b := by
  cases o with
  | none => rfl
  | some c => exact h c rfl

theorem BitIs.none (b : Bool) : BitIs none b := fun _ h => nomatch h

/-- A field selected from a word puts the word's own bit at each position it lies over (R103). -/
theorem placedBit_selectBits {n : Nat} (ps : Vector (Fin 32) n) (w : Word) (p : Fin 32) :
    BitIs (placedBit ps (selectBits ps w) p) (w.getLsbD p) := by
  intro c h
  obtain ⟨j, hj, rfl⟩ := Option.map_eq_some_iff.mp h
  have hp : ps[j] = p := by simpa using List.find?_some hj
  simp [selectBits, ← hp]

/-- The dr field of a row that fixes no link register (R242). -/
theorem drOfRow_of_drInWord {E : Encoding} {w : Word} {r : DecodeRow} (hr : matchingRows E w = [r])
    (h : drInWord E w = true) : drOfRow E r w = drOf E w := by
  simp only [drInWord, hr, fixesLink, List.any_cons, List.any_nil, Bool.or_false, Bool.not_eq_true',
    Bool.and_eq_false_iff, beq_eq_false_iff_ne, Option.isSome_eq_false_iff, Option.isNone_iff_eq_none] at h
  unfold drOfRow
  rcases h with h | h
  · rw [if_neg h]
  · simp [h]

/-- Each bit the encoder puts together is the word's (R101, R102, R103). -/
theorem encodedBit_decodedFields {E : Encoding} {w : Word} {r : DecodeRow} (hr : matchingRows E w = [r])
    (p : Fin 32) : encodedBit E (decodedFields E r w) p = w.getLsbD p := by
  have hdr : BitIs (if drInWord E w then placedBit E.dr (drOfRow E r w) p else none) (w.getLsbD p) := by
    split
    · next h =>
      rw [drOfRow_of_drInWord hr h]
      exact placedBit_selectBits E.dr w p
    · exact .none _
  exact BitIs.getD ((placedBit_selectBits E.opcode w p).orElse <| (placedBit_selectBits E.sr1 w p).orElse <|
    (placedBit_selectBits E.sr2 w p).orElse <| hdr.orElse <| placedBit_selectBits E.imm w p)

/-- The encoder gives a well-formed instruction's own word. -/
theorem encode_of_wf {E : Encoding} {i : Instr} (h : i.wf E = true) : encode E i = i.fields.word := by
  obtain ⟨r, hr, hi⟩ := wf_iff.mp h
  have hf : i.fields = decodedFields E r i.fields.word := by
    rw [hi, fields_instrOf]; rfl
  apply BitVec.eq_of_getLsbD_eq
  intro p hp
  have hbit := encodedBit_decodedFields hr ⟨p, hp⟩
  rw [← hf] at hbit
  simpa [encode, hp] using hbit

/-- Settles O3: the encoder gives the word back, and decode answers the well-formed instruction that carries it. -/
theorem decodeOfEncode : Obligations.DecodeOfEncode := by
  intro E i h
  rw [encode_of_wf h]
  exact ⟨rfl, decode_eq_ok_iff_wf.mpr ⟨h, rfl⟩⟩

/-- Settles O4: what decode answers is the instruction of the one row in the list of matching rows. -/
theorem decodeAnswersWellFormed : Obligations.DecodeAnswersWellFormed := by
  intro E w
  refine ⟨fun i h => ?_, ?_⟩
  · obtain ⟨hwf, hword⟩ := decode_eq_ok_iff_wf.mp h
    obtain ⟨r, hr, rfl⟩ := decode_eq_ok.mp h
    have mem_iff (q : DecodeRow) : q ∈ E.rows ∧ w &&& q.mask = q.value ↔ q = r := by
      have : q ∈ matchingRows E w ↔ q = r := by simp [hr]
      simpa [matchingRows, rowMatches] using this
    obtain ⟨hmem, hmatch⟩ := (mem_iff r).mpr rfl
    exact ⟨hwf, hword, r, hmem, hmatch, by simp, by simp [decodedFields, drOfRow],
      fun q hq hm => (mem_iff q).mp ⟨hq, hm⟩⟩
  · change _ ↔ (matchingRows E w).length = 1
    simp only [decode_eq_ok, List.length_eq_one_iff]
    constructor
    · rintro ⟨-, r, hr, -⟩
      exact ⟨r, hr⟩
    · rintro ⟨r, hr⟩
      exact ⟨_, r, hr, rfl⟩

/-- Settles O5: T0's table, run on the six words. -/
theorem testWordsDecode : Obligations.TestWordsDecode := by
  unfold Obligations.TestWordsDecode
  decide +kernel

/-- Settles O6, class by class. -/
theorem classFlagsFollowTable : Obligations.ClassFlagsFollowTable := by
  intro c
  cases c <;> decide

end Sys2Proof
end

