-- ==== Sys2Proof/Proofs/Reading.lean ====
section
/-! PROOFS. What a register read in the decode stage gives, by the nearest result on its way (R23, R24, R158, R303,
R304). -/

namespace Sys2Proof.Machine

/-! ### The nearest result on its way -/

theorem producer_of_forward {s : State} {r : RegId}
    (h : s.dx.ready = true ∧ s.xn.drWreq = true ∧ s.xn.dr = r) :
    s.producer r = some ⟨1, true, r, s.xn.data, s.cfg.loadForwarded || !isLoad s.dx.flags⟩ := by
  obtain ⟨h1, h2, h3⟩ := h
  simp [State.producer, State.pendingWrites, h1, h2, h3]

theorem producer_of_xw {s : State} {r : RegId}
    (h1 : ¬(s.dx.ready = true ∧ s.xn.drWreq = true ∧ s.xn.dr = r))
    (h : s.xw.ready = true ∧ s.xw.drWreq = true ∧ s.xw.dr = r) :
    s.producer r = some ⟨2, true, r, s.xw.data, s.cfg.rfHazardFree⟩ := by
  obtain ⟨h2, h3, h4⟩ := h
  rw [← and_assoc] at h1
  simp [State.producer, State.pendingWrites, h1, h2, h3, h4]

theorem producer_of_wd {s : State} {r : RegId}
    (h1 : ¬(s.dx.ready = true ∧ s.xn.drWreq = true ∧ s.xn.dr = r))
    (h2 : ¬(s.xw.ready = true ∧ s.xw.drWreq = true ∧ s.xw.dr = r))
    (h : s.wd.drWren = true ∧ s.wd.dr = r) :
    s.producer r = some ⟨3, true, r, s.wd.data, s.cfg.rfHazardFree⟩ := by
  obtain ⟨h3, h4⟩ := h
  rw [← and_assoc] at h1 h2
  simp [State.producer, State.pendingWrites, h1, h2, h3, h4]

theorem producer_eq_none {s : State} {r : RegId} : s.producer r = none ↔
    ¬(s.dx.ready = true ∧ s.xn.drWreq = true ∧ s.xn.dr = r) ∧
    ¬(s.xw.ready = true ∧ s.xw.drWreq = true ∧ s.xw.dr = r) ∧ ¬(s.wd.drWren = true ∧ s.wd.dr = r) := by
  simp [State.producer, State.pendingWrites]

/-! ### A read, by the nearest result on its way -/

section Reads
variable {s : State} {r : RegId} (p : Port)

/-- The register that reads as zero (R23). -/
theorem readReg_zero (hz : s.cfg.zeroReg = some r) : s.readReg p r = .next 0 := by
  simp [State.readReg, hz]

theorem readReg_of_producer_none (hz : s.cfg.zeroReg ≠ some r) (h : s.producer r = none) :
    s.readReg p r = .next (s.oldValue p r) := by
  rw [State.readReg, if_neg hz, readPast_none s p r _ h]

theorem readReg_of_visible (hz : s.cfg.zeroReg ≠ some r) {w : PendingWrite} (h : s.producer r = some w)
    (hv : w.visible = true) : s.readReg p r = .next w.data := by
  rw [State.readReg, if_neg hz, readPast_visible s p r _ w h hv]

theorem readReg_of_unsafe (hz : s.cfg.zeroReg ≠ some r) {w : PendingWrite} (h : s.producer r = some w)
    (hv : w.visible = false) (hh : s.cfg.hazard = .fault) :
    s.readReg p r = .fault (.hazardFault r w.distance) := by
  rw [State.readReg, if_neg hz, readPast_fault s p r _ w h hv hh]

/-- With no result on its way the old value is what the register file's contents give (R24). -/
theorem oldValue_of_producer_none (h : s.producer r = none) :
    s.oldValue p r = s.portValue p r (s.contents r) := by
  rw [State.oldValue, behind_of_producer_none h]

/-- No fault but R303's stops a read. -/
theorem hazard_of_readReg_fault {f : Fault} (h : s.readReg p r = .fault f) : ∃ k, f = .hazardFault r k := by
  have past : ∀ ws, s.readPast p r ws = .fault f → ∃ k, f = .hazardFault r k := by
    intro ws
    induction ws with
    | nil => intro h; cases h
    | cons w ws ih =>
      intro h
      unfold State.readPast at h
      split at h
      · split at h
        · cases h
        · split at h
          · cases h; exact ⟨_, rfl⟩
          · split at h
            · cases h
            · exact ih h
      · exact ih h
  unfold State.readReg at h
  split at h
  · cases h
  · exact past _ h

end Reads

/-- Settles O10: by the nearest result of the register on its way, at distance 1, 2 or 3, or none. -/
theorem readByDistance : Obligations.ReadByDistance := by
  intro s p r hz w1 w2 w3 held old
  have hheld : s.behind r = held := by
    simp only [State.behind, State.contents, held, Bool.and_eq_true, beq_iff_eq]
  have hold : s.oldValue p r = old := by
    simp only [State.oldValue, State.portValue, hheld, old, Bool.and_eq_true, Bool.not_eq_true',
      decide_eq_true_eq]
  refine ⟨fun h1 hv => ?_, fun h1 hf hl hh => ?_, fun h1 h2 hv => ?_, fun h1 h2 hv hh => ?_,
    fun h1 h2 h3 hv => ?_, fun h1 h2 h3 hv hh => ?_, fun h1 h2 h3 => ?_, fun hd => ?_⟩
  · exact readReg_of_visible p hz (producer_of_forward h1) (by simpa using hv)
  · exact readReg_of_unsafe p hz (producer_of_forward h1) (by simp [hf, hl]) hh
  · exact readReg_of_visible p hz (producer_of_xw h1 h2) hv
  · exact readReg_of_unsafe p hz (producer_of_xw h1 h2) hv hh
  · exact readReg_of_visible p hz (producer_of_wd h1 h2 h3) hv
  · exact readReg_of_unsafe p hz (producer_of_wd h1 h2 h3) hv hh
  · rw [← hold]
    exact readReg_of_producer_none p hz (producer_eq_none.mpr ⟨h1, h2, h3⟩)
  · obtain ⟨v, hv, hcase⟩ := readPast_draw s p r hd s.pendingWrites
    refine ⟨v, by rw [State.readReg, if_neg hz, hv], ?_⟩
    rcases hcase with h | ⟨q, hq, hw, rfl, rfl⟩
    · exact .inl (h.trans hold)
    · simp only [State.pendingWrites, List.mem_cons, List.not_mem_nil, or_false] at hq
      rcases hq with rfl | rfl | rfl
      · exact .inr (.inl ⟨by simpa [w1, and_assoc] using hw, rfl⟩)
      · exact .inr (.inr (.inl ⟨by simpa [w2, and_assoc] using hw, rfl⟩))
      · exact .inr (.inr (.inr ⟨by simpa [w3] using hw, rfl⟩))

/-- Settles O11: the read answers a value the spec allows, which at a safe distance is the sequential view's. -/
theorem safeReadIsSequential : Obligations.SafeReadIsSequential := by
  intro s p r hs hw
  obtain ⟨v, hv, hval⟩ := readReg_of_readable p (.inr (.inr hs) : s.readable r)
  have : v = s.reg r := by
    refine reg_of_readValues hs (hw.imp_right (Or.imp_right ?_)) hval
    rintro ⟨w, hp⟩
    simp [hp]
  rw [hv, this]

/-- Settles O12: each of the three ways of reading looks at ZERO_REG first. -/
theorem zeroRegisterReadsZero : Obligations.ZeroRegisterReadsZero := by
  intro s p r hz
  exact ⟨readReg_zero p hz, by simp [State.reg, hz], by simp [State.rfRead, hz]⟩

/-- Settles O13: with no result on its way the read gives what the port makes of the unwritten register. -/
theorem unwrittenReadGoesOn : Obligations.UnwrittenReadGoesOn := by
  intro s p r hz hp hw
  have hread := readReg_of_producer_none p hz hp
  rw [oldValue_of_producer_none p hp] at hread
  have hreset (hu : s.cfg.unwritten = .resetValue) : s.readReg p r = .next (s.rfRead r) := by
    rw [hread, portValue_of_holds (.inl hu)]; rfl
  refine ⟨fun hu => ?_, hreset, fun hu h0 => ?_⟩
  · rw [hread]
    simp [State.portValue, State.contents, hu, hw]
  · rw [hreset hu, h0.1 r hw]

end Sys2Proof.Machine
end

