-- ==== Sys2Proof/Proofs/Instructions.lean ====
section
/-! PROOFS. Each instruction completes wherever its operands can be read and nothing declines it, and what it does
then (R200 to R204, R224, R225, R241, R242, R267 to R269). -/

namespace Sys2Proof.Machine

/-! ### The operands -/

theorem readSource_operandIs {s : State} {reads : Bool} {r : RegId} (p : Port)
    (h : reads = true → s.readable r) : ∃ o, s.readSource p reads r = .next o ∧ s.operandIs p reads r o := by
  unfold State.readSource State.operandIs
  cases reads
  · exact ⟨none, rfl, rfl⟩
  · obtain ⟨v, hv, hval⟩ := readReg_of_readable p (h rfl)
    exact ⟨some v, by simp [hv], v, rfl, hval⟩

/-- Operands that can be read are read, and are values the spec lets the reads give (R106, R303). -/
theorem readSources_operandsAre {s : State} {d : Decoded} (h : s.operandsReadable d) :
    ∃ r1 r2, s.readSources d = .next (r1, r2) ∧ s.operandsAre d r1 r2 := by
  obtain ⟨r1, h1, o1⟩ := readSource_operandIs .one h.1
  obtain ⟨r2, h2, o2⟩ := readSource_operandIs .two h.2
  exact ⟨r1, r2, by simp [State.readSources, h1, h2], o1, o2⟩

/-- No fault but R303's stops the reading of the operands. -/
theorem hazard_of_readSources_fault {s : State} {d : Decoded} {f : Fault} (h : s.readSources d = .fault f) :
    ∃ r k, f = .hazardFault r k := by
  have source {p : Port} {reads : Bool} {r : RegId} (h : s.readSource p reads r = .fault f) :
      ∃ r k, f = .hazardFault r k := by
    unfold State.readSource at h
    cases reads
    · cases h
    · cases hr : s.readReg p r with
      | next v => simp [hr] at h
      | refused x => simp [hr] at h
      | fault g =>
        obtain rfl : g = f := by simpa [hr] using h
        exact ⟨r, hazard_of_readReg_fault p hr⟩
  unfold State.readSources at h
  cases h1 : s.readSource .one d.reads1 d.sr1 with
  | refused x => simp [h1] at h
  | fault g =>
    obtain rfl : g = f := by simpa [h1] using h
    exact source h1
  | next r1 =>
    cases h2 : s.readSource .two d.reads2 d.sr2 with
    | next r2 => simp [h1, h2] at h
    | refused x => simp [h1, h2] at h
    | fault g =>
      obtain rfl : g = f := by simpa [h1, h2] using h
      exact source h2

/-- Reading the operands comes first in every instruction's decode stage (R281). -/
theorem exec_of_readSources_fault {i : Instr} {s : State} {f : Fault}
    (h : s.readSources i.fields = .fault f) : exec i s = .fault f := by
  have hissue : issueInstr i s = .fault f := by
    have hi (c : InsnClass) : s.issue c i.fields = .fault f := by simp [State.issue, h]
    have ht (c : InsnClass) : s.issueTransfer c i.fields = .fault f := by simp [State.issueTransfer, h]
    cases i
    case ct d => exact ht .ct
    case jal d => exact ht .jal
    all_goals exact hi _
  rw [exec_eq_stages, hissue]; rfl

/-- Settles O14: the first operand's fault comes of its own read, the second's where the first is read. -/
theorem unsafeReadFaults : Obligations.UnsafeReadFaults := by
  intro s i w hh hv
  refine ⟨fun r h1 hr hz hp => exec_of_readSources_fault ?_, fun r hread h2 hr hz hp =>
    exec_of_readSources_fault ?_⟩
  · simp [State.readSources, State.readSource, h1, hr, readReg_of_unsafe .one hz hp hv hh]
  · obtain ⟨o, ho, -⟩ := readSource_operandIs .one hread
    simp only [State.readSources, ho, andThen_next]
    simp [State.readSource, h2, hr, readReg_of_unsafe .two hz hp hv hh]

/-! ### What the pipeline's move leaves behind an instruction -/

section Frame
variable {s u : State} (h : PerformFrame s u)
include h

theorem PerformFrame.cfg : u.cfg = s.cfg := by rw [h]

theorem PerformFrame.reg (r : RegId) : u.reg r = s.reg r := by rw [h]; rfl

theorem PerformFrame.unchanged_retire (x : DecodeExecute) (v : Word) : Unchanged s (u.retire x v) := by
  rw [h]; exact ⟨rfl, rfl, rfl, rfl⟩

theorem PerformFrame.pipelineAfter_retire (x : DecodeExecute) (v : Word) :
    PipelineAfter s (u.retire x v) := by
  rw [h]; exact pipelineAfter_of_advance rfl rfl rfl rfl rfl rfl

theorem PerformFrame.pcsAfter_retire (x : DecodeExecute) (v : Word) : PcsAfter s (u.retire x v) x.target := by
  rw [h]; exact pcsAfter_nextPcs s _ _ rfl rfl

/-- The registers after an instruction whose DX is x and whose result is v (R22, R23). -/
theorem PerformFrame.reg_retire {x : DecodeExecute} (hx : x.ready = true) (v : Word) (r : RegId) :
    (u.retire x v).reg r = if s.cfg.zeroReg = some r then 0
      else if x.drWreq = true ∧ x.dr = r then v else s.reg r := by
  rw [Machine.reg_retire u x v hx r, h.cfg, h.reg]

/-- The instruction in DX is done: everything but data memory and events is as its statement says. -/
theorem PerformFrame.done_retire (c : InsnClass) (d : Decoded) (r1 r2 target : Option Word) (v : Word) :
    Done s (u.retire { s.decodedAs c d (r1, r2) with target := target } v) c d r1 r2 target v :=
  ⟨fun r => h.reg_retire rfl v r, h.pcsAfter_retire _ v, h.pipelineAfter_retire _ v, h.unchanged_retire _ v,
    rfl, rfl, by rw [h]; rfl⟩

end Frame

/-- An instruction that is no control transfer: with its operands read, the execute stage's work on DX, and the
pipeline moves. -/
theorem throughStages_issue {s : State} {c : InsnClass} {d : Decoded} {rr : Option Word × Option Word}
    (h : s.readSources d = .next rr) (perform : DecodeExecute → Host.Outcome (State × Word) Fault Refusal) :
    throughStages (s.issue c d) perform =
      andThen (perform (s.decodedAs c d rr)) fun tx => .next (tx.1.retire (s.decodedAs c d rr) tx.2) := by
  rw [throughStages, issue_eq_next.mpr ⟨rr, h, rfl⟩, andThen_next]

/-! ### ALU, SHIFT, CMP, LDLI, LDUI -/

/-- Settles O15: the execute stage leaves the state alone and gives the class's function as the result. -/
theorem computeClassesComplete : Obligations.ComputeClassesComplete := by
  intro s d hd
  obtain ⟨r1, r2, hr, ho⟩ := readSources_operandsAre hd
  refine ⟨r1, r2, ho, ?_⟩
  intro a b result
  have completes {i : Instr} {c : InsnClass} {v : Word}
      (h : exec i s = .next (s.retire (s.decodedAs c d (r1, r2)) v)) : result i c v :=
    ⟨_, h, (PerformFrame.refl s).done_retire c d r1 r2 none v, fun _ => rfl, rfl, rfl⟩
  exact ⟨completes (throughStages_issue hr _), completes (throughStages_issue hr _),
    completes (throughStages_issue hr _), completes (throughStages_issue hr _),
    completes (throughStages_issue hr _)⟩

/-! ### LOAD and STORE -/

theorem PerformFrame.of_recordAccess (s : State) (a : Word) (w : Bool) : PerformFrame s (s.recordAccess a w) := by
  unfold State.recordAccess
  split <;> rfl

theorem PerformFrame.of_store (s : State) (a d : Word) :
    PerformFrame s ((s.recordAccess a true).writeData a d) := by
  unfold State.recordAccess
  split <;> rfl

theorem access_of_not_refused {s : State} {a : Word} (h : s.accessRefusal a = none) (w : Bool) :
    s.access a w = .next (s.recordAccess a w) := by
  simp [State.access, h]

theorem access_of_refused {s : State} {a : Word} {x : Refusal} (h : s.accessRefusal a = some x) (w : Bool) :
    s.access a w = .refused x := by
  simp [State.access, h]

/-- A DMA transfer may touch the address's cell (R306). -/
def State.SharedWithDma (s : State) (a : Word) : Prop :=
  s.dmaIssued = true ∧
    ∃ g ∈ s.cfg.dmaShared, g.1 ≤ busAddr s.cfg.variant a ∧ busAddr s.cfg.variant a ≤ g.2

theorem accessRefusal_of_shared {s : State} {a : Word} (h : s.SharedWithDma a) :
    s.accessRefusal a = some (.dmaSharedMemory (busAddr s.cfg.variant a)) := by
  obtain ⟨hi, g, hg, hle⟩ := h
  have hany : s.cfg.dmaShared.any (fun r => r.1 ≤ busAddr s.cfg.variant a && busAddr s.cfg.variant a ≤ r.2) = true :=
    List.any_eq_true.mpr ⟨g, hg, by simpa using hle⟩
  simp [State.accessRefusal, hi, hany]

/-- Where no DMA transfer touches the cell, only a remembered access to another cell near by declines (R75). -/
theorem accessRefusal_of_not_shared {s : State} {a : Word} (h : ¬s.SharedWithDma a) :
    s.accessRefusal a = if s.cfg.dataCellsIndependent then none
      else (s.accesses.find? fun x => cellsOverlap s.cfg.variant (busAddr s.cfg.variant a) x.addr).map fun x =>
        .overlappingCells (busAddr s.cfg.variant a) x.addr := by
  have hany : (s.dmaIssued && s.cfg.dmaShared.any
      (fun r => r.1 ≤ busAddr s.cfg.variant a && busAddr s.cfg.variant a ≤ r.2)) = false := by
    simpa [State.SharedWithDma] using h
  simp only [State.accessRefusal, hany, Bool.false_eq_true, if_false]

theorem accessRefusal_of_allowed {s : State} (h : s.accessesAllowed) (a : Word) : s.accessRefusal a = none := by
  obtain ⟨hc, hd⟩ := h
  have hs : ¬s.SharedWithDma a := by
    rintro ⟨hi, g, hg, -⟩
    rcases hd with hd | hd
    · simp [hd] at hi
    · simp [hd] at hg
  rw [accessRefusal_of_not_shared hs, if_pos hc]

/-- The cells after a store: the one at the bus address holds what crossed the bus (R86). -/
theorem writeData_cellAt (s : State) (a d : Word) (b : Nat) :
    (s.writeData a d).cellAt b =
      if b = busAddr s.cfg.variant a then dataBus s.cfg.variant d else s.cellAt b := by
  split
  · next h => rw [h, writeData_cellAt_same]
  · next h => rw [writeData_cellAt_other s a d h]

section LoadStore
variable {s : State} {d : Decoded} {r1 r2 : Option Word} (hr : s.readSources d = .next (r1, r2))
include hr

/-- LOAD with its operands read: the access, then the loaded value as the result (R224). -/
theorem exec_load_of_reads : exec (.load d) s =
    andThen (s.access (mAddrFn s.cfg.fns d.word r1 r2 s.pc) false) fun t =>
      .next (t.retire (s.decodedAs .load d (r1, r2)) (s.loadValue (mAddrFn s.cfg.fns d.word r1 r2 s.pc))) := by
  refine (throughStages_issue hr _).trans ?_
  rw [performLoad, andThen_assoc]; rfl

/-- STORE with its operands read: the access, the write of the cell, and a draw as the result (R225). -/
theorem exec_store_of_reads : exec (.store d) s =
    andThen (s.access (mAddrFn s.cfg.fns d.word r1 r2 s.pc) true) fun t =>
      .next ((t.writeData (mAddrFn s.cfg.fns d.word r1 r2 s.pc) (mDataFn s.cfg.fns d.word r1 r2 s.pc)).retire
        (s.decodedAs .store d (r1, r2)) (Config.freeWord s.draws)) := by
  refine (throughStages_issue hr _).trans ?_
  rw [performStore, andThen_assoc]; rfl

/-- LOAD completes where its access is not declined. -/
theorem load_completes (h : s.accessRefusal (mAddrFn s.cfg.fns d.word r1 r2 s.pc) = none) :
    ∃ t, exec (.load d) s = .next t ∧
      Done s t .load d r1 r2 none (s.loadValue (mAddrFn s.cfg.fns d.word r1 r2 s.pc)) ∧
      CellsUnchanged s t ∧ EventsUnchanged s t ∧
      t.accesses = (s.recordAccess (mAddrFn s.cfg.fns d.word r1 r2 s.pc) false).accesses := by
  rw [exec_load_of_reads hr, access_of_not_refused h]
  refine ⟨_, rfl, (PerformFrame.of_recordAccess s _ false).done_retire .load d r1 r2 none _, fun a => ?_,
    ⟨?_, ?_⟩, rfl⟩
  · simp [State.cellAt]
  · simp
  · simp

/-- STORE completes where its access is not declined. -/
theorem store_completes (h : s.accessRefusal (mAddrFn s.cfg.fns d.word r1 r2 s.pc) = none) :
    ∃ t, exec (.store d) s = .next t ∧ Done s t .store d r1 r2 none (Config.freeWord s.draws) ∧
      EventsUnchanged s t ∧
      (∀ a, t.cellAt a = if a = busAddr s.cfg.variant (mAddrFn s.cfg.fns d.word r1 r2 s.pc) then
        dataBus s.cfg.variant (mDataFn s.cfg.fns d.word r1 r2 s.pc) else s.cellAt a) ∧
      t.accesses = (s.recordAccess (mAddrFn s.cfg.fns d.word r1 r2 s.pc) true).accesses := by
  rw [exec_store_of_reads hr, access_of_not_refused h]
  refine ⟨_, rfl, (PerformFrame.of_store s _ _).done_retire .store d r1 r2 none _, ⟨?_, ?_⟩, fun a => ?_, rfl⟩
  · simp
  · simp
  · refine (writeData_cellAt (s.recordAccess _ true) _ _ a).trans ?_
    simp [State.cellAt]

end LoadStore

/-- Settles O16, LOAD with no access declined. -/
theorem loadCompletes : Obligations.LoadCompletes := by
  intro s d hd ha
  obtain ⟨r1, r2, hr, ho⟩ := readSources_operandsAre hd
  obtain ⟨t, he, hdone, hc, hev, -⟩ := load_completes hr (accessRefusal_of_allowed ha _)
  exact ⟨r1, r2, t, ho, he, hdone, hc, hev⟩

/-- Settles O17, STORE with no access declined. -/
theorem storeCompletes : Obligations.StoreCompletes := by
  intro s d hd ha
  obtain ⟨r1, r2, hr, ho⟩ := readSources_operandsAre hd
  obtain ⟨t, he, hdone, hev, hc, -⟩ := store_completes hr (accessRefusal_of_allowed ha _)
  exact ⟨r1, r2, t, ho, he, hdone, hev, hc⟩

/-- What is remembered of an access, where a later refusal may depend on it (R75, R84). -/
theorem recordAccess_accesses (s : State) (a : Word) (w : Bool) : (s.recordAccess a w).accesses =
    if s.cfg.dataCellsIndependent = false ∨ s.cfg.spacesShared = true then
      ⟨busAddr s.cfg.variant a, w⟩ :: s.accesses
    else s.accesses := by
  unfold State.recordAccess
  cases s.cfg.dataCellsIndependent <;> cases s.cfg.spacesShared <;> rfl

/-- Settles O33: the two refusals by name, the DMA one first, and completion where neither is due. -/
theorem accessesDeclined : Obligations.AccessesDeclined := by
  intro s d hd
  obtain ⟨r1, r2, hr, ho⟩ := readSources_operandsAre hd
  refine ⟨r1, r2, ho, ?_⟩
  intro addr a shared overlaps remembered
  have declined {x : Refusal} (h : s.accessRefusal addr = some x) :
      exec (.load d) s = .refused x ∧ exec (.store d) s = .refused x := by
    rw [exec_load_of_reads hr, exec_store_of_reads hr, access_of_refused h, access_of_refused h]
    exact ⟨rfl, rfl⟩
  refine ⟨fun hs => declined (accessRefusal_of_shared hs), fun hs hov => ?_, fun hs hov => ?_⟩
  · obtain ⟨hi, x, hx, hover⟩ := hov
    have hrefusal := accessRefusal_of_not_shared (a := addr) hs
    cases hfind : s.accesses.find? fun x => cellsOverlap s.cfg.variant (busAddr s.cfg.variant addr) x.addr with
    | none => exact absurd hover (List.find?_eq_none.mp hfind x hx)
    | some y =>
      refine ⟨y, List.mem_of_find?_eq_some hfind, by simpa using List.find?_some hfind, declined ?_⟩
      simpa [hi, hfind] using hrefusal
  · have hnone : s.accessRefusal addr = none := by
      rw [accessRefusal_of_not_shared hs]
      split
      · rfl
      · next hi =>
        refine Option.map_eq_none_iff.mpr (List.find?_eq_none.mpr fun x hx hover => ?_)
        exact hov ⟨by simpa using hi, x, hx, hover⟩
    obtain ⟨t, he, hdone, hc, -, hacc⟩ := load_completes hr hnone
    obtain ⟨t', he', hdone', -, hc', hacc'⟩ := store_completes hr hnone
    exact ⟨⟨t, he, hdone, hc, hacc.trans (recordAccess_accesses s addr false)⟩,
      t', he', hdone', hc', hacc'.trans (recordAccess_accesses s addr true)⟩

/-! ### CT and JAL -/

section Transfers
variable {s : State} {d : Decoded} {r1 r2 : Option Word} (hr : s.readSources d = .next (r1, r2))
include hr

/-- Outside a delay slot, with no misaligned target, CT and JAL complete; control goes where BranchUnit says. -/
theorem transfers_complete (hs : s.inDelaySlot = false)
    (hm : (branchUnitFn s.cfg.fns d.word r1 r2 s.pc).1 = true →
      targetMisaligned s.cfg.insnStep (branchUnitFn s.cfg.fns d.word r1 r2 s.pc).2 = false) :
    let b := branchUnitFn s.cfg.fns d.word r1 r2 s.pc
    (∃ t, exec (.ct d) s = .next t ∧
      Done s t .ct d r1 r2 (if b.1 then some b.2 else none) (Config.freeWord s.draws) ∧
      CellsUnchanged s t ∧ EventsUnchanged s t) ∧
    ∃ t, exec (.jal d) s = .next t ∧ Done s t .jal d r1 r2 (if b.1 then some b.2 else none) (s.pc + 2) ∧
      CellsUnchanged s t ∧ EventsUnchanged s t := by
  intro b
  have issued (c : InsnClass) : s.issueTransfer c d =
      .next { s.decodedAs c d (r1, r2) with target := if b.1 then some b.2 else none } :=
    issueTransfer_eq_next.mpr ⟨(r1, r2), hr, hs, hm, rfl⟩
  have completes {i : Instr} {c : InsnClass} {v : Word} (h : exec i s = .next (s.retire
      { s.decodedAs c d (r1, r2) with target := if b.1 then some b.2 else none } v)) :
      ∃ t, exec i s = .next t ∧ Done s t c d r1 r2 (if b.1 then some b.2 else none) v ∧
        CellsUnchanged s t ∧ EventsUnchanged s t :=
    ⟨_, h, (PerformFrame.refl s).done_retire c d r1 r2 _ v, fun _ => rfl, rfl, rfl⟩
  refine ⟨completes ?_, completes ?_⟩
  · simp only [exec, execCt, issueCt, throughStages, issued, andThen_next, performCt]
  · simp only [exec, execJal, issueJal, throughStages, issued, andThen_next, performJal, State.decodedAs]

/-- With its operands read, a control transfer in a delay slot faults (R245). -/
theorem issueTransfer_of_inDelaySlot (hs : s.inDelaySlot = true) (c : InsnClass) :
    s.issueTransfer c d = .fault (.controlTransferInDelaySlot s.pc) := by
  simp [State.issueTransfer, hr, hs]

/-- With its operands read, a taken control transfer to a misaligned target faults (R246). -/
theorem issueTransfer_of_misaligned (hs : s.inDelaySlot = false)
    (hb : (branchUnitFn s.cfg.fns d.word r1 r2 s.pc).1 = true)
    (hm : targetMisaligned s.cfg.insnStep (branchUnitFn s.cfg.fns d.word r1 r2 s.pc).2 = true) (c : InsnClass) :
    s.issueTransfer c d = .fault (.misalignedTarget (branchUnitFn s.cfg.fns d.word r1 r2 s.pc).2) := by
  simp [State.issueTransfer, hr, hs, hb, hm]

end Transfers

/-- A control transfer that faults in its decode stage faults. -/
theorem exec_transfer_fault {s : State} {d : Decoded} {f : Fault}
    (h : ∀ c, s.issueTransfer c d = .fault f) : exec (.ct d) s = .fault f ∧ exec (.jal d) s = .fault f := by
  simp [exec, execCt, execJal, issueCt, issueJal, throughStages, h]

/-- Under INSN_STEP = 1 no target is misaligned (R246). -/
theorem targetMisaligned_one (a : Word) : targetMisaligned .one a = false := rfl

/-- Under INSN_STEP = 2 the odd targets are misaligned (R246). -/
theorem targetMisaligned_two (a : Word) : targetMisaligned .two a = true ↔ a.toNat % 2 = 1 := by
  simp [targetMisaligned, BitVec.getLsbD, Nat.testBit_zero]

/-- Settles O18: under INSN_STEP = 1 no target is misaligned. -/
theorem controlTransferCompletes : Obligations.ControlTransferCompletes := by
  intro s d hd hs hst
  obtain ⟨r1, r2, hr, ho⟩ := readSources_operandsAre hd
  obtain ⟨⟨t, ht⟩, -⟩ := transfers_complete hr hs fun _ => by rw [hst, targetMisaligned_one]
  exact ⟨r1, r2, t, ho, ht⟩

/-- Settles O19: under INSN_STEP = 1 no target is misaligned. -/
theorem jumpAndLinkCompletes : Obligations.JumpAndLinkCompletes := by
  intro s d hd hs hst
  obtain ⟨r1, r2, hr, ho⟩ := readSources_operandsAre hd
  obtain ⟨-, t, ht⟩ := transfers_complete hr hs fun _ => by rw [hst, targetMisaligned_one]
  exact ⟨r1, r2, t, ho, ht⟩

/-- Settles O20: JAL's DX carries pc + 2, which its execute stage hands on. -/
theorem returnAddress : Obligations.ReturnAddress := by
  intro s t d h
  obtain ⟨dx, hdx, h⟩ := andThen_eq_next.mp h
  cases h
  have hi : IssuedAs (.jal d) s dx := issuedAs_of_next hdx
  exact ⟨by rw [State.retire_dx, hi.flags]; rfl, hi.jalAddr, rfl⟩

/-- Settles O21: a taken transfer under INSN_STEP = 2 is misaligned exactly where its target is odd. -/
theorem oddTargetFaults : Obligations.OddTargetFaults := by
  intro s d hd hs hst
  obtain ⟨r1, r2, hr, ho⟩ := readSources_operandsAre hd
  refine ⟨r1, r2, ho, ?_⟩
  intro b
  split
  · next hb =>
    exact exec_transfer_fault (issueTransfer_of_misaligned hr hs hb.1
      (by rw [hst]; exact (targetMisaligned_two _).mpr hb.2))
  · next hb =>
    refine transfers_complete hr hs fun htaken => ?_
    rw [hst, ← Bool.not_eq_true, targetMisaligned_two]
    exact fun hodd => hb ⟨htaken, hodd⟩

/-- Settles O22: the fault comes of the slot alone; the reads before it raise none but R303's, and what follows
outside a slot none but R246's. -/
theorem transferInDelaySlotFaults : Obligations.TransferInDelaySlotFaults := by
  intro s d
  refine ⟨fun hd hs => ?_, fun hs pc => ?_, ?_⟩
  · obtain ⟨r1, r2, hr, -⟩ := readSources_operandsAre hd
    exact exec_transfer_fault (issueTransfer_of_inDelaySlot hr hs)
  · have issued (c : InsnClass) : s.issueTransfer c d ≠ .fault (.controlTransferInDelaySlot pc) := by
      intro h
      unfold State.issueTransfer at h
      cases hr : s.readSources d with
      | refused x => simp [hr] at h
      | fault f =>
        obtain ⟨r, k, rfl⟩ := hazard_of_readSources_fault hr
        simp [hr] at h
      | next rr =>
        simp only [hr, andThen_next, hs, Bool.false_eq_true, if_false] at h
        split at h <;> simp at h
    constructor
    · intro h
      simp only [exec, execCt, issueCt, throughStages, performCt, andThen_next] at h
      cases hi : s.issueTransfer .ct d <;> simp_all
    · intro h
      simp only [exec, execJal, issueJal, throughStages, performJal, andThen_next] at h
      cases hi : s.issueTransfer .jal d <;> simp_all
  · simp [State.inDelaySlot, Option.isSome_iff_exists, and_assoc]

/-! ### MORPH, MORPH_DMA, RCRISC -/

/-- Settles O23: the execute stage adds the one event and gives a draw as the result. -/
theorem morphosysClassesComplete : Obligations.MorphosysClassesComplete := by
  intro s d hd
  obtain ⟨r1, r2, hr, ho⟩ := readSources_operandsAre hd
  refine ⟨r1, r2, ho, ?_⟩
  intro a b done
  have completes {i : Instr} {c : InsnClass} {dma : Bool} (h : exec i s =
      .next ((s.emit (s.decodedAs c d (r1, r2)) dma).retire (s.decodedAs c d (r1, r2)) (Config.freeWord s.draws))) :
      done i c dma := by
    have hframe : PerformFrame s (s.emit (s.decodedAs c d (r1, r2)) dma) := rfl
    exact ⟨_, h, hframe.done_retire c d r1 r2 none _, fun _ => rfl, rfl, rfl⟩
  exact ⟨completes (throughStages_issue hr _), completes (throughStages_issue hr _),
    completes (throughStages_issue hr _)⟩

end Sys2Proof.Machine
end

