-- ==== Sys2Proof/Proofs/Steps.lean ====
section
/-! PROOFS. What every step of the sequential view changes and leaves unchanged, how a fetch stops it, and the
invariants it keeps. -/

namespace Sys2Proof.Machine

/-! ### The execute stage's work, by what it does -/

theorem access_eq_next {s u : State} {a : Word} {w : Bool} :
    s.access a w = .next u ↔ s.accessRefusal a = none ∧ u = s.recordAccess a w := by
  unfold State.access
  cases s.accessRefusal a <;> simp [eq_comm]

/-- The execute stage makes a store, a load, a MorphoSys event, or leaves the state alone (R154). -/
inductive PerformCase (n : Nat) (dx : DecodeExecute) (s u : State) (v : Word) : Prop
  | store (hm : dx.flags.memOp = true) (hw : dx.flags.memwOp = true) (ha : s.accessRefusal dx.maddr = none)
      (hu : u = (s.recordAccess dx.maddr true).writeData dx.maddr dx.mdata) (hv : v = Config.freeWord n)
  | load (hm : dx.flags.memOp = true) (hw : dx.flags.memwOp = false) (ha : s.accessRefusal dx.maddr = none)
      (hu : u = s.recordAccess dx.maddr false) (hv : v = s.loadValue dx.maddr)
  | event (hm : dx.flags.memOp = false) (hp : dx.flags.morphOp = true) (dma : Bool) (hu : u = s.emit dx dma)
  | quiet (hm : dx.flags.memOp = false) (hp : dx.flags.morphOp = false) (hu : u = s)

theorem performFlagged_cases {n : Nat} {dx : DecodeExecute} {s u : State} {v : Word}
    (h : performFlagged n dx s = .next (u, v)) : PerformCase n dx s u v := by
  unfold performFlagged at h
  split at h
  · next hm =>
    split at h
    · next hw =>
      obtain ⟨t, ht, h⟩ := andThen_eq_next.mp h
      obtain ⟨ha, rfl⟩ := access_eq_next.mp ht
      cases h
      exact .store hm hw ha rfl rfl
    · next hw =>
      obtain ⟨t, ht, h⟩ := andThen_eq_next.mp h
      obtain ⟨ha, rfl⟩ := access_eq_next.mp ht
      cases h
      exact .load hm (by simpa using hw) ha rfl rfl
  · next hm =>
    have hm : dx.flags.memOp = false := by simpa using hm
    split at h
    · next hp =>
      split at h
      · cases h; exact .event hm hp true rfl
      · split at h <;> (cases h; exact .event hm hp false rfl)
    · next hp =>
      have hp : dx.flags.morphOp = false := by simpa using hp
      suffices u = s from .quiet hm hp this
      repeat' (split at h)
      all_goals (cases h; rfl)

/-- Only a store writes data memory (R67). -/
theorem performFlagged_dmem_of_not_store {n : Nat} {dx : DecodeExecute} {s u : State} {v : Word}
    (h : performFlagged n dx s = .next (u, v)) (hw : dx.flags.memwOp = false) : u.dmem = s.dmem := by
  cases performFlagged_cases h with
  | store hm hw' ha hu hv => simp [hw] at hw'
  | load hm hw ha hu hv => rw [hu, State.recordAccess_dmem]
  | event hm hp dma hu => rw [hu, State.emit_dmem]
  | quiet hm hp hu => rw [hu]

/-- Only a MorphoSys operation makes an event (R267). -/
theorem performFlagged_events_of_not_morph {n : Nat} {dx : DecodeExecute} {s u : State} {v : Word}
    (h : performFlagged n dx s = .next (u, v)) (hp : dx.flags.morphOp = false) : EventsUnchanged s u := by
  cases performFlagged_cases h with
  | store hm hw ha hu hv =>
    rw [hu]
    exact ⟨by simp, by simp⟩
  | load hm hw ha hu hv =>
    rw [hu]
    exact ⟨by simp, by simp⟩
  | event hm hp' dma hu => simp [hp] at hp'
  | quiet hm hp hu => rw [hu]; exact ⟨rfl, rfl⟩

theorem EventsUnchanged.retire {s u : State} (h : EventsUnchanged s u) (x : DecodeExecute) (v : Word) :
    EventsUnchanged s (u.retire x v) := h

/-! ### The frames of the instructions -/

theorem classFlags_memwOp {c : InsnClass} (h : c ≠ .store) : (classFlags c).memwOp = false := by
  cases c <;> first | rfl | exact absurd rfl h

theorem classFlags_morphOp {c : InsnClass} (h : ∀ k ∈ [InsnClass.morph, .morphDma, .rcrisc], c ≠ k) :
    (classFlags c).morphOp = false := by
  cases c
  case morph | morphDma | rcrisc => simp at h
  all_goals rfl

/-- No register but dr is written, and dr only where dr_wreq is asserted (R22). -/
theorem exec_reg_of_not_dr {i : Instr} {s t : State} (h : exec i s = .next t) {r : RegId}
    (hr : i.fields.drWreq = true → i.fields.dr ≠ r) : t.reg r = s.reg r := by
  obtain ⟨dx, u, v, -, hi, -, hu, rfl⟩ := exec_next_inv h
  rw [hu.reg_retire hi.ready v r, hi.drWreq, hi.dr]
  split
  · next hz => simp [State.reg, hz]
  · rw [if_neg fun hd => hr hd.1 hd.2]

/-- Settles O24: the execute stage of a class other than STORE leaves the cells, and what the pipeline's move
changes beside them is the one register and the pipeline's own. -/
theorem nonStoreFrame : Obligations.NonStoreFrame := by
  intro s t i hc h
  refine ⟨?_, ?_, fun r hr => exec_reg_of_not_dr h hr, fun hm => ?_⟩ <;>
    obtain ⟨dx, u, v, -, hi, hp, hu, rfl⟩ := exec_next_inv h
  · intro a
    have hd := performFlagged_dmem_of_not_store hp (by rw [hi.flags, classFlags_memwOp hc])
    simp [State.cellAt, hd]
  · exact hu.unchanged_retire dx v
  · exact (performFlagged_events_of_not_morph hp (by rw [hi.flags, classFlags_morphOp hm])).retire dx v

/-- Settles O25: the address is the one its own decode stage forms of the operands it reads. -/
theorem storeFrame : Obligations.StoreFrame := by
  intro s t d h
  obtain ⟨dx, u, v, hdx, hi, hp, hu, ht⟩ := exec_next_inv h
  obtain ⟨⟨r1, r2⟩, hr, rfl⟩ := issue_eq_next.mp hdx
  refine ⟨r1, r2, hr, fun a ha => ?_, ?_, ?_, fun r => exec_reg_of_not_dr h⟩ <;> subst ht
  · cases performFlagged_cases hp with
    | store hm hw hacc hu hv =>
      rw [hu]
      refine (writeData_cellAt_other (s.recordAccess _ true) _ _ ?_).trans (by simp [State.cellAt])
      rwa [State.recordAccess_cfg]
    | load hm hw hacc hu hv => cases hw
    | event hm hp dma hu => cases hm
    | quiet hm hp hu => cases hm
  · exact hu.unchanged_retire _ v
  · exact (performFlagged_events_of_not_morph hp rfl).retire _ v

/-! ### Fetch, decode, execute -/

/-- A fetch answers the word placed at the bus address, unless the program stored there (R57, R84). -/
theorem fetchWord_eq_next {s : State} {a w : Word} : s.fetchWord a = .next w ↔
    s.storedTo a = false ∧ memLookup s.imem (busAddr s.cfg.variant a) = some w := by
  unfold State.fetchWord
  cases s.storedTo a <;> cases memLookup s.imem (busAddr s.cfg.variant a) <;> simp

theorem decodeWord_of_ok {s : State} {w : Word} {i : Instr} (h : decode s.cfg.enc w = .ok i) :
    s.decodeWord w = .next i := by
  simp [State.decodeWord, h]

/-- Settles O7: FD showing the word is `State.loadFd`, between decode and exec. -/
theorem stepRunsDecoded : Obligations.StepRunsDecoded := by
  intro s w i hw hi
  rw [step, hw, andThen_next, decodeWord_of_ok hi, andThen_next, State.loadFd]

/-- Settles O8: the fetch's own two stops, then those of a word that no row or that several rows match. -/
theorem stepStopsByName : Obligations.StepStopsByName := by
  intro s a stored
  have hstored : s.storedTo s.pc = true ↔ stored := by
    simp [State.storedTo, stored, a, List.any_eq_true]
  have not_stored (h : ¬stored) : s.storedTo s.pc = false := by
    rwa [← hstored, Bool.not_eq_true] at h
  refine ⟨fun h => ?_, fun h hn => ?_, fun h w hw => ?_⟩
  · simp [step, State.fetchWord, hstored.mpr h]
  · have hn : memLookup s.imem (busAddr s.cfg.variant s.pc) = none := hn
    simp [step, State.fetchWord, not_stored h, hn]
  · have hfetch : s.fetchWord s.pc = .next w := fetchWord_eq_next.mpr ⟨not_stored h, hw⟩
    refine ⟨fun hrows => ?_, fun hrows => ?_⟩
    · have hu : decode s.cfg.enc w = .error .unknown :=
        decode_eq_unknown.mpr (List.filter_eq_nil_iff.mpr fun r hr => by simpa [rowMatches] using hrows r hr)
      simp [step, hfetch, State.decodeWord, hu]
    · have ha : decode s.cfg.enc w = .error .ambiguous := decode_eq_ambiguous.mpr hrows
      simp [step, hfetch, State.decodeWord, ha]

/-- Settles O9: the fetch looks at the bus address alone. -/
theorem fetchSeesBusAddress : Obligations.FetchSeesBusAddress := by
  intro s a b w hab
  refine ⟨by simp [fetchWord_eq_next, State.storedTo, hab], fun hv => ?_, fun hv => ?_⟩
  · simp [busAddr, hv, addrBits, BitVec.toNat_setWidth]
  · simpa [busAddr, hv, addrBits] using Nat.mod_eq_of_lt a.isLt

/-- What a step that answers did: the word fetched and decoded, DX formed, the execute stage's work done, the
pipeline moved. -/
theorem step_next_stages {s t : State} (h : step s = .next t) : ∃ w i dx u v, s.fetchWord s.pc = .next w ∧
    s.decodeWord w = .next i ∧ IssuedAs i s dx ∧ performFlagged s.draws dx (s.loadFd w) = .next (u, v) ∧
    PerformFrame (s.loadFd w) u ∧ t = u.retire dx v := by
  obtain ⟨w, i, hw, hi, h⟩ := step_next_inv h
  obtain ⟨dx, u, v, -, hdx, hp, hu, rfl⟩ := exec_next_inv h
  exact ⟨w, i, dx, u, v, hw, hi,
    ⟨hdx.ready, hdx.word, hdx.dr, hdx.drWreq, hdx.flags, hdx.jalAddr, hdx.target⟩, hp, hu, rfl⟩

/-- Settles O27: the pipeline's move, whatever the execute stage did. -/
theorem stepMovesPipeline : Obligations.StepMovesPipeline := by
  intro s t h
  obtain ⟨w, i, dx, u, v, -, -, -, -, hu, rfl⟩ := step_next_stages h
  exact hu.pipelineAfter_retire dx v

/-- Settles O28: the pipeline's move, with the target DX shows. -/
theorem stepAdvancesPc : Obligations.StepAdvancesPc := by
  intro s t h
  obtain ⟨w, i, dx, u, v, hw, hi, hdx, -, hu, rfl⟩ := step_next_stages h
  refine ⟨hu.pcsAfter_retire dx v, fun w' i' hw' hi' hct hjal => ?_⟩
  obtain rfl : w = w' := by simpa [hw] using hw'
  obtain rfl : i = i' := by simpa [decodeWord_of_ok hi'] using hi.symm
  exact hdx.target hct hjal

theorem step_cfg {s t : State} (h : step s = .next t) : t.cfg = s.cfg := by
  obtain ⟨w, i, dx, u, v, -, -, -, -, hu, rfl⟩ := step_next_stages h
  exact hu.cfg

theorem step_imem {s t : State} (h : step s = .next t) : t.imem = s.imem := by
  obtain ⟨w, i, dx, u, v, -, -, -, -, hu, rfl⟩ := step_next_stages h
  rw [hu]; rfl

/-! ### Cycles: what the register file takes, and what never changes -/

theorem cycle_imem {inp : Inputs} {s t : State} {sig : Signals} (h : cycle inp s = .next (t, sig)) :
    t.imem = s.imem := by
  obtain ⟨e, f, he, -, -, ⟨-, rfl⟩ | ⟨-, dx, -, rfl⟩⟩ := cycle_next_inv h
  · exact (executeCycle_frame he).fetchSame.imem
  · rw [← (executeCycle_frame he).fetchSame.imem]; cases dx <;> rfl

/-- Every cycle, stalled or not, makes WD's write (R22, R172, R179). -/
theorem cycle_rf {inp : Inputs} {s t : State} {sig : Signals} (h : cycle inp s = .next (t, sig)) :
    t.rf = s.writeBack := by
  obtain ⟨e, f, he, -, -, ht⟩ := cycle_next_inv h
  have hwb : e.state.writeBack = s.writeBack := by rw [executeCycle_frame he]; rfl
  rw [← hwb]
  rcases ht with ⟨-, rfl⟩ | ⟨-, dx, -, rfl⟩
  · rfl
  · cases dx <;> rfl

/-- Settles O26: every cycle's register file is the one after WD's write, and a step writes dr alone. -/
theorem registerFileWrites : Obligations.RegisterFileWrites := by
  refine ⟨fun inp s t sig h r => rfRead_writeBack s t (cycle_cfg h) (cycle_rf h) r, fun s t h => ?_⟩
  obtain ⟨w, i, -, -, h⟩ := step_next_inv h
  exact ⟨i.fields.dr, fun q hq => exec_reg_of_not_dr h fun _ => hq.symm⟩

/-- Where the memories are apart, a fetch looks at the parameters and instruction memory alone (R84, D15). -/
theorem fetchWord_congr {s t : State} (hc : t.cfg = s.cfg) (hi : t.imem = s.imem)
    (hs : s.cfg.spacesShared = false) (a : Word) : t.fetchWord a = s.fetchWord a := by
  simp [State.fetchWord, State.storedTo, hc, hi, hs]

/-- Settles O29: neither a step nor a cycle writes instruction memory, and a fetch looks at nothing else. -/
theorem instructionMemoryFixed : Obligations.InstructionMemoryFixed :=
  ⟨fun _ _ h => ⟨step_imem h, fun hs => fetchWord_congr (step_cfg h) (step_imem h) hs⟩,
    fun _ _ _ _ h => ⟨cycle_imem h, fun hs => fetchWord_congr (cycle_cfg h) (cycle_imem h) hs⟩⟩

/-- Settles O30: no operation writes the parameters, and a cycle compares cache_en first. -/
theorem parametersConstant : Obligations.ParametersConstant :=
  ⟨fun _ _ h => step_cfg h, fun _ _ _ _ h => cycle_cfg h, fun inp s h => by simp [cycle, h]⟩

/-! ### The cache is transparent -/

/-- The state with another CACHE_EN and other marks in the cache core. -/
def State.withCache (s : State) (b : Bool) (c : List CacheLine) : State :=
  { s with cfg := { s.cfg with cacheEn := b }, sig := { s.sig with cache := c } }

theorem issueInstr_withCache (i : Instr) (s : State) (b : Bool) (c : List CacheLine) :
    issueInstr i (s.withCache b c) = issueInstr i s := by
  cases i <;> rfl

theorem recordAccess_withCache (s : State) (b : Bool) (c : List CacheLine) (a : Word) (w : Bool) :
    (s.withCache b c).recordAccess a w = (s.recordAccess a w).withCache b c := by
  have hi : (s.withCache b c).cfg.dataCellsIndependent = s.cfg.dataCellsIndependent := rfl
  have hs : (s.withCache b c).cfg.spacesShared = s.cfg.spacesShared := rfl
  unfold State.recordAccess
  rw [hi, hs]
  split <;> rfl

theorem access_withCache (s : State) (b : Bool) (c : List CacheLine) (a : Word) (w : Bool) :
    (s.withCache b c).access a w = andThen (s.access a w) fun t => .next (t.withCache b c) := by
  have hr : (s.withCache b c).accessRefusal a = s.accessRefusal a := rfl
  unfold State.access
  rw [hr, recordAccess_withCache]
  cases s.accessRefusal a <;> rfl

/-- The execute stage's work is the same with another cache (R72, D16). -/
theorem performFlagged_withCache (n : Nat) (dx : DecodeExecute) (s : State) (b : Bool) (c : List CacheLine) :
    performFlagged n dx (s.withCache b c) =
      andThen (performFlagged n dx s) fun r => .next (r.1.withCache b c, r.2) := by
  unfold performFlagged
  split
  · split
    · simp only [performStore, access_withCache, andThen_assoc]; rfl
    · simp only [performLoad, access_withCache, andThen_assoc]; rfl
  · repeat' split
    all_goals rfl

/-- Settles O31: every stage of a step does the same with another cache. -/
theorem cacheTransparent : Obligations.CacheTransparent := by
  intro s b c o
  show step (s.withCache b c) = andThen (step s) fun t => .next (t.withCache b c)
  unfold step
  rw [andThen_assoc]
  refine congrArg (andThen (s.fetchWord s.pc)) (funext fun w => ?_)
  rw [andThen_assoc]
  refine congrArg (andThen (s.decodeWord w)) (funext fun i => ?_)
  rw [exec_eq_stages, exec_eq_stages, throughStages, throughStages, andThen_assoc]
  have hl : (s.withCache b c).loadFd w = (s.loadFd w).withCache b c := rfl
  rw [hl, issueInstr_withCache]
  refine congrArg (andThen (issueInstr i (s.loadFd w))) (funext fun dx => ?_)
  rw [performFlagged_withCache, andThen_assoc, andThen_assoc]
  rfl

/-! ### Data memory -/

theorem busAddr_full (a : Word) : busAddr .full a = a.toNat := Nat.mod_eq_of_lt a.isLt

theorem busAddr_reduced (a : Word) : busAddr .reduced a = a.toNat % 1024 := rfl

/-- What is stored is loaded back as what crossed the bus twice (R86). -/
theorem loadValue_writeData_same (s : State) (a d : Word) :
    (s.writeData a d).loadValue a = dataBus s.cfg.variant d := by
  simp [State.loadValue, writeData_cellAt_same]

/-- Settles O32: the data and address buses of the two variants, and read after write. -/
theorem memoryPrimitives : Obligations.MemoryPrimitives := by
  intro s a b d
  refine ⟨fun hv => ⟨?_, ?_⟩, fun hv => ⟨?_, ?_⟩, fun hab => ?_, fun hab => ?_⟩
  · simp [State.loadValue, hv, busAddr_full, dataBus]
  · rw [loadValue_writeData_same, hv]; rfl
  · simp [State.loadValue, hv, busAddr_reduced, dataBus]
  · rw [loadValue_writeData_same, hv]; rfl
  · simp [State.loadValue, hab]
  · simp [State.loadValue, writeData_cellAt_other s a d hab.symm]

/-! ### Invariants -/

/-- A memory inside the buses: addresses strictly rising and on the address bus, values such as the data bus
carries (R33, R60, R61). -/
def DataMemoryFits (v : Variant) (m : Memory) : Prop :=
  m.wf ∧ ∀ c ∈ m, c.1 < 2 ^ addrBits v ∧ dataBus v c.2 = c.2

/-- A store keeps data memory inside the buses. -/
theorem DataMemoryFits.memStore {v : Variant} {m : Memory} (h : DataMemoryFits v m) (a d : Word) :
    DataMemoryFits v (memStore m (busAddr v a) (dataBus v d)) := by
  refine ⟨memStore_wf h.1 _ _, fun c hc => ?_⟩
  rcases mem_memStore hc with rfl | hc
  · exact ⟨busAddr_lt v a, dataBus_dataBus v d⟩
  · exact h.2 c hc

/-- Settles O34: instruction memory stays, data memory stays or takes one store. -/
theorem stepKeepsMemoriesFit : Obligations.StepKeepsMemoriesFit := by
  intro s t ⟨himem, hdmem, hiaddr, hdata⟩ h
  have hfit : DataMemoryFits t.cfg.variant t.dmem := by
    rw [step_cfg h]
    obtain ⟨w, i, dx, u, v, -, -, -, hp, hu, rfl⟩ := step_next_stages h
    rcases performFlagged_dmem hp with hd | hd
    · rw [State.retire_dmem, hd]; exact ⟨hdmem, hdata⟩
    · rw [State.retire_dmem, hd]; exact DataMemoryFits.memStore ⟨hdmem, hdata⟩ _ _
  refine ⟨?_, hfit.1, ?_, hfit.2⟩
  · rwa [step_imem h]
  · rwa [step_imem h, step_cfg h]

/-- After a step DX holds an instruction. -/
theorem step_dx_ready {s t : State} (h : step s = .next t) : t.dx.ready = true := by
  obtain ⟨w, i, dx, u, v, -, -, hi, -, -, rfl⟩ := step_next_stages h
  exact hi.ready

/-- Settles O35: by the delay-slot rule with the target DX shows, with and without a delay slot. -/
theorem stepKeepsPcsAgree : Obligations.StepKeepsPcsAgree := by
  intro s t hs h
  have hpcs := (stepAdvancesPc s t h).1
  have hc := step_cfg h
  have hready := step_dx_ready h
  unfold PcsAfter at hpcs
  unfold State.PcsAgree at hs ⊢
  cases hd : s.cfg.delaySlot
  · rw [hd, if_neg Bool.false_ne_true] at hpcs
    obtain ⟨hpc, hnpc⟩ := hpcs
    have hslot : t.inDelaySlot = false := by simp [State.inDelaySlot, hc, hd]
    refine ⟨by rw [hslot, if_neg Bool.false_ne_true, hc, hnpc], ?_⟩
    cases ht : t.dx.target with
    | none => exact .inl (by simpa [ht] using hpc)
    | some a => exact .inr (.inr ⟨rfl, by simp [ht] at hpc; rw [hpc]⟩)
  · rw [hd, if_pos rfl] at hpcs
    obtain ⟨hpc, hnpc⟩ := hpcs
    have hslot : t.inDelaySlot = t.dx.target.isSome := by simp [State.inDelaySlot, hc, hd, hready]
    refine ⟨?_, ?_⟩
    · rw [hslot, hc, hnpc, hpc]
      cases t.dx.target <;> rfl
    · rw [hpc, hs]
      cases hin : s.inDelaySlot
      · exact .inl rfl
      · have htarget : s.dx.target.isSome = true := by
          simp only [State.inDelaySlot, Bool.and_eq_true] at hin
          exact hin.2
        obtain ⟨a, ha⟩ := Option.isSome_iff_exists.mp htarget
        exact .inr (.inl ⟨rfl, by simp [ha]⟩)

/-- The pipeline's move keeps what an unwritten register holds: a register still not marked was not WD's, and what
WD's register held is what the register file shows of it (R24). -/
theorem PipelineAfter.unwrittenZero {s t : State} (h : PipelineAfter s t) (hs : s.UnwrittenZero) :
    t.UnwrittenZero := by
  obtain ⟨hrf, hwritten, hold, -, -⟩ := h
  have hzero (r : RegId) (hr : t.written.getLsbD r.toNat = false) : t.rfRead r = 0 := by
    rw [hwritten, Bool.or_eq_false_iff] at hr
    have hwd : ¬(s.wd.drWren = true ∧ s.wd.dr = r) := by simpa using hr.2
    rw [hrf, if_neg hwd, hs.1 r hr.1, ite_self]
  exact ⟨hzero, by rw [hold]; exact hzero s.xw.dr⟩

/-- Settles O36: the pipeline's move keeps it. -/
theorem stepKeepsUnwrittenZero : Obligations.StepKeepsUnwrittenZero :=
  fun s t hs h => (stepMovesPipeline s t h).unwrittenZero hs

/-! ### Launch -/

/-- Settles O1: nothing is on its way at the start, and the register file holds 0. -/
theorem launchStartsEmpty : Obligations.LaunchStartsEmpty := by
  intro cfg resetPc imem dmem s
  refine ⟨rfl, rfl, rfl, rfl, rfl, rfl, rfl, rfl, rfl, rfl, rfl, rfl, fun p r => ?_⟩
  by_cases hz : cfg.zeroReg = some r
  · have hz' : s.cfg.zeroReg = some r := hz
    simp [readReg_zero p hz', hz]
  · have hp : s.producer r = none :=
      producer_eq_none.mpr ⟨(nomatch ·.1), (nomatch ·.1), (nomatch ·.1)⟩
    have hrf : s.rfRead r = 0 := by simp [State.rfRead, s, State.launch]
    have hw : s.written.getLsbD r.toNat = false := by simp [s, State.launch]
    rw [readReg_of_producer_none p hz hp, oldValue_of_producer_none p hp]
    simp only [State.portValue, State.contents, hrf, hw, Bool.not_false, Bool.and_true, decide_eq_true_eq]
    simp only [ne_eq, hz, not_false_eq_true, true_and]
    rfl

/-- A launch meets the invariants of the two views. -/
theorem launch_invariants (cfg : RunConfig) (resetPc : Word) (imem dmem : Memory) :
    let s := State.launch cfg resetPc imem dmem
    s.PcsAgree ∧ s.UnwrittenZero ∧ s.FetchInStep ∧ s.CacheLinesDiffer := by
  intro s
  have hslot : s.inDelaySlot = false := by simp [State.inDelaySlot, s, State.launch, DecodeExecute.empty]
  have haddr : s.fetchAddr = resetPc := by
    simp [State.fetchAddr, s, State.launch, DecodeExecute.empty]
  refine ⟨?_, ⟨fun r _ => ?_, fun _ => rfl⟩, ⟨(nomatch ·), haddr, fun _ => rfl, fun _ _ => rfl,
    fun _ _ h => (nomatch h), (nomatch ·)⟩, List.Pairwise.nil⟩
  · rw [State.PcsAgree, hslot]; rfl
  · simp [State.rfRead, s, State.launch]

/-- Settles O2: a launch meets the invariants, the reset state being the launch of empty memories. -/
theorem launchMeetsInvariants : Obligations.LaunchMeetsInvariants := by
  refine ⟨fun cfg resetPc imem dmem => ?_, ?_⟩
  · obtain ⟨h1, h2, h3, h4⟩ := launch_invariants cfg resetPc imem dmem
    exact ⟨h1, h2, h3, h4, fun hi hd hia hda => ⟨hi, hd, hia, hda⟩⟩
  · exact ⟨⟨List.Pairwise.nil, List.Pairwise.nil, fun _ h => (nomatch h), fun _ h => (nomatch h)⟩,
      launch_invariants defaultConfig 0 [] []⟩

end Sys2Proof.Machine
end

