-- ==== Sys2Proof/Proofs/Stalls.lean ====
section
/-! PROOFS. What a cycle leaves in each field, when the execute stage stalls, and that what it does is done once
(R149, R159, R176 to R179, R265 to R268). -/

namespace Sys2Proof.Machine

/-! ### What holding and ticking leave -/

section Fields
variable (s : State) (dx : Option DecodeExecute) (f : Option FetchedWord)

@[simp] theorem State.held_cfg : (s.held f).cfg = s.cfg := rfl
@[simp] theorem State.held_pc : (s.held f).pc = s.pc := rfl
@[simp] theorem State.held_npc : (s.held f).npc = s.npc := rfl
@[simp] theorem State.held_imem : (s.held f).imem = s.imem := rfl
@[simp] theorem State.held_dmem : (s.held f).dmem = s.dmem := rfl
@[simp] theorem State.held_fd : (s.held f).fd = s.fd := rfl
@[simp] theorem State.held_dx : (s.held f).dx = s.dx := rfl
@[simp] theorem State.held_sig : (s.held f).sig = { s.sig with fetchHold := f } := rfl
@[simp] theorem State.held_events : (s.held f).events = s.events := rfl
@[simp] theorem State.held_dmaIssued : (s.held f).dmaIssued = s.dmaIssued := rfl
@[simp] theorem State.held_accesses : (s.held f).accesses = s.accesses := rfl
@[simp] theorem State.held_draws : (s.held f).draws = s.draws := rfl
@[simp] theorem State.held_fetchAddr : (s.held f).fetchAddr = s.fetchAddr := rfl

@[simp] theorem State.ticked_cfg : (s.ticked dx f).cfg = s.cfg := by cases dx <;> rfl
@[simp] theorem State.ticked_imem : (s.ticked dx f).imem = s.imem := by cases dx <;> rfl
@[simp] theorem State.ticked_dmem : (s.ticked dx f).dmem = s.dmem := by cases dx <;> rfl
@[simp] theorem State.ticked_events : (s.ticked dx f).events = s.events := by cases dx <;> rfl
@[simp] theorem State.ticked_dmaIssued : (s.ticked dx f).dmaIssued = s.dmaIssued := by cases dx <;> rfl
@[simp] theorem State.ticked_accesses : (s.ticked dx f).accesses = s.accesses := by cases dx <;> rfl
@[simp] theorem State.ticked_dx : (s.ticked dx f).dx = dx.getD DecodeExecute.empty := by cases dx <;> rfl
@[simp] theorem State.ticked_sig : (s.ticked dx f).sig =
    ⟨if f.isSome then s.iaAddr + stepOf s.cfg.insnStep else s.iaAddr, none, none, false, none, s.sig.cache⟩ := rfl
@[simp] theorem State.ticked_xw : (s.ticked dx f).xw =
    ⟨s.xn.data, s.xn.dr, s.dx.ready && s.xn.drWreq, s.dx.ready⟩ := by cases dx <;> rfl
@[simp] theorem State.ticked_wd : (s.ticked dx f).wd = ⟨s.xw.data, s.xw.dr, s.xw.ready && s.xw.drWreq⟩ := by
  cases dx <;> rfl

end Fields

section Cycle
variable {inp : Inputs} {s t : State} {sig : Signals} {e : ExecuteCycle} {f : Option FetchedWord}

/-- What the execute stage did to memory, events and the cache core stands after the cycle, stalled or not. -/
structure ExecuteKept (e : ExecuteCycle) (t : State) : Prop where
  cfg : t.cfg = e.state.cfg
  dmem : t.dmem = e.state.dmem
  events : t.events = e.state.events
  dmaIssued : t.dmaIssued = e.state.dmaIssued
  cache : t.sig.cache = e.state.sig.cache

theorem cycle_executeKept (h : cycle inp s = .next (t, sig)) :
    ∃ e f, executeCycle inp s = .next e ∧ sig = signalsOf inp s e f ∧ ExecuteKept e t := by
  obtain ⟨e, f, he, -, hsig, ⟨-, rfl⟩ | ⟨-, dx, -, rfl⟩⟩ := cycle_next_inv h
  · exact ⟨e, f, he, hsig, ⟨rfl, rfl, rfl, rfl, rfl⟩⟩
  · exact ⟨e, f, he, hsig, ⟨by simp, by simp, by simp, by simp, by simp⟩⟩

/-- Settles O37: the signals are put together so. -/
theorem stallSignals : Obligations.StallSignals := by
  intro inp s t sig h
  obtain ⟨e, f, -, rfl, -⟩ := cycle_executeKept h
  exact ⟨rfl, rfl⟩

/-! ### When the execute stage stalls -/

theorem morphHeld_eq_true : s.morphHeld inp = true ↔
    s.dx.flags.memOp = false ∧ s.dx.flags.morphOp = true ∧ inp.morphoStall = true := by
  simp [State.morphHeld, and_assoc]

theorem accessCycle_ack (inp : Inputs) (s : State) : (accessCycle inp s).ack =
    if s.cfg.cacheEn then cacheHit s.sig.cache s.dx.maddr else inp.dack := by
  unfold accessCycle
  split <;> rfl

/-- x_stall is asserted while an access is not complete or morpho_stall holds a MorphoSys operation (R149). -/
theorem executeCycle_stall (h : executeCycle inp s = .next e) : e.stall = true ↔ s.dx.ready = true ∧
    ((s.dx.flags.memOp = true ∧ s.sig.execDone = none ∧ (accessCycle inp s).ack = false) ∨
      s.morphHeld inp = true) := by
  have held_not_mem : s.morphHeld inp = true → s.dx.flags.memOp = false := fun hm => (morphHeld_eq_true.mp hm).1
  cases executeCycle_cases h with
  | empty hr he => simp [he, hr]
  | finished v hr hd he => simp [he, hr, hd]
  | barred hr hd hb he =>
    have hm : s.dx.flags.memOp = false := by
      simp only [State.morphBarred, Bool.and_eq_true, Bool.not_eq_true'] at hb
      exact hb.1.1.1
    simp [he, hr, hm]
  | waits acc hr hd hb ha hw he =>
    have : (s.dx.flags.memOp = true ∧ (accessCycle inp s).ack = false) ∨ s.morphHeld inp = true := by
      refine hw.imp_left fun hack => ?_
      rw [ha] at hack
      split at hack
      · next hm => exact ⟨hm, hack⟩
      · cases hack
    simpa [he, hr, hd] using this
  | performed acc u v hr hd hb ha hack hm hp he =>
    have : s.dx.flags.memOp = true → (accessCycle inp s).ack = true := fun hmem => by
      rwa [ha, if_pos hmem] at hack
    simpa [he, hr, hd, hm] using this

/-- Settles O38: the access's acknowledge is DACK, or a hit in an enabled cache. -/
theorem executeStallCauses : Obligations.ExecuteStallCauses := by
  intro inp s t sig h
  obtain ⟨e, f, he, rfl, -⟩ := cycle_executeKept h
  show e.stall = true ↔ _
  rw [executeCycle_stall he, accessCycle_ack, morphHeld_eq_true]
  cases s.cfg.cacheEn <;> rfl

/-! ### An operation is made once -/

/-- A barred MorphoSys operation is one that has not begun. -/
theorem morphBarred_eq_true : s.morphBarred inp = true ↔ s.dx.flags.memOp = false ∧
    s.dx.flags.morphOp = true ∧ s.sig.begun = false ∧ s.withoutResult.fetchStalls inp = true := by
  simp [State.morphBarred, and_assoc]

theorem signalsOf_morphoEn : (signalsOf inp s e f).morphoEn = true ↔ s.dx.ready = true ∧
    s.dx.flags.morphOp = true ∧ s.sig.execDone = none ∧ s.morphBarred inp = false := by
  simp [signalsOf, and_assoc]

/-- The execute stage did nothing in the cycle: memory, events and the record are as before. -/
structure ExecuteQuiet (s u : State) : Prop where
  dmem : u.dmem = s.dmem
  events : u.events = s.events
  dmaIssued : u.dmaIssued = s.dmaIssued
  accesses : u.accesses = s.accesses
  execDone : u.sig.execDone = s.sig.execDone

/-- A stalled execute stage does nothing (R65, R268). -/
theorem executeCycle_quiet_of_stall (h : executeCycle inp s = .next e) (hs : e.stall = true) :
    ExecuteQuiet s e.state := by
  cases executeCycle_cases h with
  | empty hr he => rw [he]; exact ⟨rfl, rfl, rfl, rfl, rfl⟩
  | finished v hr hd he => rw [he]; exact ⟨rfl, rfl, rfl, rfl, rfl⟩
  | barred hr hd hb he => rw [he]; exact ⟨rfl, rfl, rfl, rfl, rfl⟩
  | waits acc hr hd hb ha hw he => rw [he]; exact ⟨rfl, rfl, rfl, rfl, rfl⟩
  | performed acc u v hr hd hb ha hack hm hp he => rw [he] at hs; cases hs

/-- An empty or finished execute stage does nothing, its pins idle (R159, R181). -/
theorem executeCycle_quiet_of_done (h : executeCycle inp s = .next e) (hd : s.hasResult = true) :
    ExecuteQuiet s e.state ∧ e.pins = idlePins ∧ e.state.sig = s.sig := by
  have not_none (hr : s.dx.ready = true) (hn : s.sig.execDone = none) : False := by
    simp [State.hasResult, hr, hn] at hd
  cases executeCycle_cases h with
  | empty hr he => rw [he]; exact ⟨⟨rfl, rfl, rfl, rfl, rfl⟩, rfl, rfl⟩
  | finished v hr hd he => rw [he]; exact ⟨⟨rfl, rfl, rfl, rfl, rfl⟩, rfl, rfl⟩
  | barred hr hn hb he => exact (not_none hr hn).elim
  | waits acc hr hn hb ha hw he => exact (not_none hr hn).elim
  | performed acc u v hr hn hb ha hack hm hp he => exact (not_none hr hn).elim

/-- A cycle that neither stalls the execute stage nor leaves its instruction finished had a MorphoSys operation there
that may not begin (R159, R265). -/
theorem executeCycle_finishes (h : executeCycle inp s = .next e) (hr : s.dx.ready = true)
    (hs : e.stall = false) : e.state.sig.execDone.isSome = true ∨
      (s.sig.execDone = none ∧ s.morphBarred inp = true) := by
  cases executeCycle_cases h with
  | empty hr' he => simp [hr] at hr'
  | finished v hr hd he => left; rw [he]; simp [hd]
  | barred hr hd hb he => exact .inr ⟨hd, hb⟩
  | waits acc hr hd hb ha hw he => rw [he] at hs; cases hs
  | performed acc u v hr hd hb ha hack hm hp he => left; rw [he]; rfl

/-- Settles O41: an unstalled execute stage finishes its instruction, and one that stalls or is finished is quiet. -/
theorem operationMadeOnce : Obligations.OperationMadeOnce := by
  intro inp s t sig h
  refine ⟨fun hr hx hp => ?_, fun hd => ?_, fun hx => ?_⟩
  · obtain ⟨e, f, he, -, -, rfl, rfl⟩ := cycle_stall_inv h hp
    refine (executeCycle_finishes he hr hx).imp_right ?_
    rintro ⟨hn, hb⟩
    obtain ⟨hmem, hmorph, hbegun, -⟩ := morphBarred_eq_true.mp hb
    obtain ⟨hbarred, hstall⟩ := fetchStalls_of_barred he hr hn hb
    refine ⟨hmem, hmorph, hbegun, hstall, ?_, ?_, ?_⟩
    · rw [← Bool.not_eq_true, signalsOf_morphoEn]
      simp [hb]
    · rw [hbarred]; rfl
    · rw [hbarred]; rfl
  · have hres : s.hasResult = true := by
      rcases hd with hd | hd <;> simp [State.hasResult, hd]
    obtain ⟨e, f, he, rfl, hk⟩ := cycle_executeKept h
    obtain ⟨hq, hpins, hsig⟩ := executeCycle_quiet_of_done he hres
    refine ⟨hk.dmem.trans hq.dmem, hk.events.trans hq.events, hpins, ?_, fun hp => ?_⟩
    · rw [← Bool.not_eq_true, signalsOf_morphoEn]
      rintro ⟨hr, -, hn, -⟩
      simp [hr, hn] at hd
    · obtain ⟨e', f', he', -, -, rfl, -⟩ := cycle_stall_inv h hp
      exact (executeCycle_quiet_of_done he' hres).1.execDone
  · have hp : sig.pStall = true := by rw [(stallSignals inp s t sig h).1, hx, Bool.or_true]
    obtain ⟨e, f, he, -, -, rfl, rfl⟩ := cycle_stall_inv h hp
    have hq := executeCycle_quiet_of_stall he hx
    exact ⟨hq.dmem, hq.events, hq.execDone⟩

/-! ### MorphoSys operations -/

/-- A MorphoSys operation that has begun, or beside which the fetch does not stall, is not barred (R265). -/
theorem morphBarred_of_begun (h : executeCycle inp s = .next e) (hr : s.dx.ready = true)
    (hd : s.sig.execDone = none) (hf : e.state.fetchStalls inp = false ∨ s.sig.begun = true) :
    s.morphBarred inp = false := by
  rw [← Bool.not_eq_true]
  intro hb
  rcases hf with hf | hf
  · simp [(fetchStalls_of_barred h hr hd hb).2] at hf
  · simp [State.morphBarred, hf] at hb

/-- An instruction in the execute stage that is not barred has begun after the cycle (R159). -/
theorem executeCycle_begun (h : executeCycle inp s = .next e) (hr : s.dx.ready = true)
    (hd : s.sig.execDone = none) (hb : s.morphBarred inp = false) : e.state.sig.begun = true := by
  cases executeCycle_cases h with
  | empty hr' he => simp [hr] at hr'
  | finished v hr' hd' he => simp [hd] at hd'
  | barred hr' hd' hb' he => simp [hb] at hb'
  | waits acc _ _ _ ha hw he => rw [he]
  | performed acc u v _ _ _ ha hack hm hp he =>
    rw [he]
    show u.sig.begun = true
    rw [performFlagged_frame hp]

/-- Settles O43: morpho_stall stalls the execute stage, which then does nothing. -/
theorem dmaControlWaits : Obligations.DmaControlWaits := by
  intro inp s t sig hr hmem hmorph hms h
  have hheld : s.morphHeld inp = true := morphHeld_eq_true.mpr ⟨hmem, hmorph, hms⟩
  have hx : sig.xStall = true := by
    obtain ⟨e, f, he, rfl, -⟩ := cycle_executeKept h
    exact (executeCycle_stall he).mpr ⟨hr, .inr hheld⟩
  have hp : sig.pStall = true := by rw [(stallSignals inp s t sig h).1, hx, Bool.or_true]
  obtain ⟨e, f, he, -, -, rfl, rfl⟩ := cycle_stall_inv h hp
  have hq := executeCycle_quiet_of_stall he hx
  refine ⟨hx, hp, (executeCycle_frame he).fetchSame.dx, hq.events, hq.execDone, fun hd hor => ?_⟩
  have hb := morphBarred_of_begun he hr hd hor.symm
  exact ⟨signalsOf_morphoEn.mpr ⟨hr, hmorph, hd, hb⟩, executeCycle_begun he hr hd hb⟩

end Cycle

end Sys2Proof.Machine
end

