-- ==== Sys2Proof/Proofs/DataPins.lean ====
section
/-! PROOFS. The data memory pins through an external access, cache disabled (R62 to R67), and the cache core's
marks, cache enabled (R70, R72). -/

namespace Sys2Proof.Machine

section Cycle
variable {inp : Inputs} {s t : State} {sig : Signals} {e : ExecuteCycle}

/-! ### External accesses -/

/-- An acknowledged access is performed in the cycle, with the value the store writes or the load reads. -/
theorem executeCycle_acknowledged (h : executeCycle inp s = .next e) (hr : s.dx.ready = true)
    (hm : s.dx.flags.memOp = true) (hd : s.sig.execDone = none) (hack : (accessCycle inp s).ack = true) :
    ∃ u v, performFlagged (s.draws - 1) s.dx { s with sig := { s.sig with
        begun := true, cache := (accessCycle inp s).cache, transfer := (accessCycle inp s).transfer } } =
          .next (u, v) ∧
      e = ⟨{ u.withResult s.dx v with sig := { u.sig with execDone := some v } }, false,
        (accessCycle inp s).pins, (accessCycle inp s).core⟩ := by
  cases executeCycle_cases h with
  | empty hr' he => simp [hr] at hr'
  | finished v hr' hd' he => simp [hd] at hd'
  | barred hr' hd' hb he => simp [morphBarred_of_memOp hm] at hb
  | waits acc _ _ _ ha hw he =>
    rw [ha, if_pos hm] at hw
    simp [hack, morphHeld_of_memOp hm] at hw
  | performed acc u v _ _ _ ha _ _ hp he =>
    rw [if_pos hm] at ha
    subst ha
    exact ⟨u, v, hp, he⟩

/-- An access not acknowledged waits. -/
theorem executeCycle_unacknowledged (h : executeCycle inp s = .next e) (hr : s.dx.ready = true)
    (hm : s.dx.flags.memOp = true) (hd : s.sig.execDone = none) (hack : (accessCycle inp s).ack = false) :
    e = ⟨{ s.withoutResult with sig := { s.sig with
        begun := true, cache := (accessCycle inp s).cache, transfer := (accessCycle inp s).transfer } }, true,
      (accessCycle inp s).pins, (accessCycle inp s).core⟩ := by
  cases executeCycle_cases h with
  | empty hr' he => simp [hr] at hr'
  | finished v hr' hd' he => simp [hd] at hd'
  | barred hr' hd' hb he => simp [morphBarred_of_memOp hm] at hb
  | waits acc _ _ _ ha hw he => rw [he, ha, if_pos hm]
  | performed acc u v _ _ _ ha hk _ hp he =>
    rw [ha, if_pos hm] at hk
    simp [hack] at hk

/-- A store performed leaves its value in the cell at the bus address (R67, R225). -/
theorem performFlagged_store_cellAt {n : Nat} {dx : DecodeExecute} {u : State} {v : Word}
    (h : performFlagged n dx s = .next (u, v)) (hm : dx.flags.memOp = true) (hw : dx.flags.memwOp = true) :
    u.cellAt (busAddr s.cfg.variant dx.maddr) = dataBus s.cfg.variant dx.mdata := by
  cases performFlagged_cases h with
  | store _ _ ha hu hv => simpa [hu] using writeData_cellAt_same (s.recordAccess dx.maddr true) dx.maddr dx.mdata
  | load _ hw' ha hu hv => simp [hw] at hw'
  | event hm' hp dma hu => simp [hm] at hm'
  | quiet hm' hp hu => simp [hm] at hm'

/-- A load performed gives LoadValue of its address (R224). -/
theorem performFlagged_load_value {n : Nat} {dx : DecodeExecute} {u : State} {v : Word}
    (h : performFlagged n dx s = .next (u, v)) (hm : dx.flags.memOp = true) (hw : dx.flags.memwOp = false) :
    v = s.loadValue dx.maddr := by
  cases performFlagged_cases h with
  | store _ hw' ha hu hv => simp [hw] at hw'
  | load _ _ ha hu hv => exact hv
  | event hm' hp dma hu => simp [hm] at hm'
  | quiet hm' hp hu => simp [hm] at hm'

/-- The transfer under way after a cycle is the one its execute stage leaves, and none behind a finished one. -/
theorem cycle_transfer (h : cycle inp s = .next (t, sig)) : ∃ e f, executeCycle inp s = .next e ∧
    sig = signalsOf inp s e f ∧ ExecuteKept e t ∧ (e.stall = true → t.sig.transfer = e.state.sig.transfer) ∧
    (e.state.sig.transfer = none → t.sig.transfer = none) := by
  obtain ⟨e, f, he, -, hsig, ⟨-, rfl⟩ | ⟨hn, dx, -, rfl⟩⟩ := cycle_next_inv h
  · exact ⟨e, f, he, hsig, ⟨rfl, rfl, rfl, rfl, rfl⟩, fun _ => rfl, id⟩
  · rw [Bool.or_eq_false_iff] at hn
    exact ⟨e, f, he, hsig, ⟨by simp, by simp, by simp, by simp, by simp⟩, fun hs => by simp [hn.2] at hs,
      fun _ => rfl⟩

theorem loadValue_idem (s : State) (a : Word) :
    dataBus s.cfg.variant (s.loadValue a) = s.loadValue a := by
  simp [State.loadValue]

/-- Settles O42: the pins are those of `externalAccess`; what the acknowledged cycle does is a store or a load. -/
theorem externalAccessPins : Obligations.ExternalAccessPins := by
  intro inp s t sig hc hr hm hd h under
  obtain ⟨e, f, he, rfl, hk, hstall, hnone⟩ := cycle_transfer h
  have hext : accessCycle inp s = externalAccess inp s := by simp [accessCycle, hc]
  have hpins : (signalsOf inp s e f).data = (externalAccess inp s).pins :=
    (executeCycle_external he hc ((awaitsMemory_eq_true hc).mpr ⟨hr, hm, hd⟩)).1
  have acked (ha : inp.dack = true) := executeCycle_acknowledged he hr hm hd (by rw [hext]; exact ha)
  have waiting (ha : inp.dack = false) := executeCycle_unacknowledged he hr hm hd (by rw [hext]; exact ha)
  rw [hpins]
  refine ⟨rfl, rfl, fun hw => ?_, fun hw => ?_, fun ha => ?_, fun ha => ?_⟩
  · refine ⟨hw, by simp [externalAccess, transferPins, hw, under], by simp [externalAccess, transferPins, hw],
      fun hu => ?_, fun hu => ?_, fun ha => ?_⟩
    · have hu : s.sig.transfer = some true := hu
      simp [externalAccess, transferPins, hw, hu]
    · have hu : ¬s.sig.transfer = some true := hu
      simp [externalAccess, transferPins, hw, hu]
    · obtain ⟨u, v, hp, rfl⟩ := acked ha
      have hcell := performFlagged_store_cellAt hp hm hw
      simp only [State.cellAt, hk.dmem, externalAccess, transferPins, hw, if_true]
      exact congrArg some hcell
  · refine ⟨by simp [externalAccess, transferPins, hw], hw, by simp [externalAccess, transferPins, hw],
      fun ha => ⟨?_, ?_⟩, fun ha => by simp [externalAccess, transferPins, hw, ha]⟩
    · simp [externalAccess, transferPins, hw, ha, loadValue_idem]
    · obtain ⟨u, v, hp, rfl⟩ := acked ha
      have hv := performFlagged_load_value hp hm hw
      exact hv
  · have hx := waiting ha
    rw [hstall (by rw [hx]), hx, hext]
    simp [externalAccess, ha]
  · obtain ⟨u, v, hp, rfl⟩ := acked ha
    refine hnone ?_
    show u.sig.transfer = none
    rw [performFlagged_frame hp, hext]
    simp [externalAccess, ha]

/-! ### WR and the store data by halves of the cycle -/

/-- With the cache disabled, the pins of a cycle are those of an external access while a load or store waits for
memory, else idle (R62, R63). -/
theorem cycle_pins (h : cycle inp s = .next (t, sig)) (hc : s.cfg.cacheEn = false) :
    sig.data = if s.awaitsMemory then (externalAccess inp s).pins else idlePins := by
  obtain ⟨e, f, he, rfl, -⟩ := cycle_executeKept h
  cases ha : s.awaitsMemory
  · exact executeCycle_pins_idle he hc ha
  · exact (executeCycle_external he hc ha).1

/-- An access without acknowledge goes on in the next cycle, the same instruction in DX (R65). -/
theorem cycle_of_unacknowledged (h : cycle inp s = .next (t, sig)) (hc : s.cfg.cacheEn = false)
    (ha : s.awaitsMemory = true) (hk : inp.dack = false) :
    t.cfg = s.cfg ∧ t.dx = s.dx ∧ t.awaitsMemory = true ∧ t.sig.transfer = some s.dx.flags.memwOp := by
  obtain ⟨hr, hm, hd⟩ := (awaitsMemory_eq_true hc).mp ha
  have hcfg := cycle_cfg h
  have hext : accessCycle inp s = externalAccess inp s := by simp [accessCycle, hc]
  obtain ⟨e, f, he, -, -, ht⟩ := cycle_next_inv h
  have hx := executeCycle_unacknowledged he hr hm hd (by rw [hext]; exact hk)
  have hstall : (e.state.fetchStalls inp || e.stall) = true := by rw [hx, Bool.or_true]
  obtain ⟨-, rfl⟩ | ⟨hn, -⟩ := ht
  · subst hx
    refine ⟨rfl, rfl, ?_, ?_⟩
    · simp [State.awaitsMemory, hr, hm, hd, hc]
    · rw [hext]
      simp [externalAccess, hk]
  · simp [hstall] at hn

/-- Settles O53: the pins of either cycle are idle or those of an external access, the second one's going on exactly
where the first was not acknowledged. -/
theorem writeEnableTiming : Obligations.WriteEnableTiming := by
  intro inp s t sig hc h access write
  have haccess : access ↔ s.awaitsMemory = true := (awaitsMemory_eq_true hc).symm
  have hpins := cycle_pins h hc
  refine ⟨?_, fun hw => ?_, fun hw htr => ?_, fun hw => ?_, fun ha hw => ?_, fun inp' u sig' h' => ?_⟩
  · rw [hpins]
    simp only [write, haccess]
    cases s.awaitsMemory <;> simp [externalAccess, transferPins, idlePins]
  · rw [hpins] at hw
    simp only [write, haccess]
    cases ha : s.awaitsMemory
    · simp [ha, idlePins] at hw
    · exact ⟨rfl, by simp_all [externalAccess, transferPins]⟩
  · rw [hpins, if_pos (haccess.mp hw.1)]
    simp [externalAccess, transferPins, htr, hw.2]
  · rw [hpins, if_pos (haccess.mp hw.1)]
    exact ⟨rfl, rfl, rfl⟩
  · rw [hpins, if_pos (haccess.mp ha)]
    simp [externalAccess, transferPins, hw]
  · have hct : t.cfg.cacheEn = false := by rw [cycle_cfg h, hc]
    have hpins' := cycle_pins h' hct
    refine ⟨fun hw hk => ?_, fun hw hk => ?_⟩
    · obtain ⟨hcfg, hdx, hat, htr⟩ := cycle_of_unacknowledged h hc (haccess.mp hw.1) hk
      rw [hpins, hpins', if_pos (haccess.mp hw.1), if_pos hat]
      simp [externalAccess, transferPins, hcfg, hdx, htr, hw.2]
    · rw [hpins']
      cases hat : t.awaitsMemory
      · rfl
      · have htr : ¬t.sig.transfer = some true := by
          rw [transfer_after_cycle h hc hat]
          simp [hk]
        simp [externalAccess, transferPins, htr]

/-! ### The lines of the cache core -/

/-- The line that ends its load is the selected one from then on (R70, R72). -/
theorem selectedLine_markValid_same (c : List CacheLine) (a : Word) :
    selectedLine (markValid c a) a = some ⟨Config.cacheLineOf a, Config.cacheTagOf a, true, false⟩ := by
  simp [selectedLine, markValid]

theorem selectedLine_markValid_other (c : List CacheLine) {a b : Word}
    (h : Config.cacheLineOf b ≠ Config.cacheLineOf a) :
    selectedLine (markValid c a) b = selectedLine c b := by
  have hab : (Config.cacheLineOf a == Config.cacheLineOf b) = false := by simpa using h.symm
  simp only [selectedLine, markValid, List.find?_cons, hab, List.find?_filter]
  congr 1
  funext l
  by_cases hl : l.line = Config.cacheLineOf b
  · simp [hl, h]
  · simp [hl]

theorem line_of_selectedLine {c : List CacheLine} {a : Word} {l : CacheLine} (h : selectedLine c a = some l) :
    l.line = Config.cacheLineOf a := by
  unfold selectedLine at h
  simpa using List.find?_some h

/-- Marking a line as dirty leaves which line an address selects, and marks the one it selects (R70). -/
theorem selectedLine_markDirty (c : List CacheLine) (a b : Word) : selectedLine (markDirty c a) b =
    (selectedLine c b).map fun l =>
      if l.line == Config.cacheLineOf a then { l with dirty := true } else l := by
  have line_same (l : CacheLine) :
      (if l.line == Config.cacheLineOf a then { l with dirty := true } else l).line = l.line := by
    split <;> rfl
  simp only [selectedLine, markDirty, List.find?_map, Function.comp_def, line_same]

theorem selectedLine_markDirty_same (c : List CacheLine) (a : Word) :
    selectedLine (markDirty c a) a = (selectedLine c a).map fun l => { l with dirty := true } := by
  rw [selectedLine_markDirty]
  cases h : selectedLine c a with
  | none => rfl
  | some l => simp [line_of_selectedLine h]

theorem selectedLine_markDirty_other (c : List CacheLine) {a b : Word}
    (h : Config.cacheLineOf b ≠ Config.cacheLineOf a) :
    selectedLine (markDirty c a) b = selectedLine c b := by
  rw [selectedLine_markDirty]
  cases hs : selectedLine c b with
  | none => rfl
  | some l => simp [line_of_selectedLine hs, h]

/-- The selected line of the marks after an access's cycle: loaded, marked as dirty, or as before. -/
theorem cachedAccess_cache (inp : Inputs) (s : State) :
    (cachedAccess inp s).cache =
      if (cachedAccess inp s).core.setval then markValid s.sig.cache s.dx.maddr
      else if (cachedAccess inp s).core.setdirt then markDirty s.sig.cache s.dx.maddr
      else s.sig.cache := by
  unfold cachedAccess
  cases cacheHit s.sig.cache s.dx.maddr <;> simp

theorem cacheHit_eq_true {c : List CacheLine} {a : Word} : cacheHit c a = true ↔
    ∃ l, selectedLine c a = some l ∧ l.valid = true ∧ l.tag = Config.cacheTagOf a := by
  simp [cacheHit, Option.any_eq_true]

theorem cacheDirty_eq_true {c : List CacheLine} {a : Word} :
    cacheDirty c a = true ↔ ∃ l, selectedLine c a = some l ∧ l.dirty = true := by
  simp [cacheDirty, Option.any_eq_true]

/-- One cycle of an access at the cache core: its signals and pins, the stall, and the marks after it (R70). -/
theorem executeCycle_cached (h : executeCycle inp s = .next e) (hc : s.cfg.cacheEn = true)
    (hr : s.dx.ready = true) (hm : s.dx.flags.memOp = true) (hd : s.sig.execDone = none) :
    e.core = (cachedAccess inp s).core ∧ e.pins = (cachedAccess inp s).pins ∧
      e.stall = !cacheHit s.sig.cache s.dx.maddr ∧ e.state.sig.cache = (cachedAccess inp s).cache := by
  have hacc : accessCycle inp s = cachedAccess inp s := by simp [accessCycle, hc]
  cases hhit : cacheHit s.sig.cache s.dx.maddr
  · have hx := executeCycle_unacknowledged h hr hm hd (by rw [hacc]; exact hhit)
    rw [hx, hacc]
    exact ⟨rfl, rfl, rfl, rfl⟩
  · obtain ⟨u, v, hp, rfl⟩ := executeCycle_acknowledged h hr hm hd (by rw [hacc]; exact hhit)
    refine ⟨by rw [hacc], by rw [hacc], rfl, ?_⟩
    show u.sig.cache = _
    rw [performFlagged_frame hp, hacc]

/-- Settles O54: the signals and marks are those of `cachedAccess`. -/
theorem cacheCoreMarks : Obligations.CacheCoreMarks := by
  intro inp s t sig hc hr hm hd h line old new
  obtain ⟨e, f, he, rfl, hk⟩ := cycle_executeKept h
  obtain ⟨hcore, hpins, hstall, hcache⟩ := executeCycle_cached he hc hr hm hd
  have hcore : (signalsOf inp s e f).core = (cachedAccess inp s).core := hcore
  have hpins : (signalsOf inp s e f).data = (cachedAccess inp s).pins := hpins
  have hstall : (signalsOf inp s e f).xStall = !cacheHit s.sig.cache s.dx.maddr := hstall
  have hmarks : t.sig.cache = _ := hk.cache.trans (hcache.trans (cachedAccess_cache inp s))
  have hsetval : (cachedAccess inp s).core.setval = true ↔
      cacheHit s.sig.cache s.dx.maddr = false ∧ s.lineLoaded inp = true := by simp [cachedAccess]
  have hsetdirt : (cachedAccess inp s).core.setdirt = true ↔
      cacheHit s.sig.cache s.dx.maddr = true ∧ s.dx.flags.memwOp = true := by simp [cachedAccess]
  have hdirt_not_val (hs : (cachedAccess inp s).core.setdirt = true) :
      (cachedAccess inp s).core.setval = false := by
    rw [← Bool.not_eq_true, hsetval, (hsetdirt.mp hs).1]
    simp
  rw [hcore, hpins, hstall]
  refine ⟨cacheHit_eq_true, cacheDirty_eq_true, rfl, rfl, ?_, fun hs => ?_, fun hhit hack hdone hback => ?_,
    hsetdirt, fun hs => ?_, fun hv hs => ?_, fun a ha => ?_⟩
  · cases hhit : cacheHit s.sig.cache s.dx.maddr <;> simp [cachedAccess, hhit, idlePins, transferPins]
  · obtain ⟨hhit, hload⟩ := hsetval.mp hs
    simp only [State.lineLoaded, Bool.and_eq_true] at hload
    refine ⟨hhit, hload.1.1, hload.2, ?_⟩
    show selectedLine t.sig.cache s.dx.maddr = _
    rw [hmarks, if_pos hs, selectedLine_markValid_same]
  · exact hsetval.mpr ⟨hhit, by simp [State.lineLoaded, State.writesBack, hack, hdone, hback]⟩
  · show selectedLine t.sig.cache s.dx.maddr = _
    rw [hmarks, hdirt_not_val hs, if_neg Bool.false_ne_true, if_pos hs, selectedLine_markDirty_same]
    rfl
  · rw [hmarks, hv, hs]
    rfl
  · show selectedLine t.sig.cache a = selectedLine s.sig.cache a
    rw [hmarks]
    split
    · exact selectedLine_markValid_other _ ha
    · split
      · exact selectedLine_markDirty_other _ ha
      · rfl

/-! ### One entry for each line -/

theorem linesDiffer_markValid {c : List CacheLine} (h : c.Pairwise fun a b => a.line ≠ b.line) (a : Word) :
    (markValid c a).Pairwise fun a b => a.line ≠ b.line := by
  refine List.pairwise_cons.mpr ⟨fun l hl => ?_, h.filter _⟩
  have hne : l.line ≠ Config.cacheLineOf a := by simpa using (List.mem_filter.mp hl).2
  exact hne.symm

theorem linesDiffer_markDirty {c : List CacheLine} (h : c.Pairwise fun a b => a.line ≠ b.line) (a : Word) :
    (markDirty c a).Pairwise fun a b => a.line ≠ b.line := by
  refine List.pairwise_map.mpr (h.imp fun {x y} hxy => ?_)
  have line_same (l : CacheLine) :
      (if l.line == Config.cacheLineOf a then { l with dirty := true } else l).line = l.line := by
    split <;> rfl
  rwa [line_same, line_same]

/-- The marks stay unless an unfinished load or store is in execute and the cache is enabled (R62, R70). -/
theorem executeCycle_cache (h : executeCycle inp s = .next e) :
    e.state.sig.cache = s.sig.cache ∨ (s.cfg.cacheEn = true ∧ s.dx.ready = true ∧ s.dx.flags.memOp = true ∧
      s.sig.execDone = none ∧ e.state.sig.cache = (cachedAccess inp s).cache) := by
  by_cases hcase : s.cfg.cacheEn = true ∧ s.dx.ready = true ∧ s.dx.flags.memOp = true ∧ s.sig.execDone = none
  · obtain ⟨hc, hr, hm, hd⟩ := hcase
    exact .inr ⟨hc, hr, hm, hd, (executeCycle_cached h hc hr hm hd).2.2.2⟩
  · left
    have kept (hr : s.dx.ready = true) (hd : s.sig.execDone = none) :
        (if s.dx.flags.memOp then accessCycle inp s else noAccess s).cache = s.sig.cache := by
      split
      · next hm =>
        have hc : ¬s.cfg.cacheEn = true := fun hc => hcase ⟨hc, hr, hm, hd⟩
        simp [accessCycle, hc, externalAccess]
      · rfl
    cases executeCycle_cases h with
    | empty hr he => rw [he]; rfl
    | finished v hr hd he => rw [he]; rfl
    | barred hr hd hb he => rw [he]; rfl
    | waits acc hr hd hb ha hw he =>
      rw [he]
      exact (congrArg AccessCycle.cache ha).trans (kept hr hd)
    | performed acc u v hr hd hb ha hack hm hp he =>
      rw [he]
      show u.sig.cache = _
      rw [performFlagged_frame hp]
      exact (congrArg AccessCycle.cache ha).trans (kept hr hd)

/-- Settles O55: the marks stay, or one line is loaded or marked as dirty. -/
theorem cycleKeepsCacheLines : Obligations.CycleKeepsCacheLines := by
  intro inp s t sig h
  obtain ⟨e, f, he, -, hk⟩ := cycle_executeKept h
  have hcases := executeCycle_cache he
  rw [← hk.cache] at hcases
  refine ⟨fun hs => ?_, fun hno => ?_⟩
  · unfold State.CacheLinesDiffer at hs ⊢
    rcases hcases with hsame | ⟨-, -, -, -, hcache⟩
    · rwa [hsame]
    · rw [hcache, cachedAccess_cache]
      split
      · exact linesDiffer_markValid hs _
      · split
        · exact linesDiffer_markDirty hs _
        · exact hs
  · rcases hcases with hsame | ⟨hc, hr, hm, hd, -⟩
    · exact hsame
    · simp [hc, hr, hm, hd] at hno

end Cycle

end Sys2Proof.Machine
end

