-- ==== Sys2Proof/Proofs/FetchStage.lean ====
section
/-! PROOFS. The address on IA and the pins of the instruction memory, what a tick of sCLOCK loads, and the invariant
that the fetch keeps step with pc and npc (R50 to R57, R140 to R148, R177, R180, R244). -/

namespace Sys2Proof.Machine

section Cycle
variable {inp : Inputs} {s t : State} {sig : Signals} {e : ExecuteCycle} {f : Option FetchedWord}

/-! ### The fetch stage's signals -/

theorem awaitsBranch_of_hasResult (h : s.hasResult = true) : s.awaitsBranch = false := by
  simp [State.awaitsBranch, h]

theorem fetchEnds_eq_true : s.fetchEnds = true ↔ s.cfg.endPc = some s.iaAddr ∧ s.awaitsBranch = false := by
  simp [State.fetchEnds]

theorem fetchEnds_eq_false : s.fetchEnds = false ↔ s.cfg.endPc ≠ some s.iaAddr ∨ s.awaitsBranch = true := by
  rw [← Bool.not_eq_true, fetchEnds_eq_true, not_and_or, Bool.not_eq_false]

theorem fetchedAlready_eq_none :
    s.fetchedAlready = none ↔ ∀ h, s.sig.fetchHold = some h → h.pc ≠ s.iaAddr := by
  simp only [Option.eq_none_iff_forall_not_mem, Option.mem_def, fetchedAlready_eq_some, not_and]

/-- While a control transfer's outcome is not known, the fetch of the next instruction goes on. -/
theorem iaAddr_of_awaitsBranch (h : s.awaitsBranch = true) : s.iaAddr = s.fetchAddr := by
  simp [State.iaAddr, State.branchesTo, h]

theorem decodeWord_eq_next_iff {w : Word} {i : Instr} : s.decodeWord w = .next i ↔ decode s.cfg.enc w = .ok i := by
  rw [decodeWord_eq_next, decode_eq_ok]

/-- With DX formed, the address on IA is the registers', or under DELAY_SLOTS = 0 the target DX takes (R147). -/
theorem iaAddr_of_decode {o : Option DecodeExecute} (h : decodeCycle s = .next o) (hr : s.hasResult = true) :
    s.iaAddr = if s.cfg.delaySlot then s.fetchAddr else (o.bind (·.target)).getD s.fetchAddr := by
  cases hd : s.cfg.delaySlot
  · simp [State.iaAddr, State.branchesTo, hd, awaitsBranch_of_hasResult hr, branchTarget_of_decode h]
  · exact iaAddr_of_delaySlot hd

/-- A fetch answers what it brings where IR and INSACK are asserted (R51, R57). -/
theorem fetchBrings_of_acknowledged (h : fetchCycle inp s = .next f) (hir : s.fetchEnabled = true)
    (hack : inp.insack = true) : ∃ g, s.fetchBrings = .next g ∧ f = some g := by
  obtain ⟨hends, hnew⟩ := fetchEnabled_eq_true.mp hir
  rcases fetchCycle_cases h with ⟨he, -⟩ | ⟨-, hs, -⟩ | ⟨-, -, ⟨w, hw, -⟩ | ⟨-, g, hg, hf⟩⟩
  · simp [hends] at he
  · simp [State.fetchStalls, hack] at hs
  · simp [hnew] at hw
  · exact ⟨g, hg, hf⟩

/-- A fetch that answers nothing: none is placed there, or the program may have stored there (R57, R84). -/
theorem memLookup_eq_none_or_shared {a : Word} (h : ∀ w, s.fetchWord a ≠ .next w) :
    memLookup s.imem (busAddr s.cfg.variant a) = none ∨ s.cfg.spacesShared = true := by
  cases hm : memLookup s.imem (busAddr s.cfg.variant a) with
  | none => exact .inl rfl
  | some w =>
    right
    have hst : s.storedTo a = true := by
      by_contra hn
      exact h w (fetchWord_eq_next.mpr ⟨by simpa using hn, hm⟩)
    simp only [State.storedTo, Bool.and_eq_true] at hst
    exact hst.1

/-- Settles O49: the signals are those of the fetch stage, which sees the execute stage's work. -/
theorem fetchPins : Obligations.FetchPins := by
  intro inp s t sig h
  obtain ⟨e, f, he, hf, rfl, ht⟩ := cycle_next_inv h
  have hs := (executeCycle_frame he).fetchSame
  have hwait := awaitsBranch_iff (f := f) he
  refine ⟨rfl, fun hd => ?_, fun hd hp => ?_, fun hb => ?_, ?_, fun hir hack => ⟨?_, ?_⟩, fun hir hack => ?_⟩
  · exact (iaAddr_of_delaySlot (by rw [hs.cfg, hd])).trans hs.addr
  · obtain ⟨e', f', dx, he', -, hdx, hfs, hes, rfl, hsig⟩ := cycle_tick_inv h hp
    have hs' := (executeCycle_frame he').fetchSame
    have hia := iaAddr_of_decode hdx (hasResult_of_executeCycle he' hes hfs)
    rw [hs'.cfg, hd, if_neg Bool.false_ne_true, hs'.addr] at hia
    rw [hsig, State.ticked_dx]
    refine Eq.trans hia ?_
    cases dx <;> rfl
  · exact (iaAddr_of_awaitsBranch (hwait.mpr hb)).trans hs.addr
  · rw [← hwait]
    show e.state.fetchEnabled = true ↔ _
    rw [fetchEnabled_eq_true, fetchEnds_eq_false, fetchedAlready_eq_none, hs.cfg, hs.hold]
    rfl
  · simp [signalsOf, State.fetchStalls, hack]
  · have henabled : e.state.fetchEnabled = true := hir
    obtain ⟨g, hg, rfl⟩ := fetchBrings_of_acknowledged hf henabled hack
    rw [← hwait]
    rcases fetchBrings_cases hg with ⟨w, hw, rfl⟩ | ⟨ha, hno, rfl⟩
    · left
      have hib : (signalsOf inp s e (some ⟨e.state.iaAddr, some w⟩)).ib = w := by
        simp [signalsOf, henabled, hack]
      rw [hib]
      refine ⟨?_, rfl, rfl⟩
      have hmem := memLookup_of_fetchWord hw
      rwa [hs.imem, hs.cfg] at hmem
    · right
      have hnone := memLookup_eq_none_or_shared hno
      rw [hs.imem, hs.cfg] at hnone
      exact ⟨ha, hnone, by simp [signalsOf], rfl, rfl⟩
  · have hir : e.state.fetchEnabled = true := hir
    have hfs : e.state.fetchStalls inp = true := by simp [State.fetchStalls, hir, hack]
    refine ⟨hfs, ?_⟩
    rcases ht with ⟨-, rfl⟩ | ⟨hn, -⟩
    · exact hs.addr
    · simp [hfs] at hn

/-! ### What a tick of sCLOCK loads -/

/-- What the decode stage hands to DX as the pipeline advances: an empty slot, or FD's instruction, decoded and
issued with the operands that the execute stage's work of the cycle forwards. -/
theorem decodeCycle_of_executeCycle (he : executeCycle inp s = .next e) {o : Option DecodeExecute}
    (h : decodeCycle e.state = .next o) : (s.fd.ready = false ∧ o = none) ∨
      (s.fd.ready = true ∧ ∃ i x, decode s.cfg.enc s.fd.word = .ok i ∧
        issueInstr i { e.state with pc := s.fd.pc } = .next x ∧ IssuedAs i { e.state with pc := s.fd.pc } x ∧
        o = some x) := by
  have hs := (executeCycle_frame he).fetchSame
  rcases decodeCycle_cases h with ⟨hr, ho⟩ | ⟨hr, -, i, x, hi, hx, ho⟩
  · exact .inl ⟨by rw [← hs.fd, hr], ho⟩
  · rw [hs.fd] at hr hi hx
    rw [decodeWord_eq_next_iff, hs.cfg] at hi
    exact .inr ⟨hr, i, x, hi, hx, issuedAs_of_next hx, ho⟩

/-- What FD and the fetch stage's register take as the pipeline advances: the instruction at the address on IA, or
none at the run's end (R39, R140, R177). -/
theorem fetchCycle_of_tick (he : executeCycle inp s = .next e) (hf : fetchCycle inp e.state = .next f)
    (hfs : e.state.fetchStalls inp = false) (hes : e.stall = false) :
    (s.cfg.endPc = some e.state.iaAddr ∧ f = none) ∨
      (s.cfg.endPc ≠ some e.state.iaAddr ∧ ∃ w, f = some ⟨e.state.iaAddr, some w⟩ ∧
        (s.sig.fetchHold = some ⟨e.state.iaAddr, some w⟩ ∨
          (∀ v, s.sig.fetchHold ≠ some ⟨e.state.iaAddr, some v⟩) ∧
            memLookup s.imem (busAddr s.cfg.variant e.state.iaAddr) = some w)) := by
  have hs := (executeCycle_frame he).fetchSame
  have hr := hasResult_of_executeCycle he hes hfs
  have hends := fetchEnds_eq_true (s := e.state)
  rw [awaitsBranch_of_hasResult hr, eq_self, and_true, hs.cfg] at hends
  have hcases := fetchCycle_tick hf hfs hr
  rw [hs.hold, hs.imem, hs.cfg] at hcases
  refine hcases.imp (And.imp_left hends.mp) (And.imp_left fun hn => ?_)
  rw [Ne, ← hends, hn]
  exact Bool.false_ne_true

/-- Settles O51: the word FD is loaded with is the one on IB, and the decoded instruction carries FD's word. -/
theorem instructionPassedOn : Obligations.InstructionPassedOn := by
  intro inp s t sig h hp
  refine ⟨fun hir => ?_, fun hr => ?_, fun hr => ?_⟩
  · have hready : t.fd.ready = true := by
      obtain ⟨e, f, dx, he, hf, -, hfs, hes, rfl, rfl⟩ := cycle_tick_inv h hp
      have hends := (fetchEnabled_eq_true.mp hir).1
      rcases fetchCycle_tick hf hfs (hasResult_of_executeCycle he hes hfs) with ⟨hn, -⟩ | ⟨-, w, rfl, -⟩
      · simp [hends] at hn
      · rfl
    obtain ⟨w, hfd, hib, -, -⟩ := cycle_loads_fd h hp hready
    rw [hfd]
    exact ⟨rfl, hib hir⟩
  · obtain ⟨w, hfd, -, -, -⟩ := cycle_loads_fd h hp hr
    rw [hfd]; rfl
  · obtain ⟨e, f, dx, he, -, hdx, -, -, rfl, -⟩ := cycle_tick_inv h hp
    rcases decodeCycle_of_executeCycle he hdx with ⟨hn, -⟩ | ⟨-, i, x, hi, -, hissued, rfl⟩
    · simp [hr] at hn
    · rw [State.ticked_dx, Option.getD_some, hissued.word]
      exact (decode_eq_ok_iff_wf.mp hi).2

/-- Settles O52: FD is loaded with the word's dr field or held, and DX takes the destination of the word's row. -/
theorem destinationPassedOn : Obligations.DestinationPassedOn := by
  intro inp s t sig h shows
  have hcfg := cycle_cfg h
  have ticks (hp : sig.pStall = false) : shows t := by
    intro hr
    obtain ⟨w, hfd, -, -, -⟩ := cycle_loads_fd h hp hr
    rw [hfd, hcfg]; rfl
  have holds (hp : sig.pStall = true) : t.fd = s.fd := by
    obtain ⟨e, f, he, -, -, rfl, -⟩ := cycle_stall_inv h hp
    exact (executeCycle_frame he).fetchSame.fd
  refine ⟨ticks, fun hshows => ?_, holds, fun hshows hp hr => ?_⟩
  · cases hp : sig.pStall
    · exact ticks hp
    · intro hr
      rw [holds hp] at hr ⊢
      rw [hcfg]
      exact hshows hr
  · obtain ⟨e, f, dx, he, -, hdx, -, -, rfl, -⟩ := cycle_tick_inv h hp
    rcases decodeCycle_of_executeCycle he hdx with ⟨hn, -⟩ | ⟨-, i, x, hi, -, hissued, rfl⟩
    · simp [hr] at hn
    · obtain ⟨r, hrow, rfl⟩ := decode_eq_ok.mp hi
      have hmem : r ∈ matchingRows s.cfg.enc s.fd.word := by simp [hrow]
      simp only [matchingRows, List.mem_filter, rowMatches, beq_iff_eq] at hmem
      refine ⟨r, hmem.1, hmem.2, ?_, ?_⟩
      · simpa using hissued.flags
      · rw [State.ticked_dx, Option.getD_some, hissued.dr, fields_instrOf, hshows hr]
        rfl

/-- Settles O39: a stalled cycle holds every register; an advance loads each with what its stage shows. -/
theorem pipelineClock : Obligations.PipelineClock := by
  intro inp s t sig h
  refine ⟨fun hp => ?_, fun hp => ?_⟩
  · obtain ⟨e, f, he, -, -, rfl, -⟩ := cycle_stall_inv h hp
    have hframe := executeCycle_frame he
    refine ⟨hframe.fetchSame.fd, hframe.fetchSame.dx, ?_, ?_, ?_, ?_, ?_, ?_, hframe.fetchSame.addr⟩ <;>
      rw [hframe] <;> rfl
  · obtain ⟨e, f, dx, he, hf, hdx, hfs, hes, rfl, rfl⟩ := cycle_tick_inv h hp
    have hframe := executeCycle_frame he
    have hs := hframe.fetchSame
    have hshows : e.state.decodeShows = dx := by simp [State.decodeShows, hdx]
    have hflags : s.decodeFlags = (dx.getD DecodeExecute.empty).flags := by
      rcases decodeCycle_of_executeCycle he hdx with ⟨hr, rfl⟩ | ⟨hr, i, x, hi, -, hissued, rfl⟩
      · simp [State.decodeFlags, hr, DecodeExecute.empty]
      · simp [State.decodeFlags, hr, hi, hissued.flags]
    refine ⟨?_, ?_, ?_, ?_, ?_, rfl, ?_⟩
    · rw [State.ticked_wd, hframe]
    · rw [State.ticked_xw, hs.dx]; rfl
    · rw [State.ticked_dx]
      rcases decodeCycle_of_executeCycle he hdx with ⟨hr, rfl⟩ | ⟨hr, i, x, -, -, hissued, rfl⟩
      · rw [hr]; rfl
      · rw [hr]; exact hissued.ready
    · rw [State.ticked_dx]; exact hflags
    · rcases decodeCycle_of_executeCycle he hdx with ⟨hr, rfl⟩ | ⟨hr, i, x, hi, -, hissued, rfl⟩
      · rw [hr, if_neg Bool.false_ne_true]
        constructor
        · show e.state.pc = s.pc
          rw [hframe]
        · show e.state.npc = s.npc
          rw [hframe]
      · rw [if_pos hr]
        refine ⟨hissued.word.trans (decode_eq_ok_iff_wf.mp hi).2, ?_, ?_, pcsAfter_nextPcs _ _ _ ?_ ?_⟩
        · exact congrArg (Option.map (·.maddr)) hshows
        · exact congrArg (Option.map (·.mdata)) hshows
        · show (nextPcs e.state.cfg e.state.fd.pc e.state.npc x.target).1 = _
          rw [hframe]; rfl
        · show (nextPcs e.state.cfg e.state.fd.pc e.state.npc x.target).2 = _
          rw [hframe]; rfl
    · rcases fetchCycle_of_tick he hf hfs hes with ⟨hend, rfl⟩ | ⟨hend, w, rfl, hw⟩
      · exact (if_pos hend).mpr ⟨rfl, rfl⟩
      · have hfd : (e.state.ticked dx (some ⟨e.state.iaAddr, some w⟩)).fd =
            fetched s.cfg.enc e.state.iaAddr w := by
          rw [State.ticked_fd_fetched, hs.cfg]
        rw [hfd]
        refine (if_neg hend).mpr ⟨w, rfl, hw, ?_, rfl, rfl⟩
        rw [State.ticked_sig, hs.cfg]; rfl

end Cycle

end Sys2Proof.Machine
end

