-- ==== Sys2Proof/Proofs/FetchSteering.lean ====
section
/-! PROOFS. The fetch keeps step with pc and npc, through stalls and control transfers, to the run's end (R39, R140,
R147, R180, R244); when a MorphoSys operation begins beside it (R265). -/

namespace Sys2Proof.Machine

section Cycle
variable {inp inp' : Inputs} {s t : State} {sig : Signals} {e e' : ExecuteCycle} {f : Option FetchedWord}

/-! ### The invariant FetchInStep -/

/-- What is held after a stalled cycle was placed at the address on IA, or held before (R55, R57). -/
theorem fetchCycle_word (h : fetchCycle inp s = .next f) {a w : Word} (hf : f = some ⟨a, some w⟩) :
    s.sig.fetchHold = some ⟨a, some w⟩ ∨ memLookup s.imem (busAddr s.cfg.variant a) = some w := by
  rcases fetchCycle_cases h with ⟨-, rfl⟩ | ⟨-, -, rfl⟩ | ⟨-, -, ⟨w', hw', rfl⟩ | ⟨-, g, hg, rfl⟩⟩
  · cases hf
  · cases hf
  · cases hf
    exact .inl (fetchedAlready_eq_some.mp hw').1
  · rcases fetchBrings_cases hg with ⟨w', hw', rfl⟩ | ⟨-, -, rfl⟩ <;> cases hf
    exact .inr (memLookup_of_fetchWord hw')

/-- Nothing is fetched in a cycle that f_stall is asserted in (R53). -/
theorem fetchCycle_of_fetchStalls (h : fetchCycle inp s = .next f) (hs : s.fetchStalls inp = true) : f = none := by
  simpa [fetchCycle, hs, eq_comm] using h

/-- A stalled cycle keeps the fetch in step: nothing moves, and what it fetched is placed at the address on IA. -/
theorem fetchInStep_of_held (hs : s.FetchInStep) (he : executeCycle inp s = .next e)
    (hf : fetchCycle inp e.state = .next f) : (e.state.held f).FetchInStep := by
  obtain ⟨hfd, haddr, hseq, hend, hhold, hbegun⟩ := hs
  have hframe := executeCycle_frame he
  have hsame := hframe.fetchSame
  have hpc : e.state.pc = s.pc := by rw [hframe]
  have hnpc : e.state.npc = s.npc := by rw [hframe]
  unfold State.FetchInStep
  simp only [State.held_fd, State.held_pc, State.held_npc, State.held_imem, State.held_cfg, State.held_fetchAddr,
    State.held_dx, State.held_sig, hsame.fd, hsame.cfg, hsame.imem, hsame.addr, hsame.dx, hpc, hnpc]
  refine ⟨hfd, haddr, hseq, hend, fun a w hw => ?_, fun hr hd hb => ?_⟩
  · rcases fetchCycle_word hf hw with h | h
    · rw [hsame.hold] at h
      exact hhold a w h
    · rwa [hsame.imem, hsame.cfg] at h
  · have hnone : s.sig.execDone = none := execDone_eq_none_of_executeCycle he hd
    by_cases hbar : s.morphBarred inp = true
    · exact fetchCycle_of_fetchStalls hf (fetchStalls_of_barred he hr hnone hbar).2
    · simp [executeCycle_begun he hr hnone (by simpa using hbar)] at hb

/-- Behind an empty slot the fetch stays at pc: FD takes the instruction there, or the run ends (R38, R39). -/
theorem fetchInStep_of_empty_tick (hs : s.FetchInStep) (he : executeCycle inp s = .next e)
    (hf : fetchCycle inp e.state = .next f) (hfs : e.state.fetchStalls inp = false) (hes : e.stall = false)
    (hr : s.fd.ready = false) : (e.state.ticked none f).FetchInStep := by
  obtain ⟨-, haddr, hseq, hend, hhold, -⟩ := hs
  have hframe := executeCycle_frame he
  have hsame := hframe.fetchSame
  have hpc : (e.state.ticked none f).pc = s.pc := by
    show e.state.pc = s.pc
    rw [hframe]
  have hnpc : (e.state.ticked none f).npc = s.npc := by
    show e.state.npc = s.npc
    rw [hframe]
  rw [hr, if_neg Bool.false_ne_true] at haddr
  have hia : e.state.iaAddr = s.pc := by
    rw [iaAddr_of_empty (by rw [hsame.fd, hr]), hsame.addr, haddr]
  have hfetch : (e.state.ticked none f).fetchAddr =
      if f.isSome then e.state.iaAddr + stepOf e.state.cfg.insnStep else e.state.iaAddr := by
    simp [State.fetchAddr, DecodeExecute.empty]
  unfold State.FetchInStep
  rw [hfetch, hpc, hnpc, State.ticked_cfg, State.ticked_imem, hia, hsame.cfg, hsame.imem]
  rcases fetchCycle_of_tick he hf hfs hes with ⟨hatEnd, rfl⟩ | ⟨hnotEnd, w, rfl, hw⟩
  · rw [hia] at hatEnd
    exact ⟨(nomatch ·), rfl, hseq, fun _ hne => absurd hatEnd hne, fun _ _ hn => (nomatch hn), (nomatch ·)⟩
  · rw [hia] at hw hnotEnd ⊢
    have hnext : s.npc = s.pc + stepOf s.cfg.insnStep := hend hr (by rwa [haddr])
    have hplaced : memLookup s.imem (busAddr s.cfg.variant s.pc) = some w := hw.elim (hhold _ _) (·.2)
    exact ⟨fun _ => ⟨rfl, hplaced⟩, hnext.symm, hseq, (nomatch ·), fun _ _ hn => (nomatch hn), (nomatch ·)⟩

/-- Behind an instruction the address on IA is the new pc, and the fetch stage's register and the registered
d_chg_pc give the new npc (R147, R180, R244). -/
theorem fetchInStep_of_tick (hs : s.FetchInStep) (he : executeCycle inp s = .next e)
    (hf : fetchCycle inp e.state = .next f) (hfs : e.state.fetchStalls inp = false) (hes : e.stall = false)
    (hr : s.fd.ready = true) {x : DecodeExecute} (hx : decodeCycle e.state = .next (some x))
    (hxr : x.ready = true) : (e.state.ticked (some x) f).FetchInStep := by
  obtain ⟨hfd, haddr, hseq, -, hhold, -⟩ := hs
  have hframe := executeCycle_frame he
  have hsame := hframe.fetchSame
  have hpcs : PcsAfter s (e.state.ticked (some x) f) x.target := by
    have hfdpc : e.state.fd.pc = s.pc := by rw [hsame.fd, (hfd hr).1]
    refine pcsAfter_nextPcs _ _ _ ?_ ?_
    · show (nextPcs e.state.cfg e.state.fd.pc e.state.npc x.target).1 = _
      rw [hfdpc, hframe]
    · show (nextPcs e.state.cfg e.state.fd.pc e.state.npc x.target).2 = _
      rw [hfdpc, hframe]
  have hia := iaAddr_of_decode hx (hasResult_of_executeCycle he hes hfs)
  rw [hr, if_pos rfl] at haddr
  rw [hsame.cfg, hsame.addr, haddr, Option.bind_some] at hia
  have hiapc : (e.state.ticked (some x) f).pc = e.state.iaAddr ∧ (s.cfg.delaySlot = false →
      (e.state.ticked (some x) f).npc = (e.state.ticked (some x) f).pc + stepOf s.cfg.insnStep) := by
    unfold PcsAfter at hpcs
    cases hd : s.cfg.delaySlot
    · rw [hd, if_neg Bool.false_ne_true] at hpcs hia
      exact ⟨by rw [hpcs.1, hia, hseq hd], fun _ => hpcs.2⟩
    · rw [hd, if_pos rfl] at hpcs hia
      exact ⟨by rw [hpcs.1, hia], fun hn => (nomatch hn)⟩
  obtain ⟨hpc, hnpc⟩ := hiapc
  unfold State.FetchInStep
  rw [State.ticked_cfg, State.ticked_imem, hsame.cfg, hsame.imem, hpc]
  rw [hpc] at hnpc
  rcases fetchCycle_of_tick he hf hfs hes with ⟨hatEnd, rfl⟩ | ⟨hnotEnd, w, rfl, hw⟩
  · have hfetch : (e.state.ticked (some x) none).fetchAddr = e.state.iaAddr := by
      simp [State.fetchAddr, FetchDecode.empty]
    rw [hfetch]
    exact ⟨(nomatch ·), rfl, hnpc, fun _ hne => absurd hatEnd hne, fun _ _ hn => (nomatch hn),
      fun _ _ _ => rfl⟩
  · have hfetch : (e.state.ticked (some x) (some ⟨e.state.iaAddr, some w⟩)).fetchAddr =
        (if s.cfg.delaySlot then x.target else none).getD (e.state.iaAddr + stepOf s.cfg.insnStep) := by
      simp [State.fetchAddr, hxr, hsame.cfg, fetched]
    have hplaced : memLookup s.imem (busAddr s.cfg.variant e.state.iaAddr) = some w := hw.elim (hhold _ _) (·.2)
    refine ⟨fun _ => ⟨rfl, hplaced⟩, ?_, hnpc, (nomatch ·), fun _ _ hn => (nomatch hn), fun _ _ _ => rfl⟩
    rw [hfetch]
    refine Eq.trans ?_ (if_pos rfl).symm
    unfold PcsAfter at hpcs
    cases hd : s.cfg.delaySlot
    · exact (hnpc hd).symm
    · rw [hd, if_pos rfl] at hpcs hia
      rw [if_pos rfl, hpcs.2, hia]

/-- Settles O45: a stalled cycle holds; an advance moves the fetch by what was in decode. -/
theorem cycleKeepsFetchInStep : Obligations.CycleKeepsFetchInStep := by
  intro inp s t sig hs h
  obtain ⟨e, f, he, hf, -, ⟨-, rfl⟩ | ⟨hn, dx, hdx, rfl⟩⟩ := cycle_next_inv h
  · exact fetchInStep_of_held hs he hf
  · rw [Bool.or_eq_false_iff] at hn
    rcases decodeCycle_of_executeCycle he hdx with ⟨hr, rfl⟩ | ⟨hr, i, x, -, -, hissued, rfl⟩
    · exact fetchInStep_of_empty_tick hs he hf hn.1 hn.2 hr
    · exact fetchInStep_of_tick hs he hf hn.1 hn.2 hr hdx hissued.ready

/-! ### The run's end -/

/-- Past an empty slot and results on their way that write nothing, the registers are the register file's. -/
theorem reg_of_producer_none {r : RegId} (h : s.producer r = none) : s.reg r = s.rfRead r := by
  unfold State.producer at h
  unfold State.reg
  split
  · next hz => simp [State.rfRead, hz]
  · simp [h]

theorem producer_of_drained (h : s.drained = true) (r : RegId) : s.producer r = none := by
  simp only [State.drained, Bool.and_eq_true, Bool.not_eq_true'] at h
  obtain ⟨⟨⟨-, hdx⟩, hxw⟩, hwd⟩ := h
  exact producer_eq_none.mpr ⟨by simp [hdx], by simp [hxw], by simp [hwd]⟩

/-- In a state in step, with nothing in FD, the fetch stage is at pc. -/
theorem fetchAddr_of_empty (hs : s.FetchInStep) (hr : s.fd.ready = false) : s.fetchAddr = s.pc := by
  obtain ⟨-, haddr, -⟩ := hs
  rwa [hr, if_neg Bool.false_ne_true] at haddr

/-- Settles O57: at END_PC, with empty slots alone, the fetch is over and every stage hands on an empty slot. -/
theorem overStays : Obligations.OverStays := by
  intro inp s t sig hover hs h
  simp only [State.over, Bool.and_eq_true] at hover
  obtain ⟨hend, hdrained⟩ := hover
  have hempty := hdrained
  simp only [State.drained, Bool.and_eq_true, Bool.not_eq_true'] at hempty
  obtain ⟨⟨⟨hfd, hdx⟩, hxw⟩, hwd⟩ := hempty
  obtain ⟨e, f, he, hf, rfl, ht⟩ := cycle_next_inv h
  have hse : e = ⟨s.withoutResult, false, idlePins, idleCore⟩ := by
    cases executeCycle_cases he with
    | empty _ he => exact he
    | finished v hr hd he => simp [hdx] at hr
    | barred hr hd hb he => simp [hdx] at hr
    | waits acc hr hd hb ha hw he => simp [hdx] at hr
    | performed acc u v hr hd hb ha hack hm hp he => simp [hdx] at hr
  subst hse
  have hends : s.withoutResult.fetchEnds = true := by
    refine fetchEnds_eq_true.mpr ⟨?_, awaitsBranch_of_hasResult (by simp [State.hasResult, hdx])⟩
    have hpc : s.withoutResult.iaAddr = s.pc :=
      (iaAddr_of_empty (s := s.withoutResult) hfd).trans (fetchAddr_of_empty hs hfd)
    rw [hpc]
    simpa [State.atEnd] using hend
  have hir : s.withoutResult.fetchEnabled = false := by simp [State.fetchEnabled, hends]
  have hstall : s.withoutResult.fetchStalls inp = false := by simp [State.fetchStalls, hir]
  have hf : f = none := by simpa [fetchCycle, hends, eq_comm] using hf
  subst hf
  rcases ht with ⟨hn, -⟩ | ⟨-, dx, hd, rfl⟩
  · simp [hstall] at hn
  · have hdx' : dx = none := by simpa [decodeCycle, hfd, eq_comm] using hd
    subst hdx'
    have hdrained' : (s.withoutResult.ticked none none).drained = true := by
      simp [State.drained, FetchDecode.empty, DecodeExecute.empty, hdx, hxw]
    refine ⟨?_, hir, by simp [signalsOf, hstall], by simp, by simp, rfl, fun r => ?_⟩
    · simp only [State.over, Bool.and_eq_true]
      exact ⟨hend, hdrained'⟩
    · rw [reg_of_producer_none (producer_of_drained hdrained' r), reg_of_producer_none (producer_of_drained hdrained r)]
      have hrf := rfRead_writeBack s (s.withoutResult.ticked none none) rfl rfl r
      have hwr : ¬(s.wd.drWren = true ∧ s.wd.dr = r) := by simp [hwd]
      rw [hrf, if_neg hwr]
      split
      · next hz => simp [State.rfRead, hz]
      · rfl

/-! ### Control transfers steer the fetch -/

/-- A control transfer's target is what BranchUnit gives for the operands it reads (R241). -/
theorem issueInstr_target {i : Instr} {x : DecodeExecute} (h : issueInstr i s = .next x)
    (hc : i.cls = .ct ∨ i.cls = .jal) : ∃ rr, s.readSources i.fields = .next rr ∧
      x.target = if (branchUnitFn s.cfg.fns i.fields.word rr.1 rr.2 s.pc).1 then
        some (branchUnitFn s.cfg.fns i.fields.word rr.1 rr.2 s.pc).2 else none := by
  have target {c : InsnClass} (h : s.issueTransfer c i.fields = .next x) : ∃ rr, s.readSources i.fields = .next rr ∧
      x.target = if (branchUnitFn s.cfg.fns i.fields.word rr.1 rr.2 s.pc).1 then
        some (branchUnitFn s.cfg.fns i.fields.word rr.1 rr.2 s.pc).2 else none := by
    obtain ⟨rr, hr, -, -, rfl⟩ := issueTransfer_eq_next.mp h
    exact ⟨rr, hr, rfl⟩
  cases i
  case ct d => exact target h
  case jal d => exact target h
  all_goals simp [Instr.cls] at hc

/-- The instruction in decode is a control transfer where its class is CT or JAL (R240). -/
theorem decodesTransfer_eq_true {i : Instr} (hr : s.fd.ready = true) (hi : decode s.cfg.enc s.fd.word = .ok i) :
    s.decodesTransfer = true ↔ i.cls = .ct ∨ i.cls = .jal := by
  simp [State.decodesTransfer, hr, hi]

/-- The operands of a cycle are read of the state with the result that the execute stage forwards (R136, R158). -/
theorem readSources_of_executeCycle (he : executeCycle inp s = .next e) (pc : Word) (d : Decoded) :
    ({ e.state with pc := pc } : State).readSources d = ({ s with xn := e.state.xn } : State).readSources d := by
  rw [executeCycle_frame he]
  rfl

/-- Settles O60: d_chg_pc loads what the branch unit gives, and where it is registered or, without a delay slot, as it
loads, the address on IA is its target. -/
theorem changePcSteersFetch : Obligations.ChangePcSteersFetch := by
  intro inp inp' s t u sig sig' h hp h'
  obtain ⟨e, f, dx, he, hf, hdx, hfs, hes, rfl, rfl⟩ := cycle_tick_inv h hp
  obtain ⟨e', f', he', hf', rfl, hu⟩ := cycle_next_inv h'
  have hs := (executeCycle_frame he).fetchSame
  have hs' := (executeCycle_frame he').fetchSame
  have hdxt : (e.state.ticked dx f).dx.target = dx.bind (·.target) := by
    rw [State.ticked_dx]
    cases dx <;> rfl
  have hbranch := branchTarget_of_decode hdx
  have hia := iaAddr_of_decode hdx (hasResult_of_executeCycle he hes hfs)
  rw [hs.cfg, hs.addr] at hia
  have hdelay (hd : s.cfg.delaySlot = true) : (signalsOf inp' (e.state.ticked dx f) e' f').iaAddr =
      (e.state.ticked dx f).fetchAddr := by
    have hd' : e'.state.cfg.delaySlot = true := by rw [hs'.cfg, State.ticked_cfg, hs.cfg, hd]
    exact (iaAddr_of_delaySlot hd').trans hs'.addr
  have registered {target : Word} (ht : dx.bind (·.target) = some target) (hd : s.cfg.delaySlot = true)
      (hr : (e.state.ticked dx f).fd.ready = true) : e'.state.iaAddr = target := by
    refine (hdelay hd).trans ?_
    obtain ⟨x, rfl, hx⟩ := Option.bind_eq_some_iff.mp ht
    have hxr : x.ready = true := by
      rcases decodeCycle_of_executeCycle he hdx with ⟨-, hn⟩ | ⟨-, i, y, -, -, hissued, hy⟩
      · cases hn
      · cases hy; exact hissued.ready
    simp [State.fetchAddr, hs.cfg, hd, hxr, hr, hx]
  rw [hdxt]
  refine ⟨fun hn => ?_, fun htr => ?_, fun target ht => ⟨fun hd hr => ⟨registered ht hd hr, fun hp' hne => ?_⟩,
    fun hd => ?_⟩, fun hn => ⟨?_, fun hd hne => ?_⟩⟩
  · rw [← hbranch]
    cases hb : e.state.branchTarget with
    | none => rfl
    | some a =>
      have := transfer_of_branchTarget hb
      rw [hs.transfer, hn] at this
      cases this
  · rcases decodeCycle_of_executeCycle he hdx with ⟨hr, -⟩ | ⟨hr, i, x, hi, hx, -, rfl⟩
    · simp [State.decodesTransfer, hr] at htr
    · obtain ⟨rr, hread, htarget⟩ := issueInstr_target hx ((decodesTransfer_eq_true hr hi).mp htr)
      rw [readSources_of_executeCycle he] at hread
      rw [(decode_eq_ok_iff_wf.mp hi).2, hs.cfg] at htarget
      exact ⟨i, rr, hi, hread, htarget⟩
  · rcases hu with ⟨hn, -⟩ | ⟨hn, dx', -, rfl⟩
    · have hp' : (e'.state.fetchStalls inp' || e'.stall) = false := hp'
      simp [hn] at hp'
    · have hia' := registered ht hd hr
      rw [Bool.or_eq_false_iff] at hn
      rcases fetchCycle_of_tick he' hf' hn.1 hn.2 with ⟨hend, -⟩ | ⟨-, w, rfl, -⟩
      · rw [State.ticked_cfg, hs.cfg, hia'] at hend
        exact absurd hend hne
      · exact ⟨rfl, hia'⟩
  · rw [hd, if_neg Bool.false_ne_true, ht, Option.getD_some] at hia
    refine ⟨hia, fun hne => ?_⟩
    rcases fetchCycle_of_tick he hf hfs hes with ⟨hend, -⟩ | ⟨-, w, rfl, -⟩
    · exact absurd (hia ▸ hend) hne
    · exact ⟨rfl, hia⟩
  · refine Eq.trans hia ?_
    rw [hn]
    split <;> rfl
  · rw [hdelay hd]
    rcases fetchCycle_of_tick he hf hfs hes with ⟨hend, -⟩ | ⟨-, w, rfl, -⟩
    · exact absurd hend hne
    · simp only [State.fetchAddr, hdxt, hn, ite_self, Option.getD_none, State.ticked_sig, Option.isSome_some,
        if_true, hs.cfg]
      rfl

end Cycle

end Sys2Proof.Machine
end

