-- ==== Sys2Proof/Proofs/FetchHeld.lean ====
section
/-! PROOFS. The fetch through a stall: when a MorphoSys operation may begin beside it (R159, R265), and how a completed
fetch is held while its address stays on IA (R53 to R55, R177). -/

namespace Sys2Proof.Machine

section Cycle
variable {inp inp' : Inputs} {s t : State} {sig : Signals} {e e' : ExecuteCycle} {f f' : Option FetchedWord}

/-! ### The fetch beside a MorphoSys operation that begins -/

/-- What the control transfer in decode waits for does not depend on the execute stage's work, but for a result. -/
theorem awaitsBranch_of_executeCycle (h : executeCycle inp s = .next e) (hr : s.dx.ready = true)
    (hd : s.sig.execDone = none) (ha : s.withoutResult.awaitsBranch = false) : e.state.awaitsBranch = false := by
  have hs := (executeCycle_frame h).fetchSame
  have hres : s.withoutResult.hasResult = false := by simp [State.hasResult, hr, hd]
  have hreads : s.withoutResult.transferReads s.dx.dr = s.transferReads s.dx.dr := rfl
  simp only [State.awaitsBranch, hres, State.withoutResult_cfg, State.withoutResult_dx, hreads] at ha
  simp only [State.awaitsBranch, hs.cfg, hs.dx, hs.reads]
  cases e.state.hasResult
  · exact ha
  · simp

/-- The address on IA is the same before and after the execute stage's work, where no control transfer waits for that
work's result. -/
theorem iaAddr_of_executeCycle (h : executeCycle inp s = .next e) (hr : s.dx.ready = true)
    (hd : s.sig.execDone = none) (ha : s.withoutResult.awaitsBranch = false) :
    e.state.iaAddr = s.withoutResult.iaAddr := by
  have hs := (executeCycle_frame h).fetchSame
  have ha' := awaitsBranch_of_executeCycle h hr hd ha
  have haddr : e.state.fetchAddr = s.withoutResult.fetchAddr := hs.addr
  cases hdelay : s.cfg.delaySlot
  · have hbranch : e.state.branchTarget = s.withoutResult.branchTarget := by
      obtain ⟨v, hv⟩ := executeCycle_forward h
      refine branchTarget_forward (s := s.withoutResult) hs.cfg hs.fd hs.dx rfl hv (fun p r => ?_) ?_
      · rw [executeCycle_frame h]; rfl
      · have hres : s.withoutResult.hasResult = false := by simp [State.hasResult, hr, hd]
        simp only [State.awaitsBranch, State.withoutResult_cfg, hdelay, hres, Bool.not_false, Bool.true_and,
          Bool.and_eq_false_iff] at ha
        exact .inr ha
    have hc : s.withoutResult.cfg = s.cfg := rfl
    simp only [State.iaAddr, State.branchesTo, hs.cfg, hc, ha, ha', hbranch, haddr]
  · rw [iaAddr_of_delaySlot (by rw [hs.cfg, hdelay]), iaAddr_of_delaySlot (s := s.withoutResult) hdelay, haddr]

/-- A MorphoSys operation that has not begun, with nothing held for the fetch, is barred by an f_stall: its own work
would not end the f_stall (R159, R265). -/
theorem morphBarred_of_fetchStalls (h : executeCycle inp s = .next e) (hr : s.dx.ready = true)
    (hmem : s.dx.flags.memOp = false) (hmorph : s.dx.flags.morphOp = true) (hd : s.sig.execDone = none)
    (hb : s.sig.begun = false) (hhold : s.sig.fetchHold = none) (hf : e.state.fetchStalls inp = true) :
    s.morphBarred inp = true := by
  have hs := (executeCycle_frame h).fetchSame
  refine morphBarred_eq_true.mpr ⟨hmem, hmorph, hb, ?_⟩
  simp only [State.fetchStalls, Bool.and_eq_true, Bool.not_eq_true'] at hf ⊢
  obtain ⟨henabled, hack⟩ := hf
  refine ⟨fetchEnabled_eq_true.mpr ⟨?_, ?_⟩, hack⟩
  · rw [← Bool.not_eq_true, fetchEnds_eq_true]
    rintro ⟨hend, ha⟩
    have hia := iaAddr_of_executeCycle h hr hd ha
    have hends : e.state.fetchEnds = true :=
      fetchEnds_eq_true.mpr ⟨by rw [hs.cfg, hia]; exact hend, awaitsBranch_of_executeCycle h hr hd ha⟩
    simp [(fetchEnabled_eq_true.mp henabled).1] at hends
  · simp [State.fetchedAlready, hhold]

/-- Settles O44: morpho_en is off where the operation is barred, which under an f_stall it is until it has begun. -/
theorem morphosysInterface : Obligations.MorphosysInterface := by
  intro inp s t sig h operation
  obtain ⟨e, f, he, -, hsig, -⟩ := cycle_next_inv h
  subst hsig
  refine ⟨fun hen => ?_, fun hop hor => ?_, fun hop hs hf hb => ?_, fun hop hen hp => ?_, fun hv => ?_, fun hv => ?_⟩
  · obtain ⟨hr, hmorph, hd, -⟩ := signalsOf_morphoEn.mp hen
    exact ⟨hr, hmorph, hd⟩
  · obtain ⟨hr, -, hmorph, hd⟩ := hop
    exact signalsOf_morphoEn.mpr ⟨hr, hmorph, hd, morphBarred_of_begun he hr hd hor⟩
  · obtain ⟨hr, hmem, hmorph, hd⟩ := hop
    obtain ⟨-, -, -, -, -, hhold⟩ := hs
    have hbar := morphBarred_of_fetchStalls he hr hmem hmorph hd hb (hhold hr hd hb) hf
    have hen : (signalsOf inp s e f).morphoEn = false := by
      rw [← Bool.not_eq_true, signalsOf_morphoEn]
      simp [hbar]
    have hp : (signalsOf inp s e f).pStall = true := by
      rw [(stallSignals inp s t _ h).1, hf, Bool.true_or]
    obtain ⟨e', f', he', -, -, rfl, -⟩ := cycle_stall_inv h hp
    rw [(fetchStalls_of_barred he' hr hd hbar).1]
    exact ⟨hen, rfl, rfl, rfl, hd, hb⟩
  · obtain ⟨hr, -, -, hd⟩ := hop
    obtain ⟨-, -, -, hbar⟩ := signalsOf_morphoEn.mp hen
    obtain ⟨e', f', he', -, -, rfl, -⟩ := cycle_stall_inv h hp
    exact executeCycle_begun he' hr hd hbar
  · exact signalsOf_morphoBuses_eq_none.mpr hv
  · simp [signalsOf, hv]

/-! ### A held fetch -/

/-- A fetch that was made before is not made again: IR and f_stall are deasserted (R54). -/
theorem not_enabled_of_fetchedAlready {g : FetchedWord} (h : s.fetchedAlready = some g) :
    s.fetchEnabled = false ∧ s.fetchStalls inp = false := by
  simp [State.fetchEnabled, State.fetchStalls, h]

/-- A word held from the address on IA is what the fetch stage has (R55). -/
theorem fetchCycle_of_held_word (h : fetchCycle inp s = .next f) {w : Word}
    (hw : s.fetchedAlready = some ⟨s.iaAddr, some w⟩) (hends : s.fetchEnds = false) :
    f = some ⟨s.iaAddr, some w⟩ := by
  rcases fetchCycle_cases h with ⟨he, -⟩ | ⟨-, hs, -⟩ | ⟨-, -, ⟨v, hv, hf⟩ | ⟨hn, -⟩⟩
  · simp [hends] at he
  · simp [(not_enabled_of_fetchedAlready hw).2] at hs
  · rw [hw] at hv
    rw [hf, hv]
  · rcases hn with hn | hn <;> simp [hw] at hn

/-- What the stall holds is made already in its next cycle, where the same address is on IA. -/
theorem fetchedAlready_of_held (he' : executeCycle inp' (e.state.held f) = .next e') {g : FetchedWord}
    (hf : f = some g) (hg : g.pc = e.state.iaAddr) (hia : e'.state.iaAddr = e.state.iaAddr) :
    e'.state.fetchedAlready = some g := by
  refine fetchedAlready_eq_some.mpr ⟨?_, by rw [hia, hg]⟩
  rw [(executeCycle_frame he').fetchSame.hold]
  exact hf

/-- The remembered accesses are only added to (R75, R84). -/
theorem performFlagged_accesses {n : Nat} {dx : DecodeExecute} {u : State} {v : Word}
    (h : performFlagged n dx s = .next (u, v)) {x : DataAccess} (hx : x ∈ s.accesses) : x ∈ u.accesses := by
  have recorded (a : Word) (w : Bool) : x ∈ (s.recordAccess a w).accesses := by
    rw [recordAccess_accesses]
    split
    · exact List.mem_cons_of_mem _ hx
    · exact hx
  cases performFlagged_cases h with
  | store _ _ _ hu _ => rw [hu]; exact recorded _ _
  | load _ _ _ hu _ => rw [hu]; exact recorded _ _
  | event _ _ dma hu => rw [hu]; exact hx
  | quiet _ _ hu => rw [hu]; exact hx

/-- An address that was stored to stays so. -/
theorem storedTo_of_executeCycle (h : executeCycle inp s = .next e) {a : Word} (hs : s.storedTo a = true) :
    e.state.storedTo a = true := by
  have hacc : ∀ x ∈ s.accesses, x ∈ e.state.accesses := by
    cases executeCycle_cases h with
    | empty hr he => rw [he]; exact fun _ hx => hx
    | finished v hr hd he => rw [he]; exact fun _ hx => hx
    | barred hr hd hb he => rw [he]; exact fun _ hx => hx
    | waits acc hr hd hb ha hw he => rw [he]; exact fun _ hx => hx
    | performed acc u v hr hd hb ha hack hm hp he => rw [he]; exact fun x => performFlagged_accesses hp
  simp only [State.storedTo, Bool.and_eq_true, List.any_eq_true, executeCycle_cfg h] at hs ⊢
  obtain ⟨hshared, x, hx, hax⟩ := hs
  exact ⟨hshared, x, hacc x hx, hax⟩

/-- A fetch that answers in a later cycle of a stall answers the same in every earlier one (R57, R84). -/
theorem fetchWord_of_later (he' : executeCycle inp' (e.state.held f) = .next e') {a w : Word}
    (h : e'.state.fetchWord a = .next w) : e.state.fetchWord a = .next w := by
  have hs := (executeCycle_frame he').fetchSame
  obtain ⟨hst, hmem⟩ := fetchWord_eq_next.mp h
  rw [hs.imem, hs.cfg] at hmem
  refine fetchWord_eq_next.mpr ⟨?_, hmem⟩
  by_contra hn
  have hst' : e.state.storedTo a = true := by simpa using hn
  have hheld : (e.state.held f).storedTo a = true := hst'
  simp [storedTo_of_executeCycle he' hheld] at hst

/-- What a fetch brought in an earlier cycle of the stall is what the fetch stage has, while the same address is on IA
and the run's end is not reached there (R55). -/
theorem fetchCycle_keeps_held (he' : executeCycle inp' (e.state.held f) = .next e')
    (hf' : fetchCycle inp' e'.state = .next f') {g : FetchedWord} (hg : e.state.fetchBrings = .next g)
    (hmade : e'.state.fetchedAlready = some g) (hia : e'.state.iaAddr = e.state.iaAddr)
    (hends : e'.state.fetchEnds = false) : f' = some g := by
  rcases fetchBrings_cases hg with ⟨w, hw, rfl⟩ | ⟨-, hno, rfl⟩
  · rw [← hia] at hmade ⊢
    exact fetchCycle_of_held_word hf' hmade hends
  · rcases fetchCycle_cases hf' with ⟨hn, -⟩ | ⟨-, hn, -⟩ | ⟨-, -, ⟨v, hv, -⟩ | ⟨-, g', hg', rfl⟩⟩
    · simp [hends] at hn
    · simp [(not_enabled_of_fetchedAlready hmade).2] at hn
    · simp [hmade] at hv
    · rcases fetchBrings_cases hg' with ⟨w, hw, rfl⟩ | ⟨-, -, rfl⟩
      · rw [hia] at hw
        exact absurd (fetchWord_of_later he' hw) (hno w)
      · rw [hia]

end Cycle

/-! ### The three clauses of FetchHeldThroughStall -/

/-- A word held from the address on IA is shown, kept by a stall, and taken by FD (R54, R55). -/
theorem cycle_of_held_word {inp : Inputs} {s t : State} {sig : Signals} {w : Word}
    (hend : s.cfg.endPc ≠ some sig.iaAddr ∨ BranchWaits s sig)
    (hhold : s.sig.fetchHold = some ⟨sig.iaAddr, some w⟩) (h : cycle inp s = .next (t, sig)) :
    sig.ir = false ∧ sig.fStall = false ∧ sig.sr1Nc = some (sr1Of s.cfg.enc w) ∧
      sig.sr2Nc = some (sr2Of s.cfg.enc w) ∧
      (sig.pStall = true → t.sig.fetchHold = s.sig.fetchHold) ∧
      (sig.pStall = false → t.fd = fetched s.cfg.enc sig.iaAddr w) := by
  obtain ⟨e, f, he, hf, rfl, ht⟩ := cycle_next_inv h
  have hs := (executeCycle_frame he).fetchSame
  rw [← awaitsBranch_iff he] at hend
  have hends : e.state.fetchEnds = false := fetchEnds_eq_false.mpr (by rw [hs.cfg]; exact hend)
  have hmade : e.state.fetchedAlready = some ⟨e.state.iaAddr, some w⟩ :=
    fetchedAlready_eq_some.mpr ⟨by rw [hs.hold]; exact hhold, rfl⟩
  have hf' := fetchCycle_of_held_word hf hmade hends
  subst hf'
  obtain ⟨hir, hfs⟩ := not_enabled_of_fetchedAlready (inp := inp) hmade
  refine ⟨hir, hfs, rfl, rfl, fun hp => ?_, fun hp => ?_⟩
  · obtain ⟨e', f', he', hf', -, rfl, hsig⟩ := cycle_stall_inv h hp
    obtain rfl : e = e' := by simpa [he] using he'
    obtain rfl : _ = f' := by simpa [hf] using hf'
    exact hhold.symm
  · obtain ⟨e', f', dx, he', hf', -, -, -, rfl, hsig⟩ := cycle_tick_inv h hp
    obtain rfl : e = e' := by simpa [he] using he'
    obtain rfl : _ = f' := by simpa [hf] using hf'
    rw [State.ticked_fd_fetched, hs.cfg]; rfl

/-- From a stalled cycle to the next the address on IA stays, or moves to the target of the control transfer that the
execute stage's result was waited for (R53, R177, R244). -/
theorem iaAddr_after_stall {inp inp' : Inputs} {s t u : State} {sig sig' : Signals}
    (h : cycle inp s = .next (t, sig)) (hp : sig.pStall = true) (h' : cycle inp' t = .next (u, sig')) :
    (¬BranchWaits s sig ∨ BranchWaits t sig' → sig'.iaAddr = sig.iaAddr ∧ sig'.ia = sig.ia) ∧
    (BranchWaits t sig' → BranchWaits s sig) ∧
    (sig'.iaAddr ≠ sig.iaAddr → BranchWaits s sig ∧ ¬BranchWaits t sig' ∧
      ∃ i rr, decode s.cfg.enc s.fd.word = .ok i ∧
        ({ t with xn := sig'.forward } : State).readSources i.fields = .next rr ∧
        branchUnitFn s.cfg.fns s.fd.word rr.1 rr.2 s.fd.pc = (true, sig'.iaAddr)) := by
  obtain ⟨e, f, he, -, -, rfl, rfl⟩ := cycle_stall_inv h hp
  obtain ⟨e', f', he', -, rfl, -⟩ := cycle_next_inv h'
  have hs := (executeCycle_frame he).fetchSame
  have hs' := (executeCycle_frame he').fetchSame
  rw [← awaitsBranch_iff he, ← awaitsBranch_iff he', Bool.not_eq_true, Bool.not_eq_true]
  have stays (ha : e.state.awaitsBranch = false ∨ e'.state.awaitsBranch = true) :
      e'.state.iaAddr = e.state.iaAddr := iaAddr_held he he' ha
  refine ⟨fun ha => ⟨stays ha, ?_⟩, awaitsBranch_of_held he he', fun hne => ?_⟩
  · show busAddr (e.state.held f).cfg.variant e'.state.iaAddr = busAddr s.cfg.variant e.state.iaAddr
    rw [stays ha, State.held_cfg, hs.cfg]
  · have ha : e.state.awaitsBranch = true := by
      by_contra hn
      exact hne (stays (.inl (by simpa using hn)))
    have ha' : e'.state.awaitsBranch = false := by
      by_contra hn
      exact hne (stays (.inr (by simpa using hn)))
    have hdelay : e'.state.cfg.delaySlot = false := by
      rw [hs'.cfg, State.held_cfg]
      simp only [State.awaitsBranch, Bool.and_eq_true, Bool.not_eq_true'] at ha
      exact ha.1.1.1
    have htarget : e'.state.branchTarget = some e'.state.iaAddr := by
      have hne' : e'.state.iaAddr ≠ e'.state.fetchAddr := by
        rw [hs'.addr, State.held_fetchAddr, ← iaAddr_of_awaitsBranch ha]
        exact hne
      have hia : e'.state.iaAddr = e'.state.branchTarget.getD e'.state.fetchAddr := by
        simp [State.iaAddr, State.branchesTo, hdelay, ha']
      cases hb : e'.state.branchTarget with
      | none =>
        rw [hb] at hia
        exact absurd hia hne'
      | some a =>
        rw [hb] at hia
        rw [hia]; rfl
    obtain ⟨hr, i, hi, x, hx, hxt⟩ := branchTarget_eq_some.mp htarget
    have hi : decode e'.state.cfg.enc e'.state.fd.word = .ok i := decodeWord_eq_next_iff.mp hi
    obtain ⟨rr, hread, hxt'⟩ := issueInstr_target hx
      ((decodesTransfer_eq_true hr hi).mp (transfer_of_branchTarget htarget))
    rw [readSources_of_executeCycle he'] at hread
    have hword : i.fields.word = e'.state.fd.word := (decode_eq_ok_iff_wf.mp hi).2
    have hcfg : e'.state.cfg = s.cfg := hs'.cfg.trans hs.cfg
    have hfd : e'.state.fd = s.fd := hs'.fd.trans hs.fd
    rw [hxt, hword] at hxt'
    rw [hcfg, hfd] at hi hxt'
    refine ⟨ha, ha', i, rr, hi, hread, ?_⟩
    generalize hb : branchUnitFn s.cfg.fns s.fd.word rr.1 rr.2 s.fd.pc = b at hxt'
    obtain ⟨taken, target⟩ := b
    cases taken
    · cases hxt'
    · simp only [if_true, Option.some.injEq] at hxt'
      show (true, target) = (true, e'.state.iaAddr)
      rw [hxt']

/-- A fetch completed in a stalled cycle is held, and FD takes it as the stall ends (R54, R55). -/
theorem fetch_after_stall {inp inp' : Inputs} {s t u : State} {sig sig' : Signals}
    (h : cycle inp s = .next (t, sig)) (hp : sig.pStall = true) (hir : sig.ir = true) (hack : inp.insack = true)
    (h' : cycle inp' t = .next (u, sig')) (hwaits : ¬BranchWaits s sig) :
    sig'.ir = false ∧ sig'.fStall = false ∧ sig'.ia = sig.ia ∧ sig'.iaAddr = sig.iaAddr ∧
      sig'.sr1Nc = sig.sr1Nc ∧ sig'.sr2Nc = sig.sr2Nc ∧
      t.sig.fetchHold = some ⟨sig.iaAddr, some sig.ib⟩ ∧
      (sig'.pStall = true → u.sig.fetchHold = t.sig.fetchHold) ∧
      (sig'.pStall = false → u.fd = fetched s.cfg.enc sig.iaAddr sig.ib) := by
  obtain ⟨hia, hia'⟩ := (iaAddr_after_stall h hp h').1 (.inl hwaits)
  have hcfg := cycle_cfg h
  have hib : t.sig.fetchHold = some ⟨sig.iaAddr, some sig.ib⟩ ∧ sig.sr1Nc = some (sr1Of s.cfg.enc sig.ib) ∧
      sig.sr2Nc = some (sr2Of s.cfg.enc sig.ib) ∧ s.cfg.endPc ≠ some sig.iaAddr := by
    obtain ⟨e, f, he, hf, -, rfl, rfl⟩ := cycle_stall_inv h hp
    rw [← awaitsBranch_iff he] at hwaits
    have hends := (fetchEnabled_eq_true.mp hir).1
    obtain ⟨g, hg, rfl⟩ := fetchBrings_of_acknowledged hf hir hack
    rcases fetchBrings_cases hg with ⟨w, hw, rfl⟩ | ⟨ha, -⟩
    · have hib : (signalsOf inp s e (some ⟨e.state.iaAddr, some w⟩)).ib = w := by
        have henabled : e.state.fetchEnabled = true := hir
        simp [signalsOf, henabled, hack]
      rw [hib]
      refine ⟨rfl, rfl, rfl, ?_⟩
      have := (fetchEnds_eq_false.mp hends).resolve_right hwaits
      rwa [executeCycle_cfg he] at this
    · exact absurd ha hwaits
  obtain ⟨hhold, hsr1, hsr2, hend⟩ := hib
  obtain ⟨hir', hfs', hsr1', hsr2', hstall, htick⟩ := cycle_of_held_word (w := sig.ib)
    (.inl (by rw [hcfg, hia]; exact hend)) (by rw [hia]; exact hhold) h'
  rw [hcfg, hia] at htick
  rw [hcfg] at hsr1' hsr2'
  exact ⟨hir', hfs', hia', hia, hsr1'.trans hsr1.symm, hsr2'.trans hsr2.symm, hhold, hstall, htick⟩

/-- The same while a control transfer's outcome is waited for: what the fetch brought is kept, and FD takes the
instruction if the transfer is not taken (R55, R244). -/
theorem fetch_after_waiting_stall {inp inp' : Inputs} {s t u : State} {sig sig' : Signals}
    (h : cycle inp s = .next (t, sig)) (hp : sig.pStall = true) (hir : sig.ir = true) (hack : inp.insack = true)
    (h' : cycle inp' t = .next (u, sig')) (hia : sig'.iaAddr = sig.iaAddr) :
    sig'.ir = false ∧ sig'.fStall = false ∧ sig'.ia = sig.ia ∧
      (BranchWaits t sig' → u.sig.fetchHold = t.sig.fetchHold) ∧
      (sig'.pStall = false → s.cfg.endPc ≠ some sig.iaAddr → u.fd = fetched s.cfg.enc sig.iaAddr sig.ib) := by
  obtain ⟨e, f, he, hf, -, rfl, rfl⟩ := cycle_stall_inv h hp
  have henabled : e.state.fetchEnabled = true := hir
  have hcfg : e.state.cfg = s.cfg := executeCycle_cfg he
  obtain ⟨g, hg, rfl⟩ := fetchBrings_of_acknowledged hf henabled hack
  obtain ⟨e', f', he', hf', rfl, hu⟩ := cycle_next_inv h'
  have hcfg' : e'.state.cfg = s.cfg := (executeCycle_cfg he').trans hcfg
  have hsame : e'.state.iaAddr = e.state.iaAddr := hia
  have hmade := fetchedAlready_of_held he' rfl (fetchCycle_pc hf) hsame
  have kept (hends : e'.state.fetchEnds = false) : f' = some g :=
    fetchCycle_keeps_held he' hf' hg hmade hsame hends
  obtain ⟨hir', hfs'⟩ := not_enabled_of_fetchedAlready (inp := inp') hmade
  refine ⟨hir', hfs', ?_, fun hwaits' => ?_, fun hp' hend => ?_⟩
  · show busAddr (e.state.held _).cfg.variant e'.state.iaAddr = busAddr s.cfg.variant e.state.iaAddr
    rw [hsame, State.held_cfg, hcfg]
  · have ha' := (awaitsBranch_iff (f := f') he').mpr hwaits'
    rcases hu with ⟨-, rfl⟩ | ⟨hn, -⟩
    · rw [kept (fetchEnds_eq_false.mpr (.inr ha'))]; rfl
    · rw [Bool.or_eq_false_iff] at hn
      simp [awaitsBranch_of_hasResult (hasResult_of_executeCycle he' hn.2 hn.1)] at ha'
  · have hends : e'.state.fetchEnds = false := fetchEnds_eq_false.mpr (.inl (by rwa [hcfg', hsame]))
    obtain rfl := kept hends
    rcases hu with ⟨hn, -⟩ | ⟨hn, dx', -, rfl⟩
    · have hp' : (e'.state.fetchStalls inp' || e'.stall) = false := hp'
      simp [hn] at hp'
    · rw [Bool.or_eq_false_iff] at hn
      rcases fetchCycle_of_tick he' hf' hn.1 hn.2 with ⟨-, hnone⟩ | ⟨-, w, hw, -⟩
      · cases hnone
      · cases hw
        have hib : (signalsOf inp s e (some ⟨e'.state.iaAddr, some w⟩)).ib = w := by
          simp [signalsOf, henabled, hack]
        rw [hib, State.ticked_fd_fetched, hcfg', hsame]; rfl

/-- Settles O40: a completed fetch through the next cycle of the stall, the address on IA, and a word held. -/
theorem fetchHeldThroughStall : Obligations.FetchHeldThroughStall :=
  ⟨fun _ _ _ _ _ _ _ h hp hir hack h' => ⟨fetch_after_stall h hp hir hack h',
      fun _ hia => fetch_after_waiting_stall h hp hir hack h' hia⟩,
    fun _ _ _ _ _ _ _ h hp h' => iaAddr_after_stall h hp h',
    fun _ _ _ _ _ hend hhold h => cycle_of_held_word hend hhold h⟩

end Sys2Proof.Machine
end

