-- ==== Sys2Proof/Proofs/Refinement.lean ====
section
/-! PROOFS. The signal view refines the sequential view: a stalled cycle changes nothing the sequential view sees, an
advance is one step of it, and whole runs agree (R177, R307). -/

namespace Sys2Proof.Machine

/-! ### What the two views share -/

/-- Making WD's write changes nothing that is shared (R179). -/
theorem shared_landed (s : State) : s.landed.shared = s.shared := by
  show ({ s.landed.landed with fd := _, dx := _, xn := _, xw := _, wd := _, wdOld := _, sig := _ } : State) = _
  rw [State.landed_landed]; rfl

/-- The execute stage's work does not look at the stages' own state. -/
theorem performFlagged_withSig (n : Nat) (dx : DecodeExecute) (s : State) (g : StageState) :
    performFlagged n dx { s with sig := g } =
      andThen (performFlagged n dx s) fun r => .next ({ r.1 with sig := g }, r.2) := by
  rw [performFlagged_congr (s := s) (t := { s with sig := g }) rfl rfl rfl rfl rfl]
  cases h : performFlagged n dx s with
  | fault => rfl
  | refused => rfl
  | next r =>
    obtain ⟨u, v⟩ := r
    simp only [andThen_next]
    rw [performFlagged_frame h]

/-! ### A stalled cycle -/

/-- An instruction that waits settles alike whatever the forwarding path and the stages hold, and whether or not WD's
write was made. -/
theorem sharedOutcome_settle_waiting {s : State} (hr : s.dx.ready = true) (hd : s.sig.execDone = none)
    (n : Forward) {g : StageState} (hg : g.execDone = none) :
    sharedOutcome ({ s.landed with xn := n, sig := g } : State).settle = sharedOutcome s.settle := by
  rw [settle_waiting (s := s) hr hd, settle_waiting (s := { s.landed with xn := n, sig := g }) hr hg]
  rw [performFlagged_congr (s := s) (t := { s.landed with xn := n, sig := g }) rfl rfl rfl rfl rfl]
  have hdraws : ({ s.landed with xn := n, sig := g } : State).draws = s.draws := rfl
  have hdx : ({ s.landed with xn := n, sig := g } : State).dx = s.dx := rfl
  rw [hdraws, hdx]
  cases h : performFlagged (s.draws - 1) s.dx s with
  | fault => rfl
  | refused => rfl
  | next r =>
    obtain ⟨u, v⟩ := r
    simp only [andThen_next, sharedOutcome]
    congr 1
    rw [performFlagged_frame h]
    exact shared_landed ({ s with
      dmem := u.dmem, events := u.events, dmaIssued := u.dmaIssued, accesses := u.accesses }.withResult s.dx v)

/-- What an instruction performed in a cycle leaves is what its state settles to, but for the stages' own state. -/
theorem settle_of_performed {s u : State} {v : Word} {g : StageState} (hr : s.dx.ready = true)
    (hd : s.sig.execDone = none) (hp : performFlagged (s.draws - 1) s.dx { s with sig := g } = .next (u, v)) :
    s.settle = .next { u.withResult s.dx v with sig := s.sig } := by
  rw [settle_waiting hr hd]
  rw [performFlagged_withSig] at hp
  obtain ⟨⟨u', v'⟩, hp', h⟩ := andThen_eq_next.mp hp
  cases h
  rw [hp', andThen_next]
  congr 1
  rw [performFlagged_frame hp']
  rfl

section Cycle
variable {inp : Inputs} {s : State} {e : ExecuteCycle} {f : Option FetchedWord}

/-- Whatever the execute stage did in a stalled cycle, the state settles alike before and after it. -/
theorem sharedOutcome_settle_held (he : executeCycle inp s = .next e) (f : Option FetchedWord) :
    sharedOutcome (e.state.held f).settle = sharedOutcome s.settle := by
  cases executeCycle_cases he with
  | empty hr he =>
    rw [he, settle_empty hr, settle_empty (s := s.withoutResult.held f) hr]
    exact congrArg Host.Outcome.next (shared_landed s.withoutResult)
  | finished v hr hd he =>
    rw [he, settle_finished hr hd, settle_finished (s := (s.withResult s.dx v).held f) hr hd]
    exact congrArg Host.Outcome.next (shared_landed (s.withResult s.dx v))
  | barred hr hd hb he =>
    rw [he]
    exact sharedOutcome_settle_waiting hr hd _ (g := { s.sig with fetchHold := f }) hd
  | waits acc hr hd hb ha hw he =>
    rw [he]
    exact sharedOutcome_settle_waiting hr hd _
      (g := { s.sig with begun := true, cache := acc.cache, transfer := acc.transfer, fetchHold := f }) hd
  | performed acc u v hr hd hb ha hack hm hp he =>
    have hdx : u.dx = s.dx := by rw [performFlagged_frame hp]
    subst he
    rw [settle_of_performed hr hd hp, settle_finished (by simpa [hdx] using hr) rfl]
    refine Eq.trans ?_ (congrArg Host.Outcome.next (shared_landed (u.withResult s.dx v)))
    refine congrArg Host.Outcome.next ?_
    rw [performFlagged_frame hp]
    rfl

/-- In a tick of sCLOCK the execute stage leaves what the state settles to, but for the stages' own state. -/
theorem settle_of_tick (he : executeCycle inp s = .next e) (hfs : e.state.fetchStalls inp = false)
    (hes : e.stall = false) :
    ∃ u g, s.settle = .next u ∧ u.fd = s.fd ∧ u.dx = s.dx ∧ e.state = { u with sig := g } := by
  have hs := (executeCycle_frame he).fetchSame
  cases executeCycle_cases he with
  | empty hr he => exact ⟨_, s.sig, settle_empty hr, rfl, rfl, by rw [he]; rfl⟩
  | finished v hr hd he => exact ⟨_, s.sig, settle_finished hr hd, rfl, rfl, by rw [he]; rfl⟩
  | barred hr hd hb _ => simp [(fetchStalls_of_barred he hr hd hb).2] at hfs
  | waits acc hr hd hb ha hw he => simp [he] at hes
  | performed acc u v hr hd hb ha hack hm hp he =>
    refine ⟨_, { u.sig with execDone := some v }, settle_of_performed hr hd hp, ?_, ?_, by rw [he]⟩
    · rw [performFlagged_frame hp]; rfl
    · rw [performFlagged_frame hp]; rfl

end Cycle

/-- An outcome that shares with a next state is a next state that shares. -/
theorem next_of_sharedOutcome {o : Host.Outcome State Fault Refusal} {v : State}
    (h : sharedOutcome o = sharedOutcome (.next v)) : ∃ w, o = .next w ∧ w.shared = v.shared := by
  cases o with
  | next w => exact ⟨w, rfl, Host.Outcome.next.inj h⟩
  | fault r => cases h
  | refused r => cases h

/-- Settles O47: the state settles alike before and after, and registers, reads and steps look at what is shared. -/
theorem stallChangesNothing : Obligations.StallChangesNothing := by
  intro inp s t u sig h hp hu
  obtain ⟨e, f, he, -, -, rfl, -⟩ := cycle_stall_inv h hp
  have hsame := sharedOutcome_settle_held he f
  rw [hu] at hsame
  obtain ⟨v, hv, hvu⟩ := next_of_sharedOutcome hsame
  refine ⟨v, hv, hvu, fun r => ?_, fun p r => ?_, step_of_shared hvu⟩
  · rw [← reg_shared, hvu, reg_shared]
  · rw [← readReg_shared, hvu, readReg_shared]

/-! ### An advance -/

/-- A step of a state whose instruction is placed, decoded and issued: the execute stage's work, and the pipeline
moves. -/
theorem sharedOutcome_step {u : State} {w : Word} {i : Instr} {x : DecodeExecute}
    (hw : u.fetchWord u.pc = .next w) (hi : u.decodeWord w = .next i) (hx : issueInstr i u = .next x) :
    sharedOutcome (step u) = sharedOutcome (andThen (performFlagged u.draws x u) fun r => .next (r.1.retire x r.2)) := by
  have hissue : issueInstr i (u.loadFd w) = .next x := by
    rw [← hx, ← issueInstr_shared i (u.loadFd w), ← issueInstr_shared i u]
    rfl
  rw [step, hw, andThen_next, hi, andThen_next, exec_eq_stages, throughStages, hissue, andThen_next,
    performFlagged_congr (s := u) (t := u.loadFd w) rfl rfl rfl rfl rfl]
  have hdraws : (u.loadFd w).draws = u.draws := rfl
  rw [hdraws]
  cases h : performFlagged u.draws x u with
  | fault => rfl
  | refused => rfl
  | next r =>
    obtain ⟨u', v⟩ := r
    simp only [andThen_next, sharedOutcome]
    congr 1
    rw [performFlagged_frame h]
    rfl

/-- The state after an advance settles to what the sequential view makes of the instruction that was in FD. -/
theorem sharedOutcome_settle_ticked {u : State} {g : StageState} {x : DecodeExecute} {f : Option FetchedWord}
    (hr : x.ready = true) (hpc : u.fd.pc = u.pc) :
    sharedOutcome (({ u with sig := g } : State).ticked (some x) f).settle =
      sharedOutcome (andThen (performFlagged u.draws x u) fun r => .next (r.1.retire x r.2)) := by
  rw [settle_waiting (by simpa using hr) rfl,
    performFlagged_congr (s := u) (t := ({ u with sig := g } : State).ticked (some x) f) rfl rfl rfl rfl rfl]
  have hdx : (({ u with sig := g } : State).ticked (some x) f).dx = x := rfl
  have hdraws : (({ u with sig := g } : State).ticked (some x) f).draws - 1 = u.draws := rfl
  rw [hdx, hdraws]
  cases h : performFlagged u.draws x u with
  | fault => rfl
  | refused => rfl
  | next r =>
    obtain ⟨u', v⟩ := r
    simp only [andThen_next, sharedOutcome]
    congr 1
    rw [performFlagged_frame h]
    simp only [State.ticked, hpc]
    rfl

/-- An instruction that writes no register leaves every register as it was. -/
theorem reg_retire_of_not_writing (u : State) {x : DecodeExecute} (hx : x.ready = true) (hw : x.drWreq = false)
    (v : Word) (r : RegId) : (u.retire x v).reg r = u.reg r := by
  have hnot : ¬(x.drWreq = true ∧ x.dr = r) := by simp [hw]
  rw [reg_retire u x v hx r, if_neg hnot]
  split
  · next hz => simp [State.reg, hz]
  · rfl

/-- Behind an empty slot the registers are as before, as behind an instruction that writes none. -/
theorem reg_of_empty_slot {u v : State} (hc : v.cfg = u.cfg) (hrf : v.rf = u.writeBack) (hdx : v.dx.ready = false)
    (hxw : v.xw = ⟨u.xn.data, u.xn.dr, u.dx.ready && u.xn.drWreq, u.dx.ready⟩)
    (hwd : v.wd = ⟨u.xw.data, u.xw.dr, u.xw.ready && u.xw.drWreq⟩) (r : RegId) : v.reg r = u.reg r := by
  rw [← reg_retire_of_not_writing u (x := { DecodeExecute.empty with ready := true }) rfl rfl 0 r]
  have hrf' : v.rfRead r = (u.retire { DecodeExecute.empty with ready := true } 0).rfRead r :=
    (rfRead_writeBack u v hc hrf r).trans (rfRead_writeBack u (u.retire _ 0) rfl rfl r).symm
  unfold State.reg
  rw [hrf']
  simp [State.pendingWrites, hc, hdx, hxw, hwd, DecodeExecute.empty]

/-- Settles O46: the instruction in FD is the one a step from the settled state fetches; an empty slot moves the
pipeline alone. -/
theorem tickIsStep : Obligations.TickIsStep := by
  intro inp s t sig hs h hp
  obtain ⟨e, f, dx, he, -, hdx, hfs, hes, rfl, rfl⟩ := cycle_tick_inv h hp
  obtain ⟨u, g, hu, hfd, hudx, hstate⟩ := settle_of_tick he hfs hes
  have hframe := executeCycle_frame he
  have hpc : u.pc = s.pc := by
    have : e.state.pc = s.pc := by rw [hframe]
    rw [← this, hstate]
  have hcfg : u.cfg = s.cfg := by rw [← hframe.fetchSame.cfg, hstate]
  have himem : u.imem = s.imem := by rw [← hframe.fetchSame.imem, hstate]
  rw [hstate] at hdx ⊢
  refine ⟨u, hu, fun hr => ?_, fun hr => ?_⟩
  · obtain ⟨hfdpc, hplaced⟩ := hs.1 hr
    have hupc : u.fd.pc = u.pc := by rw [hfd, hfdpc, hpc]
    rcases decodeCycle_cases hdx with ⟨hn, -⟩ | ⟨-, hst, i, x, hi, hx, rfl⟩
    · have hn : u.fd.ready = false := hn
      simp [hfd, hr] at hn
    · have hst : u.storedTo u.fd.pc = false := hst
      have hw : u.fetchWord u.pc = .next u.fd.word := by
        refine fetchWord_eq_next.mpr ⟨by rw [← hupc]; exact hst, ?_⟩
        rw [himem, hcfg, hpc, hfd, hplaced]
      have hsame : ({ ({ u with sig := g } : State) with pc := u.fd.pc } : State).shared = u.shared := by
        rw [hupc]; rfl
      have hx' : issueInstr i u = .next x := by
        rw [← hx, ← issueInstr_shared i u, ← hsame]
        exact issueInstr_shared i _
      rw [sharedOutcome_step hw hi hx', sharedOutcome_settle_ticked (issuedAs_of_next hx').ready hupc]
  · have hdx' : dx = none := by
      rcases decodeCycle_cases hdx with ⟨-, hn⟩ | ⟨hn, -⟩
      · exact hn
      · have hn : u.fd.ready = true := hn
        simp [hfd, hr] at hn
    subst hdx'
    refine ⟨(({ u with sig := g } : State).ticked none f).withoutResult, settle_empty rfl, fun r => ?_,
      pipelineAfter_of_advance rfl rfl rfl rfl rfl rfl, rfl, rfl, rfl, rfl, rfl, rfl, rfl, rfl, rfl, rfl⟩
    exact reg_of_empty_slot (u := u) (v := (({ u with sig := g } : State).ticked none f).withoutResult)
      rfl rfl rfl rfl rfl r

end Sys2Proof.Machine
end

