-- ==== Sys2Proof/Proofs/Runs.lean ====
section
/-! PROOFS. Whole runs of the two views agree, from any launch (R38, R39, R307). -/

namespace Sys2Proof.Machine

/-! ### Runs of the sequential view -/

/-- One instruction more at the end of a run, unless it has ended (R39). -/
theorem runToEnd_succ (k : Nat) (s : State) : runToEnd (k + 1) s =
    andThen (runToEnd k s) fun w => if w.atEnd then .next w else step w := by
  induction k generalizing s with
  | zero =>
    simp only [runToEnd, andThen_next]
    split
    · rfl
    · cases step s <;> rfl
  | succ k ih =>
    rw [runToEnd, runToEnd]
    split
    · next hend => simp [hend]
    · rw [andThen_assoc]
      exact congrArg (andThen (step s)) (funext fun u => ih u)

/-- The sequential view's run from l comes to w, in some number of instructions. -/
def Reaches (l w : State) : Prop := ∃ k, runToEnd k l = .next w

theorem Reaches.refl (l : State) : Reaches l l := ⟨0, rfl⟩

theorem Reaches.step {l w u : State} (h : Reaches l w) (hend : w.atEnd = false) (hs : step w = .next u) :
    Reaches l u := by
  obtain ⟨k, hk⟩ := h
  exact ⟨k + 1, by rw [runToEnd_succ, hk, andThen_next, hend, if_neg Bool.false_ne_true, hs]⟩

/-- What the two views of a run are compared by. -/
structure SameView (v w : State) : Prop where
  cfg : v.cfg = w.cfg
  reg : ∀ r, v.reg r = w.reg r
  dmem : v.dmem = w.dmem
  events : v.events = w.events
  pc : v.pc = w.pc
  npc : v.npc = w.npc

theorem SameView.of_shared {v w : State} (h : v.shared = w.shared) : SameView v w where
  cfg := show v.shared.cfg = w.shared.cfg by rw [h]
  reg r := by rw [← reg_shared, h, reg_shared]
  dmem := show v.shared.dmem = w.shared.dmem by rw [h]
  events := show v.shared.events = w.shared.events by rw [h]
  pc := show v.shared.pc = w.shared.pc by rw [h]
  npc := show v.shared.npc = w.shared.npc by rw [h]

theorem SameView.trans {u v w : State} (h : SameView u v) (h' : SameView v w) : SameView u w where
  cfg := h.cfg.trans h'.cfg
  reg r := (h.reg r).trans (h'.reg r)
  dmem := h.dmem.trans h'.dmem
  events := h.events.trans h'.events
  pc := h.pc.trans h'.pc
  npc := h.npc.trans h'.npc

theorem SameView.atEnd {v w : State} (h : SameView v w) : w.atEnd = v.atEnd := by
  simp only [State.atEnd, h.cfg, h.pc]

/-! ### What a cycle keeps of the two views' agreement -/

/-- The run goes on: FD holds an instruction, or nothing is in flight, as after a launch; and the state settles to one
that shares everything with a state of the sequential view's run. -/
def Follows (l s : State) : Prop :=
  (s.fd.ready = true ∨ s.drained = true) ∧
    ∀ v, s.settle = .next v → ∃ w, Reaches l w ∧ w.shared = v.shared

/-- The pipeline empties at END_PC, where the sequential view's run has ended (R39). -/
def Drains (l s : State) : Prop :=
  s.fd.ready = false ∧ s.atEnd = true ∧ ∀ v, s.settle = .next v → ∃ w, Reaches l w ∧ SameView v w

/-- What holds of every state of the signal view's run from l. -/
structure RunInvariant (l s : State) : Prop where
  inStep : s.FetchInStep
  notAtEnd : s.fd.ready = true → s.atEnd = false
  agrees : Follows l s ∨ Drains l s

/-- Settling finishes the instruction in execute: the parameters and program counters stay. -/
theorem settle_pc {s v : State} (h : s.settle = .next v) : v.cfg = s.cfg ∧ v.pc = s.pc := by
  by_cases hr : s.dx.ready = true
  · cases hd : s.sig.execDone with
    | some x =>
      rw [settle_finished hr hd] at h
      cases h
      exact ⟨rfl, rfl⟩
    | none =>
      rw [settle_waiting hr hd] at h
      obtain ⟨⟨u, x⟩, hu, h⟩ := andThen_eq_next.mp h
      cases h
      rw [performFlagged_frame hu]
      exact ⟨rfl, rfl⟩
  · rw [settle_empty (by simpa using hr)] at h
    cases h
    exact ⟨rfl, rfl⟩

theorem settle_atEnd {s v : State} (h : s.settle = .next v) : v.atEnd = s.atEnd := by
  simp only [State.atEnd, settle_pc h]

theorem launch_runInvariant (cfg : RunConfig) (resetPc : Word) (imem dmem : Memory) :
    RunInvariant (State.launch cfg resetPc imem dmem) (State.launch cfg resetPc imem dmem) where
  inStep := (launch_invariants cfg resetPc imem dmem).2.2.1
  notAtEnd := (nomatch ·)
  agrees := by
    refine .inl ⟨.inr rfl, fun v hv => ⟨_, .refl _, ?_⟩⟩
    rw [settle_empty rfl] at hv
    cases hv
    rfl

section Cycle
variable {l s t : State} {inp : Inputs} {sig : Signals}

/-- A stalled cycle: the state settles alike before and after it. -/
theorem RunInvariant.of_stall (hs : RunInvariant l s) (h : cycle inp s = .next (t, sig)) (hp : sig.pStall = true) :
    RunInvariant l t := by
  have hstep := cycleKeepsFetchInStep inp s t sig hs.inStep h
  obtain ⟨e, f, he, -, -, rfl, -⟩ := cycle_stall_inv h hp
  have hframe := executeCycle_frame he
  have hend : (e.state.held f).atEnd = s.atEnd := by rw [hframe]; rfl
  have hfd : (e.state.held f).fd = s.fd := hframe.fetchSame.fd
  have hdrained : (e.state.held f).drained = s.drained := by rw [hframe]; rfl
  have settles {v : State} (hv : (e.state.held f).settle = .next v) :
      ∃ u, s.settle = .next u ∧ u.shared = v.shared :=
    next_of_sharedOutcome (by rw [← sharedOutcome_settle_held he f, hv])
  refine ⟨hstep, by rw [hfd, hend]; exact hs.notAtEnd, hs.agrees.imp (fun hf => ?_) fun hd => ?_⟩
  · refine ⟨by rw [hfd, hdrained]; exact hf.1, fun v hv => ?_⟩
    obtain ⟨u, hu, huv⟩ := settles hv
    obtain ⟨w, hw, hwu⟩ := hf.2 u hu
    exact ⟨w, hw, hwu.trans huv⟩
  · refine ⟨by rw [hfd]; exact hd.1, by rw [hend]; exact hd.2.1, fun v hv => ?_⟩
    obtain ⟨u, hu, huv⟩ := settles hv
    obtain ⟨w, hw, hwu⟩ := hd.2.2 u hu
    exact ⟨w, hw, (SameView.of_shared huv.symm).trans hwu⟩

/-- After an advance FD is empty exactly where pc is END_PC (R39). -/
theorem atEnd_of_tick (hs : s.FetchInStep) (h : cycle inp s = .next (t, sig)) (hp : sig.pStall = false) :
    (t.fd.ready = true ∧ t.atEnd = false) ∨ (t.fd.ready = false ∧ t.atEnd = true ∧ s.cfg.endPc = some sig.iaAddr) := by
  have hstep := cycleKeepsFetchInStep inp s t sig hs h
  have hcfg := cycle_cfg h
  obtain ⟨-, -, -, -, -, -, hfetch⟩ := (pipelineClock inp s t sig h).2 hp
  by_cases hend : s.cfg.endPc = some sig.iaAddr
  · rw [if_pos hend] at hfetch
    obtain ⟨hready, haddr⟩ := hfetch
    refine .inr ⟨hready, ?_, hend⟩
    have hpc : t.pc = sig.iaAddr := by
      rw [← fetchAddr_of_empty hstep hready, ← haddr]
      simp [State.fetchAddr, hready]
    simp [State.atEnd, hcfg, hpc, hend]
  · rw [if_neg hend] at hfetch
    obtain ⟨w, hfd, -⟩ := hfetch
    have hready : t.fd.ready = true := by rw [hfd]; rfl
    refine .inl ⟨hready, ?_⟩
    have hpc : t.pc = sig.iaAddr := by
      rw [← (hstep.1 hready).1, hfd]; rfl
    simp [State.atEnd, hcfg, hpc, hend]

/-- Behind an empty slot, with nothing in flight, the state settles to what it settled to before. -/
theorem settle_of_drained_tick (hd : s.drained = true) (h : cycle inp s = .next (t, sig)) (hp : sig.pStall = false) :
    (∃ v, t.settle = .next v ∧ v.shared = s.withoutResult.shared) ∧ (t.fd.ready = false → t.drained = true) := by
  simp only [State.drained, Bool.and_eq_true, Bool.not_eq_true'] at hd
  obtain ⟨⟨⟨hfd, hdx⟩, hxw⟩, hwd⟩ := hd
  obtain ⟨e, f, dx, he, -, hdec, -, -, rfl, -⟩ := cycle_tick_inv h hp
  have hdx' : dx = none := by
    rcases decodeCycle_of_executeCycle he hdec with ⟨-, hn⟩ | ⟨hr, -⟩
    · exact hn
    · simp [hfd] at hr
  have hse : e.state = s.withoutResult := by
    cases executeCycle_cases he with
    | empty _ he => rw [he]
    | finished v hr _ _ => simp [hdx] at hr
    | barred hr _ _ _ => simp [hdx] at hr
    | waits acc hr _ _ _ _ _ => simp [hdx] at hr
    | performed acc u v hr _ _ _ _ _ _ _ => simp [hdx] at hr
  subst hdx'
  rw [hse]
  refine ⟨⟨_, settle_empty rfl, ?_⟩, fun hr => ?_⟩
  · have hwb : s.withoutResult.writeBack = s.rf := writeBack_of_not hwd
    have hmb : s.withoutResult.markBack = s.written := markBack_of_not hwd
    have hland : s.withoutResult.landed = s.withoutResult := landed_of_not hwd
    have hland' : ((s.withoutResult.ticked none f).withoutResult).landed =
        (s.withoutResult.ticked none f).withoutResult := landed_of_not (by simp [hxw])
    unfold State.shared
    rw [hland, hland']
    apply State.ext_fields <;> simp [State.ticked, hwb, hmb, hdx, hxw, hwd, DecodeExecute.empty]
  · simp only [State.drained, hr, State.ticked_dx, State.ticked_xw, State.ticked_wd]
    simp [hdx, hxw, DecodeExecute.empty]

/-- An advance: a step of the sequential view where FD held an instruction; else nothing moves but empty slots. -/
theorem RunInvariant.of_tick (hs : RunInvariant l s) (h : cycle inp s = .next (t, sig)) (hp : sig.pStall = false) :
    RunInvariant l t := by
  have hstep := cycleKeepsFetchInStep inp s t sig hs.inStep h
  have hend := atEnd_of_tick hs.inStep h hp
  obtain ⟨u, hu, hfull, hempty⟩ := tickIsStep inp s t sig hs.inStep h hp
  refine ⟨hstep, fun hr => ?_, ?_⟩
  · rcases hend with ⟨-, hne⟩ | ⟨hn, -⟩
    · exact hne
    · simp [hr] at hn
  cases hr : s.fd.ready
  · obtain ⟨v, hv, hreg, -, -, hcfg, hpc, hnpc, -, hdmem, hevents, -⟩ := hempty hr
    rcases hs.agrees with ⟨hor, hf⟩ | ⟨-, hatEnd, hd⟩
    · have hdrained := hor.resolve_left (by simp [hr])
      obtain ⟨⟨v', hv', hshared⟩, hdrains⟩ := settle_of_drained_tick hdrained h hp
      have hdx : s.dx.ready = false := by
        simp only [State.drained, Bool.and_eq_true, Bool.not_eq_true'] at hdrained
        exact hdrained.1.1.2
      refine .inl ⟨?_, fun x hx => ?_⟩
      · cases hr' : t.fd.ready
        · exact .inr (hdrains hr')
        · exact .inl rfl
      · obtain ⟨w, hw, hwu⟩ := hf _ (settle_empty hdx)
        cases hv'.symm.trans hx
        exact ⟨w, hw, hwu.trans hshared.symm⟩
    · have hempty' : t.fd.ready = false ∧ t.atEnd = true := by
        rcases hend with ⟨-, hne⟩ | ⟨hn, hatEnd', -⟩
        · have : v.atEnd = s.atEnd := by
            simp only [State.atEnd, hcfg, hpc, settle_pc hu]
          rw [settle_atEnd hv, hne, hatEnd] at this
          cases this
        · exact ⟨hn, hatEnd'⟩
      refine .inr ⟨hempty'.1, hempty'.2, fun x hx => ?_⟩
      cases hv.symm.trans hx
      obtain ⟨w, hw, huw⟩ := hd u hu
      exact ⟨w, hw, SameView.trans ⟨hcfg, hreg, hdmem, hevents, hpc, hnpc⟩ huw⟩
  · have hf : Follows l s := by
      rcases hs.agrees with hf | ⟨hn, -⟩
      · exact hf
      · simp [hr] at hn
    obtain ⟨w, hw, hwu⟩ := hf.2 u hu
    have hwend : w.atEnd = false := by
      rw [(SameView.of_shared hwu.symm).atEnd, settle_atEnd hu, hs.notAtEnd hr]
    have follows {v : State} (hv : t.settle = .next v) : ∃ x, Reaches l x ∧ x.shared = v.shared := by
      have hsame : sharedOutcome (step w) = sharedOutcome (.next v) := by
        rw [step_of_shared hwu, hfull hr, hv]
      obtain ⟨x, hx, hxv⟩ := next_of_sharedOutcome hsame
      exact ⟨x, hw.step hwend hx, hxv⟩
    rcases hend with ⟨hr', -⟩ | ⟨hr', hatEnd, -⟩
    · exact .inl ⟨.inl hr', fun v hv => follows hv⟩
    · refine .inr ⟨hr', hatEnd, fun v hv => ?_⟩
      obtain ⟨x, hx, hxv⟩ := follows hv
      exact ⟨x, hx, SameView.of_shared hxv.symm⟩

theorem RunInvariant.of_cycle (hs : RunInvariant l s) (h : cycle inp s = .next (t, sig)) : RunInvariant l t := by
  cases hp : sig.pStall
  · exact hs.of_tick h hp
  · exact hs.of_stall h hp

end Cycle

theorem RunInvariant.of_run {l s t : State} {inputs : List Inputs} (hs : RunInvariant l s)
    (h : runCycles inputs s = .next t) : RunInvariant l t := by
  induction inputs generalizing s with
  | nil =>
    cases h
    exact hs
  | cons inp rest ih =>
    unfold runCycles at h
    split at h
    · cases h
      exact hs
    · obtain ⟨⟨u, sig⟩, hu, h⟩ := andThen_eq_next.mp h
      exact ih (hs.of_cycle hu) h

/-- A state with nothing in flight settles to itself, its register file showing the registers (R39). -/
theorem settle_of_drained {t v : State} (hd : t.drained = true) (hv : t.settle = .next v) :
    t.dmem = v.dmem ∧ t.events = v.events ∧ ∀ r, t.rfRead r = v.reg r := by
  have hdx : t.dx.ready = false := by
    simp only [State.drained, Bool.and_eq_true, Bool.not_eq_true'] at hd
    exact hd.1.1.2
  rw [settle_empty hdx] at hv
  cases hv
  exact ⟨rfl, rfl, fun r => (reg_of_producer_none (producer_of_drained (s := t.withoutResult) hd r)).symm⟩

/-- Settles O56: the invariant of the signal view's run, at its last state. -/
theorem runsAgree : Obligations.RunsAgree := by
  intro cfg resetPc imem dmem inputs t v hrun hv
  have hinv := (launch_runInvariant cfg resetPc imem dmem).of_run hrun
  have hw : ∃ w, Reaches (State.launch cfg resetPc imem dmem) w ∧ SameView v w := by
    rcases hinv.agrees with ⟨-, hf⟩ | ⟨-, -, hd⟩
    · obtain ⟨w, hw, hwv⟩ := hf v hv
      exact ⟨w, hw, SameView.of_shared hwv.symm⟩
    · exact hd v hv
  obtain ⟨w, ⟨k, hk⟩, hsame⟩ := hw
  refine ⟨k, w, hk, hsame.reg, hsame.dmem, hsame.events, hsame.pc, hsame.npc, fun hover => ?_⟩
  simp only [State.over, Bool.and_eq_true] at hover
  obtain ⟨hend, hdrained⟩ := hover
  obtain ⟨hdmem, hevents, hrf⟩ := settle_of_drained hdrained hv
  refine ⟨?_, hdmem.trans hsame.dmem, hevents.trans hsame.events, fun r => (hrf r).trans (hsame.reg r)⟩
  rw [hsame.atEnd, settle_atEnd hv, hend]

end Sys2Proof.Machine
end

