-- ==== Sys2Proof/Proofs/Fairness.lean ====
section
/-! PROOFS. Under a fair environment every stall ends (R311): first the execute stage has its result, then the fetch is
made and held, and then nothing is left to wait for but morpho_stall. -/

namespace Sys2Proof.Machine

section Cycle
variable {inp inp' : Inputs} {s t u : State} {sig sig' : Signals}

/-! ### What one stalled cycle leaves for the next -/

theorem dx_of_stall (h : cycle inp s = .next (t, sig)) (hp : sig.pStall = true) : t.dx = s.dx := by
  obtain ⟨e, f, he, -, -, rfl, -⟩ := cycle_stall_inv h hp
  exact (executeCycle_frame he).fetchSame.dx

theorem hasResult_eq_false_iff : s.hasResult = false ↔ s.dx.ready = true ∧ s.sig.execDone = none := by
  simp [State.hasResult]

/-- A result that is recorded stays through a stall (R64, R159). -/
theorem hasResult_of_stall (h : cycle inp s = .next (t, sig)) (hp : sig.pStall = true) (hr : s.hasResult = true) :
    t.hasResult = true := by
  have hdx := dx_of_stall h hp
  obtain ⟨e, f, he, -, -, rfl, -⟩ := cycle_stall_inv h hp
  have hsig : (e.state.held f).sig.execDone = s.sig.execDone := (executeCycle_quiet_of_done he hr).1.execDone
  rw [State.hasResult, hdx, hsig]
  exact hr

/-- An operation that has begun stays begun through a stall (R159). -/
theorem begun_of_stall (h : cycle inp s = .next (t, sig)) (hp : sig.pStall = true) (hb : s.sig.begun = true) :
    t.sig.begun = true := by
  obtain ⟨e, f, he, -, -, rfl, -⟩ := cycle_stall_inv h hp
  cases hr : s.hasResult
  · obtain ⟨hr, hd⟩ := hasResult_eq_false_iff.mp hr
    exact executeCycle_begun he hr hd (morphBarred_of_begun he hr hd (.inr hb))
  · show e.state.sig.begun = true
    rw [(executeCycle_quiet_of_done he hr).2.2, hb]

/-- An instruction without a result after a stalled cycle stalls the execute stage, or is a MorphoSys operation barred
by the f_stall (R149, R265). -/
theorem stall_cause (h : cycle inp s = .next (t, sig)) (hp : sig.pStall = true) (hr : s.dx.ready = true)
    (hd : t.sig.execDone = none) : sig.xStall = true ∨ (s.morphBarred inp = true ∧ sig.fStall = true) := by
  obtain ⟨e, f, he, -, -, rfl, rfl⟩ := cycle_stall_inv h hp
  have hd : e.state.sig.execDone = none := hd
  cases hx : e.stall
  · rcases executeCycle_finishes he hr hx with hdone | ⟨hn, hb⟩
    · simp [hd] at hdone
    · exact .inr ⟨hb, (fetchStalls_of_barred he hr hn hb).2⟩
  · exact .inl hx

/-- A line that ends its load in a miss is hit from the next cycle on (R70, R72). -/
theorem cacheHit_of_lineLoaded (h : cycle inp s = .next (t, sig)) (hc : s.cfg.cacheEn = true)
    (hr : s.dx.ready = true) (hm : s.dx.flags.memOp = true) (hd : s.sig.execDone = none)
    (hmiss : cacheHit s.sig.cache s.dx.maddr = false) (hl : s.lineLoaded inp = true) :
    cacheHit t.sig.cache s.dx.maddr = true := by
  obtain ⟨e, f, he, -, hk⟩ := cycle_executeKept h
  have hcache : t.sig.cache = markValid s.sig.cache s.dx.maddr := by
    rw [hk.cache, (executeCycle_cached he hc hr hm hd).2.2.2]
    simp [cachedAccess, hmiss, hl]
  rw [hcache]
  exact cacheHit_eq_true.mpr ⟨_, selectedLine_markValid_same _ _, rfl, rfl⟩

/-- With the execute stage's result there, a fetch not enabled or acknowledged is not enabled in the next cycle of the
stall: the run's end is reached, or the fetch is held (R54, R55). -/
theorem ir_after_stall (h : cycle inp s = .next (t, sig)) (hp : sig.pStall = true) (hr : s.hasResult = true)
    (hir : sig.ir = false ∨ inp.insack = true) (h' : cycle inp' t = .next (u, sig')) : sig'.ir = false := by
  obtain ⟨e, f, he, hf, -, rfl, rfl⟩ := cycle_stall_inv h hp
  obtain ⟨e', f', he', -, rfl, -⟩ := cycle_next_inv h'
  have hres : e.state.hasResult = true := by
    rw [State.hasResult, (executeCycle_frame he).fetchSame.dx, (executeCycle_quiet_of_done he hr).2.2]
    exact hr
  have ha := awaitsBranch_of_hasResult hres
  have hia := iaAddr_held he he' (.inl ha)
  have hfs : e.state.fetchStalls inp = false := by
    rcases hir with hir | hack
    · have hir : e.state.fetchEnabled = false := hir
      simp [State.fetchStalls, hir]
    · simp [State.fetchStalls, hack]
  show e'.state.fetchEnabled = false
  cases hends : e.state.fetchEnds
  · obtain ⟨g, rfl⟩ : ∃ g, f = some g := by
      rcases fetchCycle_cases hf with ⟨hn, -⟩ | ⟨-, hn, -⟩ | ⟨-, -, ⟨w, -, hw⟩ | ⟨-, g, -, hg⟩⟩
      · simp [hends] at hn
      · simp [hfs] at hn
      · exact ⟨_, hw⟩
      · exact ⟨g, hg⟩
    exact (not_enabled_of_fetchedAlready (inp := inp')
      (fetchedAlready_of_held he' rfl (fetchCycle_pc hf) hia)).1
  · have ha' : e'.state.awaitsBranch = false := by
      rw [← Bool.not_eq_true]
      intro hn
      simp [awaitsBranch_of_held he he' hn] at ha
    have hends' : e'.state.fetchEnds = true := by
      refine fetchEnds_eq_true.mpr ⟨?_, ha'⟩
      rw [(executeCycle_frame he').fetchSame.cfg, State.held_cfg, hia]
      exact (fetchEnds_eq_true.mp hends).1
    simp [State.fetchEnabled, hends']

end Cycle

/-! ### A stall without end -/

section Endless
variable {inputs : Nat → Inputs} {x : Nat → State} {sig : Nat → Signals} {n : Nat}

/-- From cycle n on the pipeline stalls for ever. -/
def StalledFrom (sig : Nat → Signals) (n : Nat) : Prop := ∀ m ≥ n, (sig m).pStall = true

theorem StalledFrom.mono (h : StalledFrom sig n) {m : Nat} (hm : n ≤ m) : StalledFrom sig m :=
  fun k hk => h k (hm.trans hk)

variable (hrun : EndlessRun inputs x sig) (hstall : StalledFrom sig n)
include hrun hstall

theorem dx_of_stalledFrom {m : Nat} (hm : n ≤ m) : (x m).dx = (x n).dx := by
  induction m, hm using Nat.le_induction with
  | base => rfl
  | succ m hm ih => rw [dx_of_stall (hrun m) (hstall m hm), ih]

theorem hasResult_of_stalledFrom (hr : (x n).hasResult = true) {m : Nat} (hm : n ≤ m) :
    (x m).hasResult = true := by
  induction m, hm using Nat.le_induction with
  | base => exact hr
  | succ m hm ih => exact hasResult_of_stall (hrun m) (hstall m hm) ih

theorem begun_of_stalledFrom (hb : (x n).sig.begun = true) {m : Nat} (hm : n ≤ m) :
    (x m).sig.begun = true := by
  induction m, hm using Nat.le_induction with
  | base => exact hb
  | succ m hm ih => exact begun_of_stall (hrun m) (hstall m hm) ih

theorem ir_of_stalledFrom (hr : (x n).hasResult = true) (hir : (sig n).ir = false) {m : Nat} (hm : n ≤ m) :
    (sig m).ir = false := by
  induction m, hm using Nat.le_induction with
  | base => exact hir
  | succ m hm ih =>
    exact ir_after_stall (hrun m) (hstall m hm) (hasResult_of_stalledFrom hrun hstall hr hm) (.inl ih) (hrun (m + 1))

variable (hfair : Fair inputs x sig)
include hfair

/-- A load or store does not wait for ever: the memory acknowledges it, or loads its line, which is then hit. -/
theorem not_stalledFrom_of_access (hm : (x n).dx.flags.memOp = true)
    (hno : ∀ m ≥ n, (x m).hasResult = false) : False := by
  have waits (m : Nat) (hm' : n ≤ m) : (x m).dx.ready = true ∧ (x m).dx.flags.memOp = true ∧
      (x m).sig.execDone = none ∧ (if (x m).cfg.cacheEn = true then
        cacheHit (x m).sig.cache (x m).dx.maddr = false else (inputs m).dack = false) := by
    obtain ⟨hr, hd⟩ := hasResult_eq_false_iff.mp (hno m hm')
    have hmem : (x m).dx.flags.memOp = true := by rw [dx_of_stalledFrom hrun hstall hm', hm]
    have hx : (sig m).xStall = true := by
      rcases stall_cause (hrun m) (hstall m hm') hr (hasResult_eq_false_iff.mp (hno (m + 1) (by omega))).2 with
        hx | ⟨hb, -⟩
      · exact hx
      · simp [morphBarred_of_memOp hmem] at hb
    obtain ⟨-, ⟨-, -, hcause⟩ | ⟨hn, -⟩⟩ := (executeStallCauses _ _ _ _ (hrun m)).mp hx
    · exact ⟨hr, hmem, hd, hcause⟩
    · simp [hmem] at hn
  have hawaits : (x n).awaitsMemory = true := by
    obtain ⟨hr, hmem, hd, hcause⟩ := waits n le_rfl
    cases hc : (x n).cfg.cacheEn
    · simp [State.awaitsMemory, hr, hmem, hd, hc]
    · rw [if_pos hc] at hcause
      simp [State.awaitsMemory, hr, hmem, hd, hcause]
  obtain ⟨m, hm', hans⟩ := (hfair n).2.1 hawaits
  obtain ⟨hr, hmem, hd, hcause⟩ := waits m hm'
  unfold State.memoryAnswers at hans
  cases hc : (x m).cfg.cacheEn
  · simp [hc] at hcause hans
    simp [hcause] at hans
  · rw [if_pos hc] at hcause hans
    have hhit := cacheHit_of_lineLoaded (hrun m) hc hr hmem hd hcause hans
    obtain ⟨-, -, -, hcause'⟩ := waits (m + 1) (by omega)
    rw [cycle_cfg (hrun m), if_pos hc, dx_of_stall (hrun m) (hstall m hm'), hhit] at hcause'
    cases hcause'

/-- A MorphoSys operation does not wait for ever: the fetch beside it ends, so that it begins, and then morpho_stall is
negated in some cycle. -/
theorem not_stalledFrom_of_operation (hm : (x n).dx.flags.memOp = false)
    (hno : ∀ m ≥ n, (x m).hasResult = false) : False := by
  have hdx {m : Nat} (hm' : n ≤ m) : (x m).dx = (x n).dx := dx_of_stalledFrom hrun hstall hm'
  have cause (m : Nat) (hm' : n ≤ m) : ((x m).dx.flags.morphOp = true ∧ (inputs m).morphoStall = true) ∨
      ((x m).morphBarred (inputs m) = true ∧ (sig m).fStall = true) := by
    obtain ⟨hr, hd⟩ := hasResult_eq_false_iff.mp (hno m hm')
    refine (stall_cause (hrun m) (hstall m hm') hr
      (hasResult_eq_false_iff.mp (hno (m + 1) (by omega))).2).imp_left fun hx => ?_
    obtain ⟨-, ⟨hn, -⟩ | ⟨-, hmorph, hms⟩⟩ := (executeStallCauses _ _ _ _ (hrun m)).mp hx
    · simp [hdx hm', hm] at hn
    · exact ⟨hmorph, hms⟩
  have hmorph : (x n).dx.flags.morphOp = true := by
    rcases cause n le_rfl with ⟨h, -⟩ | ⟨h, -⟩
    · exact h
    · exact (morphBarred_eq_true.mp h).2.1
  by_cases hbar : ∀ m ≥ n, (x m).morphBarred (inputs m) = true
  · have hfs (m : Nat) (hm' : n ≤ m) : (sig m).fStall = true := by
      obtain ⟨hr, hd⟩ := hasResult_eq_false_iff.mp (hno m hm')
      obtain ⟨e, f, he, -, -, -, hsig⟩ := cycle_stall_inv (hrun m) (hstall m hm')
      rw [hsig]
      exact (fetchStalls_of_barred he hr hd (hbar m hm')).2
    have hir : (sig n).ir = true := by
      have := hfs n le_rfl
      rw [(stallSignals _ _ _ _ (hrun n)).2, Bool.and_eq_true] at this
      exact this.1
    obtain ⟨m, hm', hack⟩ := (hfair n).1 hir
    have := hfs m hm'
    simp [(stallSignals _ _ _ _ (hrun m)).2, hack] at this
  · push Not at hbar
    obtain ⟨m, hm', hb⟩ := hbar
    obtain ⟨hr, hd⟩ := hasResult_eq_false_iff.mp (hno m hm')
    have hbegun : (x (m + 1)).sig.begun = true := by
      obtain ⟨e, f, he, -, -, ht, -⟩ := cycle_stall_inv (hrun m) (hstall m hm')
      rw [ht]
      exact executeCycle_begun he hr hd (by simpa using hb)
    have hready : (x (m + 1)).dx.ready = true := (hasResult_eq_false_iff.mp (hno (m + 1) (by omega))).1
    obtain ⟨k, hk, hms⟩ := (hfair (m + 1)).2.2 hready
      (by rw [hdx (by omega), hm]) (by rw [hdx (by omega), hmorph])
    rcases cause k (by omega) with ⟨-, hn⟩ | ⟨hn, -⟩
    · simp [hms] at hn
    · have := begun_of_stalledFrom hrun (hstall.mono (by omega : n ≤ m + 1)) hbegun hk
      simp [State.morphBarred, this] at hn

/-- The execute stage comes to have a result. -/
theorem hasResult_eventually : ∃ m ≥ n, (x m).hasResult = true := by
  by_contra hno
  have hno : ∀ m ≥ n, (x m).hasResult = false := fun m hm => by
    by_contra hr
    exact hno ⟨m, hm, by simpa using hr⟩
  cases hm : (x n).dx.flags.memOp
  · exact not_stalledFrom_of_operation hrun hstall hfair hm hno
  · exact not_stalledFrom_of_access hrun hstall hfair hm hno

/-- With its result there, the fetch comes to be held, and then only morpho_stall is left to wait for. -/
theorem not_stalledFrom_of_hasResult (hr : (x n).hasResult = true) : False := by
  obtain ⟨k, hk, hir⟩ : ∃ k ≥ n, (sig k).ir = false := by
    cases hir : (sig n).ir
    · exact ⟨n, le_rfl, hir⟩
    · obtain ⟨m, hm, hack⟩ := (hfair n).1 hir
      exact ⟨m + 1, by omega, ir_after_stall (hrun m) (hstall m hm)
        (hasResult_of_stalledFrom hrun hstall hr hm) (.inr hack) (hrun (m + 1))⟩
  have hstall' := hstall.mono hk
  have hrk := hasResult_of_stalledFrom hrun hstall hr hk
  have xStalls (j : Nat) (hj : k ≤ j) : (x j).dx.ready = true ∧ (x j).dx.flags.memOp = false ∧
      (x j).dx.flags.morphOp = true ∧ (inputs j).morphoStall = true := by
    have hp := hstall' j hj
    have hfs : (sig j).fStall = false := by
      rw [(stallSignals _ _ _ _ (hrun j)).2, ir_of_stalledFrom hrun hstall' hrk hir hj, Bool.false_and]
    rw [(stallSignals _ _ _ _ (hrun j)).1, hfs, Bool.false_or] at hp
    obtain ⟨hready, ⟨-, hd, -⟩ | hmorph⟩ := (executeStallCauses _ _ _ _ (hrun j)).mp hp
    · have := hasResult_of_stalledFrom hrun hstall' hrk hj
      rw [hasResult_eq_false_iff.mpr ⟨hready, hd⟩] at this
      cases this
    · exact ⟨hready, hmorph⟩
  obtain ⟨hready, hm, hmorph, -⟩ := xStalls k le_rfl
  obtain ⟨j, hj, hms⟩ := (hfair k).2.2 hready hm hmorph
  obtain ⟨-, -, -, hn⟩ := xStalls j hj
  simp [hms] at hn

end Endless

/-- Settles O48: a stall from cycle n on without end cannot be. -/
theorem stallsEnd : Obligations.StallsEnd := by
  intro inputs x sig hrun hfair n
  by_contra hno
  have hstall : StalledFrom sig n := fun m hm => by
    by_contra hp
    exact hno ⟨m, hm, by simpa using hp⟩
  obtain ⟨m, hm, hr⟩ := hasResult_eventually hrun hstall hfair
  exact not_stalledFrom_of_hasResult hrun (hstall.mono hm) hfair hr

end Sys2Proof.Machine
end
